-- ==== Sys2Proof/Word.lean ====
section
/-! DEFINITION. The word types of HBCE: bytes (R12), bus words (R7), blocks (R4, R77) and host addresses (R7). -/

namespace Sys2Proof

/-- A byte of a byte sequence (R12). -/
abbrev Byte := BitVec 8

/-- A word of the host data bus, and a command word (R7). -/
abbrev Word := BitVec 32

/-- A 16-byte block as the primitive port carries it: byte `i` in bits `8i+7 : 8i` (R4, R7, R77). -/
abbrev Block := BitVec 128

/-- A host address: an 18-bit byte offset from the engine's base (R7). -/
abbrev Address := BitVec 18

end Sys2Proof
end

