-- ==== Sys2Proof/Syntax.lean ====
section
/-! DEFINITION. The syntax of HBCE: the 14 commands (R97), one constructor per row of the opcode table, and the
assembler's lines with their omissible operands (R101, R102). -/

namespace Sys2Proof

/-- The mode of `XORROLL` (R142, R143): flag 0 or 1. -/
inductive RollMode where
  | inputDifferential
  | outputDifferential
  deriving DecidableEq, Repr

/-- A command of HBCE (R97), with the operands its word carries. Immediates are the 8-bit fields `a`, `b` of R96 and
flags the bit `f`, so that every term has an encoding (log 12). -/
inductive Instr where
  | pad (blockSize : Byte)
  | unpad (blockSize : Byte)
  | padded (blockSize : Byte)
  | xorkey
  | xorroll (mode : RollMode)
  | xorctr (startKey increment : Byte)
  | ecbenc
  | ecbdec (removePadding : Bool)
  | cbcenc
  | cbcdec (removePadding : Bool)
  | hamming
  | keysize (min max : Byte)
  | english
  | solve1
  deriving DecidableEq, Repr

/-- A line of assembler (R101): a mnemonic with its operands as numbers of any size; `none` is an operand left out,
which takes the default of R102. `XORCTR`'s increment may be negative. -/
inductive AsmLine where
  | pad (blockSize : Option Nat)
  | unpad (blockSize : Option Nat)
  | padded (blockSize : Option Nat)
  | xorkey
  | xorroll (mode : RollMode)
  | xorctr (startKey : Option Nat) (increment : Option Int)
  | ecbenc
  | ecbdec (removePadding : Option Bool)
  | cbcenc
  | cbcdec (removePadding : Option Bool)
  | hamming
  | keysize (range : Option (Nat × Nat))
  | english
  | solve1
  deriving DecidableEq, Repr

end Sys2Proof
end

