-- ==== Sys2Proof/WellFormed.lean ====
section
/-! DEFINITION. Well-formedness. A term of `Instr` needs no check: its immediates are 8-bit fields and its flags bits,
and R100 makes every value of them a legal encoding (log 12). What can be ill-formed is a line of assembler, whose
operands are numbers of any size (R96, R101, R102). -/

namespace Sys2Proof

/-- An operand carried by an 8-bit immediate field: 0 to 255 (R96). -/
def fitsByte (n : Nat) : Bool := n < 256

/-- An operand that may be left out (R102). -/
def fitsByteOpt (n : Option Nat) : Bool := n.all fitsByte

/-- `XORCTR`'s second operand: a signed decimal from -128 to 255 (R101). -/
def fitsIncrement (n : Int) : Bool := (-128 ≤ n) && (n ≤ 255)

/-- A line of assembler that R101 and R102 admit. The increment of `XORCTR` can be written only after a start key
(R102 lists `XORCTR` and `XORCTR s`). -/
def AsmLine.wellFormed : AsmLine → Bool
  | .pad bs => fitsByteOpt bs
  | .unpad bs => fitsByteOpt bs
  | .padded bs => fitsByteOpt bs
  | .xorctr start inc => fitsByteOpt start && inc.all fitsIncrement && (start.isSome || inc.isNone)
  | .keysize range => range.all (fun r => fitsByte r.1 && fitsByte r.2)
  | .xorkey => true
  | .xorroll _ => true
  | .ecbenc => true
  | .ecbdec _ => true
  | .cbcenc => true
  | .cbcdec _ => true
  | .hamming => true
  | .english => true
  | .solve1 => true

end Sys2Proof
end

