-- ==== Sys2Proof/Decode.lean ====
section
/-! DEFINITION. Command words: the four formats (R91 to R95), the opcode table (R97), the decoder (R98), the encoder
(R101) and the assembler's defaults (R102). -/

namespace Sys2Proof

/-- The four formats of a command word (R92 to R95). -/
inductive Format where
  | Z
  | F
  | A
  | AB
  deriving DecidableEq, Repr

/-- The bits a format fixes: the mask column of R97. -/
def Format.mask : Format → Word
  | .Z => 0xFFFFFFFF
  | .F => 0xFFFFFEFF
  | .A => 0xFF00FFFF
  | .AB => 0x0000FFFF

/-- Why a word is illegal (R98): its opcode is none of the 14, or a bit outside the row's fields is 1. -/
inductive Illegal where
  | unknownOpcode (op : Byte)
  | unusedFieldNonzero (op : Byte)
  deriving DecidableEq, Repr

/-- The field `op`, bits 7:0 (R91). -/
def opField (w : Word) : Byte := w.extractLsb' 0 8

/-- The field `f`, bit 8 (R91). -/
def fField (w : Word) : Bool := w.getLsbD 8

/-- The field `a`, bits 23:16 (R91). -/
def aField (w : Word) : Byte := w.extractLsb' 16 8

/-- The field `b`, bits 31:24 (R91). -/
def bField (w : Word) : Byte := w.extractLsb' 24 8

/-- The mode that `XORROLL`'s flag stands for (R143). -/
def RollMode.ofFlag (f : Bool) : RollMode :=
  if f then .outputDifferential else .inputDifferential

/-- The flag that carries `XORROLL`'s mode (R143). -/
def RollMode.flag : RollMode → Bool
  | .inputDifferential => false
  | .outputDifferential => true

/-- A row of the opcode table: how its opcode, its format and its fields `f`, `a`, `b` make a command. -/
structure Row where
  mnemonic : String
  op : Byte
  format : Format
  build : Bool → Byte → Byte → Instr

/-- The 14 rows of R97. -/
def opcodeTable : List Row :=
  [⟨"PAD", 0x01, .A, fun _ a _ => .pad a⟩,
   ⟨"UNPAD", 0x02, .A, fun _ a _ => .unpad a⟩,
   ⟨"PADDED", 0x03, .A, fun _ a _ => .padded a⟩,
   ⟨"XORKEY", 0x10, .Z, fun _ _ _ => .xorkey⟩,
   ⟨"XORROLL", 0x11, .F, fun f _ _ => .xorroll (RollMode.ofFlag f)⟩,
   ⟨"XORCTR", 0x12, .AB, fun _ a b => .xorctr a b⟩,
   ⟨"ECBENC", 0x20, .Z, fun _ _ _ => .ecbenc⟩,
   ⟨"ECBDEC", 0x21, .F, fun f _ _ => .ecbdec f⟩,
   ⟨"CBCENC", 0x22, .Z, fun _ _ _ => .cbcenc⟩,
   ⟨"CBCDEC", 0x23, .F, fun f _ _ => .cbcdec f⟩,
   ⟨"HAMMING", 0x30, .Z, fun _ _ _ => .hamming⟩,
   ⟨"KEYSIZE", 0x31, .AB, fun _ a b => .keysize a b⟩,
   ⟨"ENGLISH", 0x32, .Z, fun _ _ _ => .english⟩,
   ⟨"SOLVE1", 0x33, .Z, fun _ _ _ => .solve1⟩]

/-- The `match` column of R97: the opcode with every other fixed bit zero. -/
def Row.pattern (r : Row) : Word := r.op.setWidth 32

/-- A word selects a row when `w & mask = match` (R97). -/
def Row.selects (r : Row) (w : Word) : Bool := (w &&& r.format.mask) == r.pattern

/-- `decode(w)` (R98): the row that `w` selects with the fields of `w`, or illegal, with the reason. -/
def decode (w : Word) : Except Illegal Instr :=
  match opcodeTable.find? (·.selects w) with
  | some r => .ok (r.build (fField w) (aField w) (bField w))
  | none =>
    .error (if opcodeTable.any (·.op == opField w) then .unusedFieldNonzero (opField w)
            else .unknownOpcode (opField w))

/-- The opcode of a command (R97): bits 7:0 of its word, the value STATUS.LASTOP records (R28). -/
def Instr.opcode : Instr → Byte
  | .pad _ => 0x01
  | .unpad _ => 0x02
  | .padded _ => 0x03
  | .xorkey => 0x10
  | .xorroll _ => 0x11
  | .xorctr _ _ => 0x12
  | .ecbenc => 0x20
  | .ecbdec _ => 0x21
  | .cbcenc => 0x22
  | .cbcdec _ => 0x23
  | .hamming => 0x30
  | .keysize _ _ => 0x31
  | .english => 0x32
  | .solve1 => 0x33

/-- The format of a command's word (R97). -/
def Instr.format : Instr → Format
  | .pad _ => .A
  | .unpad _ => .A
  | .padded _ => .A
  | .xorkey => .Z
  | .xorroll _ => .F
  | .xorctr _ _ => .AB
  | .ecbenc => .Z
  | .ecbdec _ => .F
  | .cbcenc => .Z
  | .cbcdec _ => .F
  | .hamming => .Z
  | .keysize _ _ => .AB
  | .english => .Z
  | .solve1 => .Z

/-- The flag `f` of a command's word, zero where its format has none (R91). -/
def Instr.flag : Instr → Bool
  | .xorroll mode => mode.flag
  | .ecbdec rp => rp
  | .cbcdec rp => rp
  | .pad _ => false
  | .unpad _ => false
  | .padded _ => false
  | .xorkey => false
  | .xorctr _ _ => false
  | .ecbenc => false
  | .cbcenc => false
  | .hamming => false
  | .keysize _ _ => false
  | .english => false
  | .solve1 => false

/-- The immediate `a` of a command's word, zero where its format has none (R91). -/
def Instr.immA : Instr → Byte
  | .pad bs => bs
  | .unpad bs => bs
  | .padded bs => bs
  | .xorctr start _ => start
  | .keysize min _ => min
  | .xorkey => 0
  | .xorroll _ => 0
  | .ecbenc => 0
  | .ecbdec _ => 0
  | .cbcenc => 0
  | .cbcdec _ => 0
  | .hamming => 0
  | .english => 0
  | .solve1 => 0

/-- The immediate `b` of a command's word, zero where its format has none (R91). -/
def Instr.immB : Instr → Byte
  | .xorctr _ inc => inc
  | .keysize _ max => max
  | .pad _ => 0
  | .unpad _ => 0
  | .padded _ => 0
  | .xorkey => 0
  | .xorroll _ => 0
  | .ecbenc => 0
  | .ecbdec _ => 0
  | .cbcenc => 0
  | .cbcdec _ => 0
  | .hamming => 0
  | .english => 0
  | .solve1 => 0

/-- The command word of a command (R91, R101): `b`, `a`, seven zero bits, `f`, `op`, from bit 31 down. -/
def encode (i : Instr) : Word :=
  i.immB ++ i.immA ++ 0#7 ++ BitVec.ofBool i.flag ++ i.opcode

/-- What a line of assembler stands for (R101, R102): its command, with the defaults of R102 for operands left out;
none for a line that is not well formed. -/
def AsmLine.assemble (l : AsmLine) : Option Instr :=
  if l.wellFormed then
    some (match l with
      | .pad bs => .pad (BitVec.ofNat 8 (bs.getD 16))
      | .unpad bs => .unpad (BitVec.ofNat 8 (bs.getD 16))
      | .padded bs => .padded (BitVec.ofNat 8 (bs.getD 16))
      | .xorkey => .xorkey
      | .xorroll mode => .xorroll mode
      | .xorctr start inc => .xorctr (BitVec.ofNat 8 (start.getD 0)) (BitVec.ofInt 8 (inc.getD 1))
      | .ecbenc => .ecbenc
      | .ecbdec rp => .ecbdec (rp.getD true)
      | .cbcenc => .cbcenc
      | .cbcdec rp => .cbcdec (rp.getD true)
      | .hamming => .hamming
      | .keysize range => .keysize (BitVec.ofNat 8 (range.getD (2, 40)).1) (BitVec.ofNat 8 (range.getD (2, 40)).2)
      | .english => .english
      | .solve1 => .solve1)
  else none

/-- The command that the decoder reads from a command word of `nbits` bits given as a number (the host's table gives
every row 32 bits, R90). -/
def decodeTableWord (nbits w : Nat) : Option Instr :=
  match decode (BitVec.ofNat 32 (w % 2 ^ nbits)) with
  | .ok i => some i
  | .error _ => none

end Sys2Proof
end

