-- ==== Sys2Proof/Machine/Bytes.lean ====
section
/-! DEFINITION. Bytes and their packing: the one little-endian order of HBCE (R66, R68, R77), population count (R13),
and the blocks of a byte sequence (R162). -/

namespace Sys2Proof.Machine

/-- The number whose little-endian bytes are the sequence: byte 0 is the least significant (R66, R77). -/
def leNat : List Byte → Nat
  | [] => 0
  | x :: xs => x.toNat + 256 * leNat xs

/-- The first `n` little-endian bytes of a number (R66, R77). -/
def leBytes : Nat → Nat → List Byte
  | 0, _ => []
  | n + 1, v => BitVec.ofNat 8 v :: leBytes n (v / 256)

/-- The word that holds four bytes (R66). -/
def wordOfBytes (bs : List Byte) : Word := BitVec.ofNat 32 (leNat bs)

/-- The four bytes of a word, bits 7:0 first (R66). -/
def bytesOfWord (w : Word) : List Byte := leBytes 4 w.toNat

/-- The block that holds sixteen bytes (R77). -/
def blockOfBytes (bs : List Byte) : Block := BitVec.ofNat 128 (leNat bs)

/-- The sixteen bytes of a block, bits 7:0 first (R77). -/
def bytesOfBlock (x : Block) : List Byte := leBytes 16 x.toNat

/-- The first `n` blocks of a byte sequence (R162). -/
def takeBlocks : Nat → List Byte → List Block
  | 0, _ => []
  | n + 1, s => blockOfBytes (s.take 16) :: takeBlocks n (s.drop 16)

/-- The blocks of a byte sequence whose length is a multiple of 16 (R162). -/
def blocksOf (s : List Byte) : List Block := takeBlocks (s.length / 16) s

/-- The byte sequence of a list of blocks (R162). -/
def bytesOfBlocks (bs : List Block) : List Byte := bs.flatMap bytesOfBlock

/-- The number of 1 bits of a byte (R13). -/
def popcount (v : Byte) : Nat := ((List.range 8).filter (fun i => v.getLsbD i)).length

end Sys2Proof.Machine
end

