-- ==== Sys2Proof/Machine/Flags.lean ====
section
/-! DEFINITION. The STATUS register (R28) and the command errors with their codes (R230). -/

namespace Sys2Proof.Machine

/-- The six command errors (R230). -/
inductive CmdError where
  /-- A buffer length or an operand violates a hard precondition (R231). -/
  | invalidInput
  /-- The declared key length is not 16 (R232). -/
  | invalidKeyLength
  /-- The declared IV length is not 16 (R233). -/
  | invalidIvLength
  /-- No key size can be sampled (R234). -/
  | needMoreData
  /-- The command word matches no row of the opcode table (R235). -/
  | illegalCommand
  /-- A declared length or a result does not fit a buffer (R236). -/
  | capacityExceeded
  deriving DecidableEq, Repr

/-- The ERRCODE of an error (R230). -/
def CmdError.code : CmdError → BitVec 3
  | .invalidInput => 1
  | .invalidKeyLength => 2
  | .invalidIvLength => 3
  | .needMoreData => 4
  | .illegalCommand => 5
  | .capacityExceeded => 6

/-- A STATUS word (R28) after a command: DONE is 1, the bits 3:2, 7 and 31:16 are 0. -/
def statusWord (err : Bool) (code : BitVec 3) (lastop : Byte) : Word :=
  0#16 ++ lastop ++ 0#1 ++ code ++ 0#2 ++ BitVec.ofBool err ++ 1#1

/-- STATUS after a successful command (R104). -/
def statusOk (lastop : Byte) : Word := statusWord false 0 lastop

/-- STATUS after a command that raised an error (R239). -/
def statusErr (e : CmdError) (lastop : Byte) : Word := statusWord true e.code lastop

/-- STATUS.DONE (R28). -/
def statusDone (w : Word) : Bool := w.getLsbD 0

/-- STATUS.ERR (R28). -/
def statusErrFlag (w : Word) : Bool := w.getLsbD 1

/-- STATUS.ERRCODE (R28). -/
def statusErrCode (w : Word) : BitVec 3 := w.extractLsb' 4 3

/-- STATUS.LASTOP (R28). -/
def statusLastOp (w : Word) : Byte := w.extractLsb' 8 8

/-- The bits of STATUS that read 0 always (R28): 3:2, 7 and 31:16. -/
def statusReserved (w : Word) : Word := w &&& 0xFFFF008C

end Sys2Proof.Machine
end

