-- ==== Sys2Proof/Config.lean ====
section
/-! DEFINITION. What an implementation fixes (`BUF_BYTES`, the cipher primitive) and the free values the spec leaves
open. Nothing here that the spec leaves open has a body: no proof can see its value. -/

namespace Sys2Proof

/-- The parameters a model of HBCE takes (R5, R6): the capacity of a buffer in bytes and the cipher primitive. -/
structure Params where
  bufBytes : Nat
  enc : Block → Block → Block
  dec : Block → Block → Block

/-- The constraints R5 puts on `BUF_BYTES`. -/
def Params.Admissible (c : Params) : Prop :=
  c.bufBytes % 16 = 0 ∧ 256 ≤ c.bufBytes ∧ c.bufBytes ≤ 65536

/-- The named hypothesis `PrimInverse` of R6: decryption undoes encryption under the same key. -/
def Params.PrimInverse (c : Params) : Prop :=
  ∀ x k, c.dec (c.enc x k) k = x

/-- The number that fixes `BUF_BYTES`; nothing constrains it (R5 leaves the capacity open; log 3). -/
opaque Config.capacityChoice : Nat

/-- `BUF_BYTES` (R5): a multiple of 16 between 256 and 65536, any of them, according to `capacityChoice`.
DESIGN CHOICE (log 3), safe: every admissible capacity is the value for some choice and no other value occurs. -/
def Config.bufBytes : Nat := 16 * (Config.capacityChoice % 4081 + 16)

/-- `E(x, k)`: encrypt_block(plaintext, key), any total function (R6; log 4). -/
opaque Config.E : Block → Block → Block

/-- `D(x, k)`: decrypt_block(ciphertext, key), any total function (R6; log 4). -/
opaque Config.D : Block → Block → Block

/-- What a byte of a buffer holds that nothing has written since the reset numbered by the first argument; the second
is the byte's host offset (R44, R262, U11: unspecified, fixed at reset; log 5). -/
opaque Config.initialByte : Nat → Nat → Byte

/-- How many primitive calls a command has made when the reset numbered by the argument interrupts it (R262: "any
prefix of the command's calls"; log 9). -/
opaque Config.callsBeforeReset : Nat → Nat

/-- The parameters of the machine that `exec` and `step` run. -/
def Config.params : Params where
  bufBytes := Config.bufBytes
  enc := Config.E
  dec := Config.D

end Sys2Proof
end

