-- ==== Sys2Proof/Machine/State.lean ====
section
/-! DEFINITION. The state of HBCE (R20), as plain data: the operand, status and result registers, the three buffers,
the hidden registers, and beside them the model's own fields (what the outside world has still to present, what has
been observed, and the counter of resets). -/

namespace Sys2Proof.Machine

/-- The three byte buffers (R33, R34, R35). -/
inductive Buf where
  | abuf
  | bbuf
  | obuf
  deriving DecidableEq, Repr

/-- The bytes of a buffer that have been written since reset, by index, in rising order of index. A byte that is not
listed still has its contents of reset (R44; log 6). -/
abbrev Memory := List Host.Cell

/-- A bus transaction as the host presents it (R61): address, byte enables and, for a write, the data. -/
inductive Transaction where
  | read (addr : Address) (be : BitVec 4)
  | write (addr : Address) (be : BitVec 4) (data : Word)
  deriving DecidableEq, Repr

/-- What the outside world can do to HBCE: a bus transaction (R61), `rst` asserted and released between transactions
(R260), or `rst` asserted while the command word given runs (R262). -/
inductive HostEvent where
  | transaction (t : Transaction)
  | rst
  | rstDuring (command : Word)
  deriving DecidableEq, Repr

/-- The completion of a transaction (R61): `h_err` and the read data. A legal write has no read data (log 10). -/
structure Response where
  err : Bool
  rdata : Option Word
  deriving DecidableEq, Repr

/-- One call on the primitive port (R76, R78): `c_dec`, `c_block`, `c_key`. -/
structure PrimCall where
  dec : Bool
  block : Block
  key : Block
  deriving DecidableEq, Repr

/-- The hidden phase of a message (R38, R160). -/
inductive Phase where
  | start
  | body
  | finalBlock
  | done
  deriving DecidableEq, Repr

/-- The five hidden counters of the classifier (R39). -/
structure Counts where
  spaces : Nat
  punct : Nat
  digits : Nat
  upper : Nat
  lower : Nat
  deriving DecidableEq, Repr

/-- All five counters zero, as at the start of an evaluation (R39, R193). -/
def Counts.zero : Counts := ⟨0, 0, 0, 0, 0⟩

/-- The hidden registers of R20: `prev` (R37), `phase` and `blk` (R38), the counters (R39). -/
structure Scratch where
  prev : Block
  phase : Phase
  blk : Nat
  counts : Counts
  deriving DecidableEq, Repr

/-- The hidden registers at reset: DESIGN CHOICE (log 7), since R43 calls their values irrelevant. -/
def Scratch.reset : Scratch := ⟨0, .start, 0, Counts.zero⟩

/-- The state of HBCE (R20). -/
structure State where
  /-- KEY0..KEY3 (R21). -/
  key0 : Word
  key1 : Word
  key2 : Word
  key3 : Word
  /-- IV0..IV3 (R22). -/
  iv0 : Word
  iv1 : Word
  iv2 : Word
  iv3 : Word
  /-- KLEN (R23), IVLEN (R24), ALEN (R25), BLEN (R26): declared lengths in bytes. -/
  klen : Word
  ivlen : Word
  alen : Word
  blen : Word
  /-- STATUS (R28). -/
  status : Word
  /-- OLEN (R29). -/
  olen : Word
  /-- RES0, RES1, RES2 (R30, R31, R32). -/
  res0 : Word
  res1 : Word
  res2 : Word
  /-- ABUF (R33), BBUF (R34), OBUF (R35). -/
  abuf : Memory
  bbuf : Memory
  obuf : Memory
  /-- The hidden registers (R37, R38, R39). -/
  scratch : Scratch
  /-- The model's own: what the outside world has still to present, first the next (log 1). -/
  host : List HostEvent
  /-- The model's own: the responses given so far, oldest first (R10 (a); log 2). -/
  responses : List Response
  /-- The model's own: the calls made on the primitive port so far, oldest first (R10 (b), R78; log 2). -/
  trace : List PrimCall
  /-- The model's own: the number of the reset whose free buffer contents are in force (R44; log 5). -/
  boots : Nat
  deriving DecidableEq, Repr

/-- Why the machine stops. R248: "HBCE has no fault that leaves it stuck", so there is no reason; a command error and a
bus error are next states (log 11). Safe: nothing the spec gives an effect stops. -/
inductive Fault where
  deriving DecidableEq, Repr

/-- Why a command is refused. -/
inductive Refusal where
  /-- Raised by an arm of `exec` for a command that has no meaning yet; safe. No arm raises it. -/
  | notModelled (mnemonic : String)
  deriving DecidableEq, Repr

/-- The result of a step of HBCE. -/
abbrev Outcome := Host.Outcome State Fault Refusal

/-- The state after reset (R43, R260): registers zero, nothing written in any buffer (R44), the hidden registers as
`Scratch.reset`, nothing presented and nothing observed. -/
def State.reset : State where
  key0 := 0
  key1 := 0
  key2 := 0
  key3 := 0
  iv0 := 0
  iv1 := 0
  iv2 := 0
  iv3 := 0
  klen := 0
  ivlen := 0
  alen := 0
  blen := 0
  status := 0
  olen := 0
  res0 := 0
  res1 := 0
  res2 := 0
  abuf := []
  bbuf := []
  obuf := []
  scratch := Scratch.reset
  host := []
  responses := []
  trace := []
  boots := 0

end Sys2Proof.Machine
end

