-- ==== Sys2Proof/Machine/Ops.lean ====
section
/-! DEFINITION. The operations every command shares: the buffers as memories, the host's responses, the two ends of a
command (R104, R239), the command frame (R103) and the reset event (R260). -/

namespace Sys2Proof.Machine

/-- The host offset of a buffer's window (R63). -/
def Buf.base : Buf → Nat
  | .abuf => 0x10000
  | .bbuf => 0x20000
  | .obuf => 0x30000

/-- The byte written at an index, if any has been since reset (R44). -/
def Memory.find (m : Memory) (i : Nat) : Option Byte := m.lookup i

/-- Write one byte, keeping the listed indices in rising order. -/
def Memory.write : Memory → Nat → Byte → Memory
  | [], i, v => [(i, v)]
  | (j, w) :: rest, i, v =>
    if i < j then (i, v) :: (j, w) :: rest
    else if i = j then (i, v) :: rest
    else (j, w) :: Memory.write rest i v

/-- Write consecutive bytes from an index up (R66). -/
def Memory.writeBytes : Memory → Nat → List Byte → Memory
  | m, _, [] => m
  | m, i, v :: vs => Memory.writeBytes (Memory.write m i v) (i + 1) vs

/-- Write a command's whole output to the indices `0 .. len(out)-1`, leaving the others (R35, R79). -/
def Memory.fill (m : Memory) (out : List Byte) : Memory :=
  out.zipIdx.map (fun p => (p.2, p.1)) ++ m.filter (fun c => out.length ≤ c.1)

/-- The canonical form of a memory: indices strictly rising, each listed once (log 6). -/
def Memory.wf (m : Memory) : Bool := decide (m.Pairwise (fun x y => x.1 < y.1))

/-- Every listed index is one of the `n` bytes of the buffer (R33 to R35). -/
def Memory.below (m : Memory) (n : Nat) : Bool := m.all (fun c => c.1 < n)

/-- The memory of a buffer. -/
def State.buf (s : State) : Buf → Memory
  | .abuf => s.abuf
  | .bbuf => s.bbuf
  | .obuf => s.obuf

/-- The byte of a buffer at an index: the byte last written, or the unspecified byte it holds since reset (R44; the one
place that says what an unlisted index reads as, log 5). -/
def State.byte (s : State) (b : Buf) (i : Nat) : Byte :=
  ((s.buf b).find i).getD (Config.initialByte s.boots (b.base + i))

/-- The state after the host has been answered: the response is appended to what it has observed (R10 (a)). -/
def State.respond (s : State) (r : Response) : State :=
  { s with responses := s.responses ++ [r] }

/-- What a command's own rule yields when it raises nothing: the bytes it writes to `OBUF[0..n)` (none for a
command without a buffer result, R29), the scalar results, its calls on the primitive port in order, and the hidden registers as it
leaves them. -/
structure Result where
  out : List Byte
  res0 : Nat
  res1 : Nat
  res2 : Nat
  calls : List PrimCall
  scratch : Scratch

/-- The result of a command that produces bytes: RES0, RES1, RES2 are 0 (R30 to R32). -/
def Result.bytes (s : State) (out : List Byte) : Result :=
  ⟨out, 0, 0, 0, [], s.scratch⟩

/-- The result of a command that produces only RES0: no byte of OBUF, RES1 and RES2 are 0 (R29 to R32). -/
def Result.scalar (s : State) (res0 : Nat) : Result :=
  ⟨[], res0, 0, 0, [], s.scratch⟩

/-- Error entry (R239): `raise e` in a command whose word has `lastop` in bits 7:0. There is no handler, no saved state
and nothing to return to (R241): the next command rewrites what this writes. -/
def raise (e : CmdError) (lastop : Byte) (s : State) : State :=
  { s with status := statusErr e lastop, olen := 0, res0 := 0, res1 := 0, res2 := 0 }

/-- Successful completion (R104) of a command that yielded a result. -/
def complete (lastop : Byte) (r : Result) (s : State) : State :=
  { s with
    status := statusOk lastop
    olen := BitVec.ofNat 32 r.out.length
    res0 := BitVec.ofNat 32 r.res0
    res1 := BitVec.ofNat 32 r.res1
    res2 := BitVec.ofNat 32 r.res2
    obuf := s.obuf.fill r.out
    scratch := r.scratch
    trace := s.trace ++ r.calls }

/-- Steps 2 to 4 of the command frame `ExecCommand` (R103) for a decoded command: the capacity checks on the operands
it reads (R236 (a), (b)), its own rule, and one of the two ends. -/
def runCommand (c : Params) (lastop : Byte) (readsB : Bool) (body : State → Except CmdError Result)
    (s : State) : State :=
  if c.bufBytes < s.alen.toNat then raise .capacityExceeded lastop s
  else if readsB && decide (c.bufBytes < s.blen.toNat) then raise .capacityExceeded lastop s
  else
    match body s with
    | .error e => raise e lastop s
    | .ok r => complete lastop r s

/-- The state after `rst` has been asserted and released (R260): the reset state, with the buffers unspecified anew
(R44). What the outside world will present and what it has observed are not HBCE's and stay (log 8). -/
def resetEvent (s : State) : State :=
  { State.reset with
    host := s.host
    responses := s.responses
    trace := s.trace
    boots := s.boots + 1 }

end Sys2Proof.Machine
end

