-- ==== Sys2Proof/Machine/Operands.lean ====
section
/-! DEFINITION. The operands of the commands: `A`, `B` (R14, R25, R26), `KEY` and `IV` (R21, R22, R68). -/

namespace Sys2Proof.Machine

/-- The first `n` bytes of a buffer. -/
def State.bytes (s : State) (b : Buf) (n : Nat) : List Byte := (List.range n).map (s.byte b)

/-- Operand `A`: `ABUF[0..ALEN)` (R25). -/
def State.operandA (s : State) : List Byte := s.bytes .abuf s.alen.toNat

/-- Operand `B`: `BBUF[0..BLEN)` (R26). -/
def State.operandB (s : State) : List Byte := s.bytes .bbuf s.blen.toNat

/-- The block-mode key: byte 0 is the low byte of KEY0, byte 15 the high byte of KEY3 (R21, R68). -/
def State.key (s : State) : Block := s.key3 ++ s.key2 ++ s.key1 ++ s.key0

/-- The initialization vector, with the same byte mapping (R22, R68). -/
def State.iv (s : State) : Block := s.iv3 ++ s.iv2 ++ s.iv1 ++ s.iv0

end Sys2Proof.Machine
end

