-- ==== Sys2Proof/Machine/Padding.lean ====
section
/-! DEFINITION. The Padding Module: `pad`, `padded`, `unpad` (R120 to R122) and the commands PAD, UNPAD, PADDED (R125 to
R127). -/

namespace Sys2Proof.Machine

/-- `pad(s, bs)` (R120): an aligned sequence unchanged, any other brought to a multiple of `bs` by `p` bytes `p`. -/
def pad (s : List Byte) (bs : Nat) : List Byte :=
  if s.length % bs = 0 then s
  else s ++ List.replicate (bs - s.length % bs) (BitVec.ofNat 8 (bs - s.length % bs))

/-- `padded(s, bs)` (R121): the last byte `b` is not 0, is below `bs` and below the length, and the last `b` bytes are
all `b`. -/
def padded (s : List Byte) (bs : Nat) : Bool :=
  match s.getLast? with
  | none => false
  | some x =>
    decide (x.toNat ≠ 0) && decide (x.toNat < s.length) && decide (x.toNat < bs)
      && (s.drop (s.length - x.toNat)).all (· == x)

/-- `unpad(s, bs)` (R122): valid padding removed, any other sequence unchanged. -/
def unpad (s : List Byte) (bs : Nat) : List Byte :=
  if padded s bs then s.take (s.length - (s.getLast?.getD 0).toNat) else s

/-- The body of PAD (R125). -/
def padBody (c : Params) (bs : Byte) (s : State) : Except CmdError Result :=
  if bs.toNat = 0 then .error .invalidInput
  else if c.bufBytes < (pad s.operandA bs.toNat).length then .error .capacityExceeded
  else .ok (Result.bytes s (pad s.operandA bs.toNat))

/-- The body of UNPAD (R126). -/
def unpadBody (bs : Byte) (s : State) : Except CmdError Result :=
  if bs.toNat = 0 then .error .invalidInput
  else .ok (Result.bytes s (unpad s.operandA bs.toNat))

/-- The body of PADDED (R127). -/
def paddedBody (bs : Byte) (s : State) : Except CmdError Result :=
  if bs.toNat = 0 then .error .invalidInput
  else .ok (Result.scalar s (padded s.operandA bs.toNat).toNat)

/-- PAD (R125) on a machine of parameters `c`. -/
def padCommand (c : Params) (bs : Byte) (s : State) : State :=
  runCommand c 0x01 false (padBody c bs) s

/-- UNPAD (R126) on a machine of parameters `c`. -/
def unpadCommand (c : Params) (bs : Byte) (s : State) : State :=
  runCommand c 0x02 false (unpadBody bs) s

/-- PADDED (R127) on a machine of parameters `c`. -/
def paddedCommand (c : Params) (bs : Byte) (s : State) : State :=
  runCommand c 0x03 false (paddedBody bs) s

/-- The meaning of PAD. -/
def execPad (bs : Byte) (s : State) : Outcome := .next (padCommand Config.params bs s)

/-- The meaning of UNPAD. -/
def execUnpad (bs : Byte) (s : State) : Outcome := .next (unpadCommand Config.params bs s)

/-- The meaning of PADDED. -/
def execPadded (bs : Byte) (s : State) : Outcome := .next (paddedCommand Config.params bs s)

end Sys2Proof.Machine
end

