-- ==== Sys2Proof/Machine/BlockMode.lean ====
section
/-! DEFINITION. The Block-Mode Engine: ECBENC, ECBDEC, CBCENC, CBCDEC (R160 to R174). -/

namespace Sys2Proof.Machine

/-- A message on its way through the engine (R160): the hidden registers `phase`, `blk`, `prev`, the blocks emitted and
the calls made so far. -/
structure Message where
  phase : Phase
  blk : Nat
  prev : Block
  out : List Block
  calls : List PrimCall
  deriving DecidableEq, Repr

/-- What one block of a message yields: the block emitted, the next `prev`, the call made. -/
structure BlockStep where
  out : Block
  prev : Block
  call : PrimCall
  deriving DecidableEq, Repr

/-- No blocks processed (R160). -/
def Message.begin (prev : Block) : Message := ⟨.start, 0, prev, [], []⟩

/-- The loop of R160 over the blocks still to process, of a message of `n` blocks. -/
def Message.run (each : Block → Block → BlockStep) (n : Nat) : List Block → Message → Message
  | [], m => { m with phase := .done }
  | x :: xs, m =>
    Message.run each n xs
      { phase := if m.blk + 1 < n then .body else .finalBlock
        blk := m.blk + 1
        prev := (each m.prev x).prev
        out := m.out ++ [(each m.prev x).out]
        calls := m.calls ++ [(each m.prev x).call] }

/-- One block of ECBENC (R164): one call of `E`; `prev` is not used. -/
def ecbEncBlock (c : Params) (key prev x : Block) : BlockStep :=
  ⟨c.enc x key, prev, ⟨false, x, key⟩⟩

/-- One block of ECBDEC (R165): one call of `D`; `prev` is not used. -/
def ecbDecBlock (c : Params) (key prev x : Block) : BlockStep :=
  ⟨c.dec x key, prev, ⟨true, x, key⟩⟩

/-- One block of CBCENC (R166): `E` of the block XOR `prev`; the ciphertext block becomes `prev`. -/
def cbcEncBlock (c : Params) (key prev x : Block) : BlockStep :=
  ⟨c.enc (x ^^^ prev) key, c.enc (x ^^^ prev) key, ⟨false, x ^^^ prev, key⟩⟩

/-- One block of CBCDEC (R167): `D` of the block, XOR `prev`; the original ciphertext block becomes `prev`. -/
def cbcDecBlock (c : Params) (key prev x : Block) : BlockStep :=
  ⟨c.dec x key ^^^ prev, x, ⟨true, x, key⟩⟩

/-- A whole message (R160): its blocks in ascending order (R170). -/
def runMessage (each : Block → Block → BlockStep) (prev : Block) (blocks : List Block) : Message :=
  Message.run each blocks.length blocks (Message.begin prev)

/-- `strip_final(P)` (R163): padding removed from the last block only; the empty message has none. -/
def stripFinal (p : List Byte) : List Byte :=
  if p.length = 0 then p
  else p.take (16 * (p.length / 16 - 1)) ++ unpad (p.drop (16 * (p.length / 16 - 1))) 16

/-- The plaintext a decrypt command stores (R165, R167): stripped when `rp` is set. -/
def plaintextOut (rp : Bool) (p : List Byte) : List Byte := if rp then stripFinal p else p

/-- The result of a block-mode command whose message is processed, with the bytes it stores (R164 to R167). The hidden
registers are left as the message left them (log 7). -/
def Message.result (m : Message) (s : State) (out : List Byte) : Result :=
  ⟨out, 0, 0, 0, m.calls, { s.scratch with prev := m.prev, phase := m.phase, blk := m.blk }⟩

/-- The message ECBENC processes (R162, R164). -/
def ecbencMessage (c : Params) (s : State) : Message :=
  runMessage (ecbEncBlock c s.key) s.scratch.prev (blocksOf (pad s.operandA 16))

/-- The message ECBDEC processes (R162, R165). -/
def ecbdecMessage (c : Params) (s : State) : Message :=
  runMessage (ecbDecBlock c s.key) s.scratch.prev (blocksOf s.operandA)

/-- The message CBCENC processes, seeded by IV (R162, R166, R169). -/
def cbcencMessage (c : Params) (s : State) : Message :=
  runMessage (cbcEncBlock c s.key) s.iv (blocksOf (pad s.operandA 16))

/-- The message CBCDEC processes, seeded by IV (R162, R167, R169). -/
def cbcdecMessage (c : Params) (s : State) : Message :=
  runMessage (cbcDecBlock c s.key) s.iv (blocksOf s.operandA)

/-- The body of ECBENC (R164), its check as in R161. -/
def ecbencBody (c : Params) (s : State) : Except CmdError Result :=
  if s.klen ≠ 16 then .error .invalidKeyLength
  else .ok ((ecbencMessage c s).result s (bytesOfBlocks (ecbencMessage c s).out))

/-- The body of ECBDEC (R165), its checks in the order of R161. -/
def ecbdecBody (c : Params) (rp : Bool) (s : State) : Except CmdError Result :=
  if s.klen ≠ 16 then .error .invalidKeyLength
  else if s.alen.toNat % 16 ≠ 0 then .error .invalidInput
  else .ok ((ecbdecMessage c s).result s (plaintextOut rp (bytesOfBlocks (ecbdecMessage c s).out)))

/-- The body of CBCENC (R166), its checks in the order of R161. -/
def cbcencBody (c : Params) (s : State) : Except CmdError Result :=
  if s.klen ≠ 16 then .error .invalidKeyLength
  else if s.ivlen ≠ 16 then .error .invalidIvLength
  else .ok ((cbcencMessage c s).result s (bytesOfBlocks (cbcencMessage c s).out))

/-- The body of CBCDEC (R167), its checks in the order of R161. -/
def cbcdecBody (c : Params) (rp : Bool) (s : State) : Except CmdError Result :=
  if s.klen ≠ 16 then .error .invalidKeyLength
  else if s.ivlen ≠ 16 then .error .invalidIvLength
  else if s.alen.toNat % 16 ≠ 0 then .error .invalidInput
  else .ok ((cbcdecMessage c s).result s (plaintextOut rp (bytesOfBlocks (cbcdecMessage c s).out)))

/-- ECBENC (R164) on a machine of parameters `c`. -/
def ecbencCommand (c : Params) (s : State) : State :=
  runCommand c 0x20 false (ecbencBody c) s

/-- ECBDEC (R165) on a machine of parameters `c`. -/
def ecbdecCommand (c : Params) (rp : Bool) (s : State) : State :=
  runCommand c 0x21 false (ecbdecBody c rp) s

/-- CBCENC (R166) on a machine of parameters `c`. -/
def cbcencCommand (c : Params) (s : State) : State :=
  runCommand c 0x22 false (cbcencBody c) s

/-- CBCDEC (R167) on a machine of parameters `c`. -/
def cbcdecCommand (c : Params) (rp : Bool) (s : State) : State :=
  runCommand c 0x23 false (cbcdecBody c rp) s

/-- The meaning of ECBENC. -/
def execEcbenc (s : State) : Outcome := .next (ecbencCommand Config.params s)

/-- The meaning of ECBDEC. -/
def execEcbdec (rp : Bool) (s : State) : Outcome := .next (ecbdecCommand Config.params rp s)

/-- The meaning of CBCENC. -/
def execCbcenc (s : State) : Outcome := .next (cbcencCommand Config.params s)

/-- The meaning of CBCDEC. -/
def execCbcdec (rp : Bool) (s : State) : Outcome := .next (cbcdecCommand Config.params rp s)

end Sys2Proof.Machine
end

