-- ==== Sys2Proof/Machine/Cryptanalysis.lean ====
section
/-! DEFINITION. The Cryptanalysis Engine: HAMMING, KEYSIZE, ENGLISH, SOLVE1 (R190 to R204). -/

namespace Sys2Proof.Machine

/-- `hamming_distance(s, t)` (R190): the differing bits over the common length. -/
def hammingDistance (s t : List Byte) : Nat :=
  (List.zipWith (fun x y => popcount (x ^^^ y)) s t).sum

/-- The seven classes of bytes (R192). -/
inductive ByteClass where
  | reject
  | ws
  | space
  | punct
  | digit
  | upper
  | lower
  deriving DecidableEq, Repr

/-- The class of a byte (R192): the rows of the table that do not reject, then REJECT for every other byte. -/
def classOf (x : Byte) : ByteClass :=
  if 0x09 ≤ x.toNat ∧ x.toNat ≤ 0x0D then .ws
  else if x.toNat = 0x20 then .space
  else if 0x30 ≤ x.toNat ∧ x.toNat ≤ 0x39 then .digit
  else if 0x41 ≤ x.toNat ∧ x.toNat ≤ 0x5A then .upper
  else if 0x61 ≤ x.toNat ∧ x.toNat ≤ 0x7A then .lower
  else if (0x21 ≤ x.toNat ∧ x.toNat ≤ 0x2F) ∨ (0x3A ≤ x.toNat ∧ x.toNat ≤ 0x40)
      ∨ (0x5B ≤ x.toNat ∧ x.toNat ≤ 0x60) ∨ (0x7B ≤ x.toNat ∧ x.toNat ≤ 0x7E) then .punct
  else .reject

/-- The counters after one accepted byte (R193). -/
def Counts.count (n : Counts) : ByteClass → Counts
  | .reject => n
  | .ws => n
  | .space => { n with spaces := n.spaces + 1 }
  | .punct => { n with punct := n.punct + 1 }
  | .digit => { n with digits := n.digits + 1 }
  | .upper => { n with upper := n.upper + 1 }
  | .lower => { n with lower := n.lower + 1 }

/-- The four comparisons of R193, which are fixed (R203). -/
def Counts.accepts (n : Counts) : Bool :=
  decide (n.punct ≤ n.spaces) && decide (n.punct ≤ n.digits + (n.upper + n.lower))
    && decide (n.upper ≤ n.lower) && decide (n.digits ≤ n.upper + n.lower)

/-- The loop of `looks_like_english` (R193) from given counters: the counters it leaves, and its answer. -/
def classify : Counts → List Byte → Counts × Bool
  | n, [] => (n, n.accepts)
  | n, x :: xs =>
    match classOf x with
    | .reject => (n, false)
    | k => classify (n.count k) xs

/-- `looks_like_english(s)` (R193), with the counters zeroed first (R39). -/
def looksLikeEnglish (s : List Byte) : Bool := (classify Counts.zero s).2

/-- The counters an evaluation of `looks_like_english(s)` leaves (R39; log 7). -/
def englishCounts (s : List Byte) : Counts := (classify Counts.zero s).1

/-- One trial of the single-byte XOR solver (R196): every byte XOR the trial key. -/
def trial (s : List Byte) (k : Byte) : List Byte := s.map (· ^^^ k)

/-- `solve_single_byte_xor(s)` (R195): the keys 0 to 255, ascending, whose trial looks like English. -/
def solveSingleByteXor (s : List Byte) : List Byte :=
  ((List.range 256).map (BitVec.ofNat 8)).filter (fun k => looksLikeEnglish (trial s k))

/-- The pairs of `k`-byte chunks sampled for a candidate size (R197). -/
def pairCount (s : List Byte) (k : Nat) : Nat := s.length / (2 * k)

/-- The chunk of `k` bytes from an index (R197). -/
def chunk (s : List Byte) (i k : Nat) : List Byte := (s.drop i).take k

/-- `S_k` (R197): the summed distance of the pairs of adjacent chunks. -/
def pairSum (s : List Byte) (k : Nat) : Nat :=
  ((List.range (pairCount s k)).map
    (fun j => hammingDistance (chunk s (2 * j * k) k) (chunk s (2 * j * k + k) k))).sum

/-- A candidate size with its score (R198): `size`, `S_k` and `k * n_k`. -/
structure Candidate where
  size : Nat
  sum : Nat
  den : Nat
  deriving DecidableEq, Repr

/-- One turn of the loop of KEYSIZE (R200): a size without a pair is skipped (R199); another replaces the best when its
average is strictly lower, compared by integer products (R198). -/
def keysizeTurn (s : List Byte) (best : Option Candidate) (k : Nat) : Option Candidate :=
  if pairCount s k = 0 then best
  else
    match best with
    | none => some ⟨k, pairSum s k, k * pairCount s k⟩
    | some m =>
      if pairSum s k * m.den < m.sum * (k * pairCount s k) then some ⟨k, pairSum s k, k * pairCount s k⟩
      else some m

/-- The sizes `min .. max` in ascending order (R200). -/
def sizes (min max : Nat) : List Nat := (List.range (max + 1 - min)).map (· + min)

/-- `find_candidate_keysize(s, min, max)` (R197 to R200): the best size, or none when no size is sampled. -/
def findKeysize (s : List Byte) (min max : Nat) : Option Candidate :=
  (sizes min max).foldl (keysizeTurn s) none

/-- The body of HAMMING (R191). -/
def hammingBody (s : State) : Except CmdError Result :=
  .ok (Result.scalar s (hammingDistance s.operandA s.operandB))

/-- The body of KEYSIZE (R200). -/
def keysizeBody (min max : Byte) (s : State) : Except CmdError Result :=
  if min.toNat < 2 ∨ max.toNat < min.toNat then .error .invalidInput
  else
    match findKeysize s.operandA min.toNat max.toNat with
    | none => .error .needMoreData
    | some m => .ok { Result.scalar s m.size with res1 := m.sum, res2 := m.den }

/-- The body of ENGLISH (R194). The hidden counters keep what the evaluation counted (log 7). -/
def englishBody (s : State) : Except CmdError Result :=
  .ok { Result.scalar s (looksLikeEnglish s.operandA).toNat with
        scratch := { s.scratch with counts := englishCounts s.operandA } }

/-- The body of SOLVE1 (R196). The hidden counters keep what the last of the 256 trials counted (log 7). -/
def solve1Body (s : State) : Except CmdError Result :=
  .ok { Result.bytes s (solveSingleByteXor s.operandA) with
        res0 := (solveSingleByteXor s.operandA).length
        scratch := { s.scratch with counts := englishCounts (trial s.operandA 255) } }

/-- HAMMING (R191) on a machine of parameters `c`; it reads `B`. -/
def hammingCommand (c : Params) (s : State) : State :=
  runCommand c 0x30 true hammingBody s

/-- KEYSIZE (R200) on a machine of parameters `c`. -/
def keysizeCommand (c : Params) (min max : Byte) (s : State) : State :=
  runCommand c 0x31 false (keysizeBody min max) s

/-- ENGLISH (R194) on a machine of parameters `c`. -/
def englishCommand (c : Params) (s : State) : State :=
  runCommand c 0x32 false englishBody s

/-- SOLVE1 (R196) on a machine of parameters `c`. -/
def solve1Command (c : Params) (s : State) : State :=
  runCommand c 0x33 false solve1Body s

/-- The meaning of HAMMING. -/
def execHamming (s : State) : Outcome := .next (hammingCommand Config.params s)

/-- The meaning of KEYSIZE. -/
def execKeysize (min max : Byte) (s : State) : Outcome := .next (keysizeCommand Config.params min max s)

/-- The meaning of ENGLISH. -/
def execEnglish (s : State) : Outcome := .next (englishCommand Config.params s)

/-- The meaning of SOLVE1. -/
def execSolve1 (s : State) : Outcome := .next (solve1Command Config.params s)

end Sys2Proof.Machine
end

