-- ==== Sys2Proof/Machine/Xor.lean ====
section
/-! DEFINITION. The XOR Primitives: XORKEY, XORROLL, XORCTR (R140 to R147). -/

namespace Sys2Proof.Machine

/-- `xor_with_key(s, k)` (R140): byte `i` of `s` XOR byte `i mod len(k)` of `k`, for a key that is not empty. -/
def xorWithKey (s k : List Byte) : List Byte :=
  s.zipIdx.map (fun p => p.1 ^^^ k.getD (p.2 % k.length) 0)

/-- The bytes of `xor_rolling` after the first (R142): each byte XOR the input byte, or the output byte, before it. -/
def xorRollingFrom (mode : RollMode) : Byte → Byte → List Byte → List Byte
  | _, _, [] => []
  | prevIn, prevOut, x :: xs =>
    let y := x ^^^ (match mode with
      | .inputDifferential => prevIn
      | .outputDifferential => prevOut)
    y :: xorRollingFrom mode x y xs

/-- `xor_rolling(s, mode)` (R142): the first byte unchanged, then `xorRollingFrom`. -/
def xorRolling (mode : RollMode) : List Byte → List Byte
  | [] => []
  | x :: xs => x :: xorRollingFrom mode x x xs

/-- `xor_counter(s, key, inc)` (R144): each byte XOR a key that grows by `inc` modulo 256. -/
def xorCounter (inc : Byte) : Byte → List Byte → List Byte
  | _, [] => []
  | key, x :: xs => (x ^^^ key) :: xorCounter inc (key + inc) xs

/-- The body of XORKEY (R141). -/
def xorkeyBody (s : State) : Except CmdError Result :=
  if s.blen.toNat = 0 then .error .invalidInput
  else .ok (Result.bytes s (xorWithKey s.operandA s.operandB))

/-- The body of XORROLL (R143). -/
def xorrollBody (mode : RollMode) (s : State) : Except CmdError Result :=
  .ok (Result.bytes s (xorRolling mode s.operandA))

/-- The body of XORCTR (R145). -/
def xorctrBody (start inc : Byte) (s : State) : Except CmdError Result :=
  .ok (Result.bytes s (xorCounter inc start s.operandA))

/-- XORKEY (R141) on a machine of parameters `c`; it reads `B`. -/
def xorkeyCommand (c : Params) (s : State) : State :=
  runCommand c 0x10 true xorkeyBody s

/-- XORROLL (R143) on a machine of parameters `c`. -/
def xorrollCommand (c : Params) (mode : RollMode) (s : State) : State :=
  runCommand c 0x11 false (xorrollBody mode) s

/-- XORCTR (R145) on a machine of parameters `c`. -/
def xorctrCommand (c : Params) (start inc : Byte) (s : State) : State :=
  runCommand c 0x12 false (xorctrBody start inc) s

/-- The meaning of XORKEY. -/
def execXorkey (s : State) : Outcome := .next (xorkeyCommand Config.params s)

/-- The meaning of XORROLL. -/
def execXorroll (mode : RollMode) (s : State) : Outcome := .next (xorrollCommand Config.params mode s)

/-- The meaning of XORCTR. -/
def execXorctr (start inc : Byte) (s : State) : Outcome := .next (xorctrCommand Config.params start inc s)

end Sys2Proof.Machine
end

