-- ==== Sys2Proof/Machine/Dispatch.lean ====
section
/-! DEFINITION. One arm per command (R97). -/

namespace Sys2Proof.Machine

def exec (i : Instr) (s : State) : Host.Outcome State Fault Refusal :=
  match i with
  | .pad bs => Sys2Proof.Machine.execPad bs s
  | .unpad bs => Sys2Proof.Machine.execUnpad bs s
  | .padded bs => Sys2Proof.Machine.execPadded bs s
  | .xorkey => Sys2Proof.Machine.execXorkey s
  | .xorroll mode => Sys2Proof.Machine.execXorroll mode s
  | .xorctr start inc => Sys2Proof.Machine.execXorctr start inc s
  | .ecbenc => Sys2Proof.Machine.execEcbenc s
  | .ecbdec rp => Sys2Proof.Machine.execEcbdec rp s
  | .cbcenc => Sys2Proof.Machine.execCbcenc s
  | .cbcdec rp => Sys2Proof.Machine.execCbcdec rp s
  | .hamming => Sys2Proof.Machine.execHamming s
  | .keysize min max => Sys2Proof.Machine.execKeysize min max s
  | .english => Sys2Proof.Machine.execEnglish s
  | .solve1 => Sys2Proof.Machine.execSolve1 s

end Sys2Proof.Machine
end

