-- ==== Sys2Proof/Machine/Bus.lean ====
section
/-! DEFINITION. The host bus: the address map (R63), register and window accesses (R64 to R67), the command frame of a
CMD write (R103), transactions (R62, R69, R70) and resets (R260, R262). -/

namespace Sys2Proof.Machine

/-- The registers of the address map (R63). -/
inductive Reg where
  | cmd
  | status
  | alen
  | blen
  | olen
  | klen
  | ivlen
  | res0
  | res1
  | res2
  | key0
  | key1
  | key2
  | key3
  | iv0
  | iv1
  | iv2
  | iv3
  deriving DecidableEq, Repr

/-- What a mapped word offset names: a register, or the word of a buffer window whose first byte has the index given
(R63, R66). -/
inductive Loc where
  | reg (r : Reg)
  | window (buffer : Buf) (index : Nat)
  deriving DecidableEq, Repr

/-- The registers' offsets (R63). -/
def regMap : List (Nat × Reg) :=
  [(0x00000, .cmd), (0x00004, .status), (0x00008, .alen), (0x0000C, .blen), (0x00010, .olen), (0x00014, .klen),
   (0x00018, .ivlen), (0x00020, .res0), (0x00024, .res1), (0x00028, .res2), (0x00040, .key0), (0x00044, .key1),
   (0x00048, .key2), (0x0004C, .key3), (0x00050, .iv0), (0x00054, .iv1), (0x00058, .iv2), (0x0005C, .iv3)]

/-- The window an offset lies in, with the index of its byte, for buffers of `cap` bytes (R63). -/
def windowAt (cap a : Nat) : Option Loc :=
  if 0x30000 ≤ a then (if a - 0x30000 < cap then some (.window .obuf (a - 0x30000)) else none)
  else if 0x20000 ≤ a then (if a - 0x20000 < cap then some (.window .bbuf (a - 0x20000)) else none)
  else if 0x10000 ≤ a then (if a - 0x10000 < cap then some (.window .abuf (a - 0x10000)) else none)
  else none

/-- The location an aligned offset names, if it is mapped (R63, R69). -/
def locate (cap a : Nat) : Option Loc :=
  match regMap.lookup a with
  | some r => some (.reg r)
  | none => windowAt cap a

/-- The location a legal transaction accesses: aligned, all byte enables set, mapped (R62); none for an illegal one. -/
def target (cap : Nat) (addr : Address) (be : BitVec 4) : Option Loc :=
  if addr.toNat % 4 = 0 ∧ be = 0xF then locate cap addr.toNat else none

/-- What a read of a register returns (R64); CMD reads 0 (R27). -/
def readReg (r : Reg) (s : State) : Word :=
  match r with
  | .cmd => 0
  | .status => s.status
  | .alen => s.alen
  | .blen => s.blen
  | .olen => s.olen
  | .klen => s.klen
  | .ivlen => s.ivlen
  | .res0 => s.res0
  | .res1 => s.res1
  | .res2 => s.res2
  | .key0 => s.key0
  | .key1 => s.key1
  | .key2 => s.key2
  | .key3 => s.key3
  | .iv0 => s.iv0
  | .iv1 => s.iv1
  | .iv2 => s.iv2
  | .iv3 => s.iv3

/-- A write to a register other than CMD (R65): an RW register takes all 32 bits, an RO one ignores them. CMD holds
nothing (R27); its write is `execCommand`. -/
def writeReg (r : Reg) (v : Word) (s : State) : State :=
  match r with
  | .cmd => s
  | .status => s
  | .alen => { s with alen := v }
  | .blen => { s with blen := v }
  | .olen => s
  | .klen => { s with klen := v }
  | .ivlen => { s with ivlen := v }
  | .res0 => s
  | .res1 => s
  | .res2 => s
  | .key0 => { s with key0 := v }
  | .key1 => { s with key1 := v }
  | .key2 => { s with key2 := v }
  | .key3 => { s with key3 := v }
  | .iv0 => { s with iv0 := v }
  | .iv1 => { s with iv1 := v }
  | .iv2 => { s with iv2 := v }
  | .iv3 => { s with iv3 := v }

/-- A read of the word of a buffer whose first byte has the index given (R66). -/
def readWindow (buffer : Buf) (index : Nat) (s : State) : Word :=
  wordOfBytes [s.byte buffer index, s.byte buffer (index + 1), s.byte buffer (index + 2), s.byte buffer (index + 3)]

/-- A write of the word of a buffer whose first byte has the index given (R66, R67); OBUF ignores it (R35, R65). -/
def writeWindow (buffer : Buf) (index : Nat) (v : Word) (s : State) : State :=
  match buffer with
  | .abuf => { s with abuf := s.abuf.writeBytes index (bytesOfWord v) }
  | .bbuf => { s with bbuf := s.bbuf.writeBytes index (bytesOfWord v) }
  | .obuf => s

/-- A legal read (R64). -/
def readLoc (l : Loc) (s : State) : Word :=
  match l with
  | .reg r => readReg r s
  | .window buffer index => readWindow buffer index s

/-- A legal write of a location other than CMD (R65). -/
def writeLoc (l : Loc) (v : Word) (s : State) : State :=
  match l with
  | .reg r => writeReg r v s
  | .window buffer index => writeWindow buffer index v s

/-- `ExecCommand(w)` (R103): step 1 decodes, an illegal word raising IllegalCommand (R99); the rest is the command's
meaning. -/
def execCommand (w : Word) (s : State) : Outcome :=
  match decode w with
  | .ok i => exec i s
  | .error _ => .next (raise .illegalCommand (opField w) s)

/-- The completion of an illegal transaction (R62, R70): `h_err = 1` and read data 0. -/
def busError : Response := ⟨true, some 0⟩

/-- The completion of a legal read (R64). -/
def readDone (v : Word) : Response := ⟨false, some v⟩

/-- The completion of a legal write (R65, R103): `h_err = 0`, whether a command succeeded or raised (log 10). -/
def writeDone : Response := ⟨false, none⟩

/-- The result of a command with the completion of its CMD write (R103). -/
def answer (r : Response) : Outcome → Outcome
  | .next t => .next (t.respond r)
  | .fault f => .fault f
  | .refused q => .refused q

/-- One bus transaction (R9, R62 to R71). -/
def transact (t : Transaction) (s : State) : Outcome :=
  match t with
  | .read addr be =>
    match target Config.params.bufBytes addr be with
    | none => .next (s.respond busError)
    | some l => .next (s.respond (readDone (readLoc l s)))
  | .write addr be v =>
    match target Config.params.bufBytes addr be with
    | none => .next (s.respond busError)
    | some (.reg .cmd) => answer writeDone (execCommand v s)
    | some l => .next ((writeLoc l v s).respond writeDone)

/-- The calls a command makes on the primitive port (R78). -/
def callsOf (w : Word) (s : State) : List PrimCall :=
  match execCommand w s with
  | .next t => t.trace.drop s.trace.length
  | .fault _ => []
  | .refused _ => []

/-- `rst` while the command `w` runs (R262): the command is abandoned after some prefix of its calls, its CMD write never
completes, and the state is that after reset. -/
def resetDuring (w : Word) (s : State) : State :=
  resetEvent { s with trace := s.trace ++ (callsOf w s).take (Config.callsBeforeReset s.boots) }

/-- What one event of the outside world does. -/
def hostEvent (e : HostEvent) (s : State) : Outcome :=
  match e with
  | .transaction t => transact t s
  | .rst => .next (resetEvent s)
  | .rstDuring w => .next (resetDuring w s)

end Sys2Proof.Machine
end

