-- ==== Sys2Proof/Machine/Step.lean ====
section
/-! DEFINITION. The step of the machine: the next thing the outside world presents (R9; log 1). -/

namespace Sys2Proof.Machine

/-- One step (R9): the next bus transaction, with the whole command of a CMD write inside it, or the next reset. With
nothing presented nothing changes: "the engine never changes state between host transactions" (log 1). -/
def step (s : State) : Host.Outcome State Fault Refusal :=
  match s.host with
  | [] => .next s
  | e :: rest => hostEvent e { s with host := rest }

/-- The state in which the very next step runs the command word `w` of `nbits` bits: the host presents the write of it
to CMD before anything else. HBCE fetches no instruction (R36): a command is delivered by the write (log 1). -/
def State.withFetchWord (s : State) (nbits w : Nat) : State :=
  { s with host := .transaction (.write 0 0xF (BitVec.ofNat 32 (w % 2 ^ nbits))) :: s.host }

end Sys2Proof.Machine
end

