-- ==== Sys2Proof/Machine/Script.lean ====
section
/-! DEFINITION. Host scripts (R106): the lines a host program is written in, and the bus transactions each stands for. -/

namespace Sys2Proof.Machine

/-- A line of a host script (R106). `readO` is given the length that the script's own `bytes` shows (log 13). -/
inductive ScriptLine where
  | wr (addr : Address) (v : Word)
  | rd (addr : Address)
  | cmd (line : AsmLine)
  | loadA (bytes : List Byte)
  | loadB (bytes : List Byte)
  | loadKey (bytes : List Byte)
  | loadIv (bytes : List Byte)
  | readO (n : Nat)
  deriving DecidableEq, Repr

/-- A legal write (R62). -/
def wrAt (addr : Nat) (v : Word) : Transaction := .write (BitVec.ofNat 18 addr) 0xF v

/-- A legal read (R62). -/
def rdAt (addr : Nat) : Transaction := .read (BitVec.ofNat 18 addr) 0xF

/-- Word `w` of a byte sequence packed little-endian, with missing tail bytes taken as 00 (R66, R106). -/
def packedWord (bytes : List Byte) (w : Nat) : Word := wordOfBytes ((bytes.drop (4 * w)).take 4)

/-- Writes of the first `n` packed words of a byte sequence from an offset up (R106). -/
def wrPacked (offset n : Nat) (bytes : List Byte) : List Transaction :=
  (List.range n).map (fun w => wrAt (offset + 4 * w) (packedWord bytes w))

/-- `LOAD A` and `LOAD B` (R106): the packed words into the window, then the length register. -/
def loadBuffer (offset lengthOffset : Nat) (bytes : List Byte) : List Transaction :=
  wrPacked offset ((bytes.length + 3) / 4) bytes ++ [wrAt lengthOffset (BitVec.ofNat 32 bytes.length)]

/-- The transactions of a script line (R106); none for a line that R106 does not admit: an ill-formed command, or a key
or IV that is not 16 bytes. -/
def ScriptLine.expand : ScriptLine → Option (List Transaction)
  | .wr addr v => some [.write addr 0xF v]
  | .rd addr => some [.read addr 0xF]
  | .cmd line => line.assemble.map (fun i => [wrAt 0x00000 (encode i)])
  | .loadA bytes => some (loadBuffer 0x10000 0x00008 bytes)
  | .loadB bytes => some (loadBuffer 0x20000 0x0000C bytes)
  | .loadKey bytes =>
    if bytes.length = 16 then some (wrPacked 0x00040 4 bytes ++ [wrAt 0x00014 16]) else none
  | .loadIv bytes =>
    if bytes.length = 16 then some (wrPacked 0x00050 4 bytes ++ [wrAt 0x00018 16]) else none
  | .readO n => some (rdAt 0x00010 :: (List.range ((n + 3) / 4)).map (fun w => rdAt (0x30000 + 4 * w)))

end Sys2Proof.Machine
end

