-- ==== Sys2Proof/Safety.lean ====
section
/-! DEFINITION. The terms claims are stated in: what a command keeps, the two ends of a command, the parts of the
spec's own definitions that a claim compares the model with, and the invariant of the machine. -/

namespace Sys2Proof.Machine

/-- No operand register and no byte of ABUF or BBUF has changed (R42). -/
def KeepsOperands (s t : State) : Prop :=
  t.key0 = s.key0 ∧ t.key1 = s.key1 ∧ t.key2 = s.key2 ∧ t.key3 = s.key3
    ∧ t.iv0 = s.iv0 ∧ t.iv1 = s.iv1 ∧ t.iv2 = s.iv2 ∧ t.iv3 = s.iv3
    ∧ t.klen = s.klen ∧ t.ivlen = s.ivlen ∧ t.alen = s.alen ∧ t.blen = s.blen
    ∧ (∀ i, t.byte .abuf i = s.byte .abuf i) ∧ (∀ i, t.byte .bbuf i = s.byte .bbuf i)

/-- No status or result register has changed. -/
def KeepsResults (s t : State) : Prop :=
  t.status = s.status ∧ t.olen = s.olen ∧ t.res0 = s.res0 ∧ t.res1 = s.res1 ∧ t.res2 = s.res2

/-- The model's own fields outside HBCE have not changed: what is still to be presented, what has been answered, which
reset is in force. -/
def KeepsWorld (s t : State) : Prop :=
  t.host = s.host ∧ t.responses = s.responses ∧ t.boots = s.boots

/-- The bytes of OBUF from index `n` up have not changed (R35). -/
def KeepsOutputFrom (n : Nat) (s t : State) : Prop :=
  ∀ i, n ≤ i → t.byte .obuf i = s.byte .obuf i

/-- The end of a successful command of opcode `op` that outputs `n` bytes, with its frame (R104, R42, R35): STATUS is
DONE with LASTOP `op`, OLEN is `n`, and nothing changes but the results, the first `n` bytes of OBUF, the trace and the
hidden registers. -/
def Completes (op n : Nat) (s t : State) : Prop :=
  t.status.toNat = 1 + 256 * op ∧ t.olen.toNat = n
    ∧ KeepsOperands s t ∧ KeepsWorld s t ∧ KeepsOutputFrom n s t

/-- RES0, RES1, RES2, as the numbers they hold. -/
def Scalars (t : State) (r0 r1 r2 : Nat) : Prop :=
  t.res0.toNat = r0 ∧ t.res1.toNat = r1 ∧ t.res2.toNat = r2

/-- A command that makes no call on the primitive port (R78). -/
def MakesNoCall (s t : State) : Prop := t.trace = s.trace

/-- The whole effect of error entry (R239) for ERRCODE `code` in a command of opcode byte `op`. -/
def errorState (code op : Nat) (s : State) : State :=
  { s with
    status := BitVec.ofNat 32 (3 + 16 * code + 256 * op)
    olen := 0
    res0 := 0
    res1 := 0
    res2 := 0 }

/-- The commands that read operand `B` (R26). -/
def ReadsB (i : Instr) : Prop := i = .xorkey ∨ i = .hamming

/-- The condition of R121 on the first `n` bytes that `get` gives, for the block size `bs`. -/
def EndsInPadding (get : Nat → Byte) (n bs : Nat) : Prop :=
  n ≠ 0 ∧ (get (n - 1)).toNat ≠ 0 ∧ (get (n - 1)).toNat < n ∧ (get (n - 1)).toNat < bs
    ∧ ∀ i, n - (get (n - 1)).toNat ≤ i → i < n → get i = get (n - 1)

/-- Block `j` of the bytes that `get` gives (R162), with byte `i` in bits `8i+7 : 8i` (R77). -/
def blockAt (get : Nat → Byte) (j : Nat) : Block :=
  blockOfBytes ((List.range 16).map (fun i => get (16 * j + i)))

/-- Byte `i` of a block (R77). -/
def blockByte (x : Block) (i : Nat) : Byte := x.extractLsb' (8 * i) 8

/-- Byte `i` of the plaintext padded to a multiple of 16 (R120, R162). -/
def paddedByte (s : State) (i : Nat) : Byte :=
  if i < s.alen.toNat then s.byte .abuf i else BitVec.ofNat 8 (16 - s.alen.toNat % 16)

/-- The number of blocks of the padded plaintext, `ceil(ALEN/16)` (R160). -/
def paddedBlocks (s : State) : Nat := (s.alen.toNat + 15) / 16

/-- Byte `i` of the plaintext that ECBDEC recovers (R165). -/
def ecbPlainByte (s : State) (i : Nat) : Byte :=
  blockByte (Config.D (blockAt (s.byte .abuf) (i / 16)) s.key) (i % 16)

/-- What CBC XORs with block `j` of the sequence that `get` gives as ciphertext: IV, then the block before (R166, R167). -/
def cbcPrev (s : State) (get : Nat → Byte) (j : Nat) : Block :=
  if j = 0 then s.iv else blockAt get (j - 1)

/-- Byte `i` of the plaintext that CBCDEC recovers (R167). -/
def cbcPlainByte (s : State) (i : Nat) : Byte :=
  blockByte (Config.D (blockAt (s.byte .abuf) (i / 16)) s.key ^^^ cbcPrev s (s.byte .abuf) (i / 16)) (i % 16)

/-- The length `m` that is left of `n` bytes when valid padding at their end is removed (R122). -/
def StrippedLength (get : Nat → Byte) (n bs m : Nat) : Prop :=
  (EndsInPadding get n bs ∧ m = n - (get (n - 1)).toNat) ∨ (¬ EndsInPadding get n bs ∧ m = n)

/-- The length `m` of what a decrypt command outputs of a plaintext of `n` bytes (R163, R165, R167). -/
def PlainLength (rp : Bool) (get : Nat → Byte) (n m : Nat) : Prop :=
  if rp then StrippedLength get n 16 m else m = n

/-- The number of bits in which two bytes differ (R13, R190). -/
def bitDistance (x y : Byte) : Nat := ((Finset.range 8).filter (fun k => x.getLsbD k ≠ y.getLsbD k)).card

/-- A byte value in a range of the class table (R192). -/
def inRange (lo hi : Nat) (x : Byte) : Bool := decide (lo ≤ x.toNat) && decide (x.toNat ≤ hi)

/-- The row REJECT of R192. -/
def isReject (x : Byte) : Bool := inRange 0x00 0x08 x || inRange 0x0E 0x1F x || inRange 0x7F 0xFF x

/-- The row PUNCT of R192. -/
def isPunct (x : Byte) : Bool :=
  inRange 0x21 0x2F x || inRange 0x3A 0x40 x || inRange 0x5B 0x60 x || inRange 0x7B 0x7E x

/-- How many of the first `n` bytes that `get` gives satisfy `p`. -/
def countBytes (get : Nat → Byte) (n : Nat) (p : Byte → Bool) : Nat :=
  ((Finset.range n).filter (fun i => p (get i) = true)).card

/-- `looks_like_english` (R193) of the first `n` bytes that `get` gives, by the class table of R192. -/
def EnglishLike (get : Nat → Byte) (n : Nat) : Prop :=
  (∀ i, i < n → isReject (get i) = false)
    ∧ countBytes get n isPunct ≤ countBytes get n (inRange 0x20 0x20)
    ∧ countBytes get n isPunct
        ≤ countBytes get n (inRange 0x30 0x39)
          + (countBytes get n (inRange 0x41 0x5A) + countBytes get n (inRange 0x61 0x7A))
    ∧ countBytes get n (inRange 0x41 0x5A) ≤ countBytes get n (inRange 0x61 0x7A)
    ∧ countBytes get n (inRange 0x30 0x39)
        ≤ countBytes get n (inRange 0x41 0x5A) + countBytes get n (inRange 0x61 0x7A)

/-- `S_k` of R197 for operand A: over the pairs `j` and the bytes `i` of a chunk, the differing bits. -/
def sampledDistance (s : State) (k : Nat) : Nat :=
  ∑ j ∈ Finset.range (s.alen.toNat / (2 * k)),
    ∑ i ∈ Finset.range k, bitDistance (s.byte .abuf (2 * j * k + i)) (s.byte .abuf (2 * j * k + k + i))

/-- `k * n_k` of R198 for operand A. -/
def sampledDen (s : State) (k : Nat) : Nat := k * (s.alen.toNat / (2 * k))

/-- The offsets that R63 maps, for buffers of `cap` bytes. -/
def Mapped (cap a : Nat) : Prop :=
  a ∈ [0x00000, 0x00004, 0x00008, 0x0000C, 0x00010, 0x00014, 0x00018, 0x00020, 0x00024, 0x00028,
      0x00040, 0x00044, 0x00048, 0x0004C, 0x00050, 0x00054, 0x00058, 0x0005C]
    ∨ (0x10000 ≤ a ∧ a < 0x10000 + cap) ∨ (0x20000 ≤ a ∧ a < 0x20000 + cap) ∨ (0x30000 ≤ a ∧ a < 0x30000 + cap)

/-- A legal transaction (R62), for buffers of `cap` bytes. -/
def Legal (cap : Nat) (addr : Address) (be : BitVec 4) : Prop :=
  addr.toNat % 4 = 0 ∧ be = 0xF ∧ Mapped cap addr.toNat

/-- What a legal read of each register offset returns (R63, R64); CMD reads 0. -/
def registerValues (s : State) : List (Nat × Word) :=
  [(0x00000, 0), (0x00004, s.status), (0x00008, s.alen), (0x0000C, s.blen), (0x00010, s.olen), (0x00014, s.klen),
   (0x00018, s.ivlen), (0x00020, s.res0), (0x00024, s.res1), (0x00028, s.res2),
   (0x00040, s.key0), (0x00044, s.key1), (0x00048, s.key2), (0x0004C, s.key3),
   (0x00050, s.iv0), (0x00054, s.iv1), (0x00058, s.iv2), (0x0005C, s.iv3)]

/-- The state after `v` is written to each register offset but CMD (R63, R65): an RW register takes `v`, an RO register
ignores it. -/
def registerWrites (s : State) (v : Word) : List (Nat × State) :=
  [(0x00008, { s with alen := v }), (0x0000C, { s with blen := v }), (0x00014, { s with klen := v }),
   (0x00018, { s with ivlen := v }),
   (0x00040, { s with key0 := v }), (0x00044, { s with key1 := v }), (0x00048, { s with key2 := v }),
   (0x0004C, { s with key3 := v }),
   (0x00050, { s with iv0 := v }), (0x00054, { s with iv1 := v }), (0x00058, { s with iv2 := v }),
   (0x0005C, { s with iv3 := v }),
   (0x00004, s), (0x00010, s), (0x00020, s), (0x00024, s), (0x00028, s)]

/-- A word of a buffer as four bytes give it (R66). -/
def littleEndianWord (x0 x1 x2 x3 : Byte) : Word :=
  BitVec.ofNat 32 (x0.toNat + 2 ^ 8 * x1.toNat + 2 ^ 16 * x2.toNat + 2 ^ 24 * x3.toNat)

/-- The state once the outside world's next event has been taken. -/
def State.taking (s : State) (rest : List HostEvent) : State := { s with host := rest }

/-- The state once that event has been answered too. -/
def State.answered (s : State) (rest : List HostEvent) (r : Response) : State :=
  { s with host := rest, responses := s.responses ++ [r] }

/-- The host's copy of a command's output into the input of the next (R266): the bytes of OBUF written into ABUF, and
OLEN into ALEN. -/
def outputAsInput (s : State) : State := { s with alen := s.olen, abuf := s.obuf }

/-- The output of the last command: `OBUF[0..OLEN)` (R29). -/
def State.output (s : State) : List Byte := s.bytes .obuf s.olen.toNat

/-- The machine is in `t` after `n` steps from `s`. -/
def StepsTo : Nat → State → State → Prop
  | 0, s, t => t = s
  | n + 1, s, t => ∃ u, step s = .next u ∧ StepsTo n u t

/-- The state in which the outside world presents the transactions of a host script's line next (R106). -/
def State.presenting (s : State) (ts : List Transaction) : State :=
  { s with host := ts.map HostEvent.transaction ++ s.host }

/-- Two states with the same operands (R46): registers, and the bytes of ABUF and BBUF that the lengths declare. -/
def SameOperands (s t : State) : Prop :=
  t.key0 = s.key0 ∧ t.key1 = s.key1 ∧ t.key2 = s.key2 ∧ t.key3 = s.key3
    ∧ t.iv0 = s.iv0 ∧ t.iv1 = s.iv1 ∧ t.iv2 = s.iv2 ∧ t.iv3 = s.iv3
    ∧ t.klen = s.klen ∧ t.ivlen = s.ivlen ∧ t.alen = s.alen ∧ t.blen = s.blen
    ∧ (∀ i, i < s.alen.toNat → t.byte .abuf i = s.byte .abuf i)
    ∧ (∀ i, i < s.blen.toNat → t.byte .bbuf i = s.byte .bbuf i)

/-- The same results of a command (R42, R46): STATUS, OLEN, RES0 to RES2 and `OBUF[0..OLEN)`. -/
def SameResults (s t : State) : Prop :=
  t.status = s.status ∧ t.olen = s.olen ∧ t.res0 = s.res0 ∧ t.res1 = s.res1 ∧ t.res2 = s.res2
    ∧ ∀ i, i < s.olen.toNat → t.byte .obuf i = s.byte .obuf i

/-- The invariant of the machine: what R28, R230 and R239 say of STATUS and the results after any command, R29 of OLEN,
R31 and R32 of RES1 and RES2, R33 to R35 of the buffers' extent, and the canonical form of the memories (log 6). -/
structure State.Inv (s : State) : Prop where
  reserved_zero : statusReserved s.status = 0
  no_code_without_error : statusErrFlag s.status = false → statusErrCode s.status = 0
  error_has_code : statusErrFlag s.status = true → statusErrCode s.status ≠ 0 ∧ statusErrCode s.status ≠ 7
  error_done : statusErrFlag s.status = true → statusDone s.status = true
  error_empty : statusErrFlag s.status = true → s.olen = 0 ∧ s.res0 = 0 ∧ s.res1 = 0 ∧ s.res2 = 0
  fresh_zero : statusDone s.status = false →
    s.status = 0 ∧ s.olen = 0 ∧ s.res0 = 0 ∧ s.res1 = 0 ∧ s.res2 = 0
  output_fits : s.olen.toNat ≤ Config.bufBytes
  score_only_keysize : statusLastOp s.status ≠ 0x31 → s.res1 = 0 ∧ s.res2 = 0
  abuf_wf : s.abuf.wf = true
  bbuf_wf : s.bbuf.wf = true
  obuf_wf : s.obuf.wf = true
  abuf_below : s.abuf.below Config.bufBytes = true
  bbuf_below : s.bbuf.below Config.bufBytes = true
  obuf_below : s.obuf.below Config.bufBytes = true

end Sys2Proof.Machine
end

