-- ==== Sys2Proof/Certificates/Slice0/Obligations.lean ====
section
/-! DEFINITION. The statements about HBCE. `Config.bufBytes`, `Config.E`, `Config.D` are the parameters of R5 and R6:
every statement holds whatever they are. `errorState code op s` is the whole effect of error entry (R239). -/

open Sys2Proof Sys2Proof.Machine

/-! ## Command words -/

/-- R91, R97, R98, R101: decoding the word of a command gives the command back, for every value of every field. -/
def Obligations.DecodeInvertsEncode : Prop :=
  ∀ i : Instr, decode (encode i) = .ok i

/-- R98: a word that decodes to a command is that command's word: no bit of a legal word is ignored. -/
def Obligations.LegalWordIsItsEncoding : Prop :=
  ∀ (w : Word) (i : Instr), decode w = .ok i → encode i = w

/-- R98, whole: at most one row is selected; a selected row gives its command with the fields at their places; a word
is illegal exactly when its opcode is none of the 14 or a bit outside the fields of its opcode's format is 1. -/
def Obligations.DecodeFollowsOpcodeTable : Prop :=
  ∀ w : Word,
    (∀ r ∈ opcodeTable, ∀ q ∈ opcodeTable, r.selects w = true → q.selects w = true → r = q)
    ∧ (∀ r ∈ opcodeTable, r.selects w = true →
        decode w = .ok (r.build (w.getLsbD 8) (w.extractLsb' 16 8) (w.extractLsb' 24 8)))
    ∧ ((∃ e, decode w = .error e) ↔
        ∀ r ∈ opcodeTable, r.op = w.extractLsb' 0 8 →
          (w.extractLsb' 9 7 ≠ 0 ∨ (r.format ≠ .F ∧ w.getLsbD 8 = true)
            ∨ (r.format ≠ .A ∧ r.format ≠ .AB ∧ w.extractLsb' 16 8 ≠ 0)
            ∨ (r.format ≠ .AB ∧ w.extractLsb' 24 8 ≠ 0)))

/-- R97: words written out from the encodings of the table decode to their commands, one word of every row. -/
def Obligations.WordsOfOpcodeTableDecode : Prop :=
  [0x00100001, 0x00FF0002, 0x00000003, 0x00000010, 0x00000111, 0xFF010012, 0x00000020, 0x00000021, 0x00000022,
    0x00000123, 0x00000030, 0x28020031, 0x00000032, 0x00000033].map (decodeTableWord 32)
  = [some (.pad 16), some (.unpad 255), some (.padded 0), some .xorkey, some (.xorroll .outputDifferential),
    some (.xorctr 1 255), some .ecbenc, some (.ecbdec false), some .cbcenc, some (.cbcdec true), some .hamming,
    some (.keysize 2 40), some .english, some .solve1]

/-- R101: "The encoding of a line is op + 2^8 * f + 2^16 * a + 2^24 * b"; `XORCTR`'s second operand, from -128 to 255,
is encoded as its value mod 256. -/
def Obligations.EncodingIsSumOfFields : Prop :=
  (∀ i : Instr, (encode i).toNat
    = i.opcode.toNat + 2 ^ 8 * i.flag.toNat + 2 ^ 16 * i.immA.toNat + 2 ^ 24 * i.immB.toNat)
  ∧ ∀ (x : Nat) (n : Int), x < 256 → -128 ≤ n → n ≤ 255 →
      ∃ i, (AsmLine.xorctr (some x) (some n)).assemble = some i
        ∧ (encode i).toNat = 0x12 + 2 ^ 16 * x + 2 ^ 24 * (n % 256).toNat

/-- R102: the defaults of operands left out, the rows of the table. -/
def Obligations.AssemblerDefaultsExpand : Prop :=
  (AsmLine.pad none).assemble.map encode = some 0x00100001
  ∧ (AsmLine.unpad none).assemble.map encode = some 0x00100002
  ∧ (AsmLine.padded none).assemble.map encode = some 0x00100003
  ∧ (AsmLine.xorctr none none).assemble.map encode = some 0x01000012
  ∧ (∀ x : Byte, (AsmLine.xorctr (some x.toNat) none).assemble.map encode
      = some (BitVec.ofNat 32 (0x01000012 + 2 ^ 16 * x.toNat)))
  ∧ (AsmLine.ecbdec none).assemble.map encode = some 0x00000121
  ∧ (AsmLine.cbcdec none).assemble.map encode = some 0x00000123
  ∧ (AsmLine.keysize none).assemble.map encode = some 0x28020031

/-! ## The functions the commands are made of -/

/-- R120: the length and the bytes of `pad(s, bs)`. -/
def Obligations.PadAppendsPaddingBytes : Prop :=
  ∀ (s : List Byte) (bs : Nat), 1 ≤ bs → bs ≤ 255 →
    (s.length % bs = 0 → pad s bs = s)
    ∧ (s.length % bs ≠ 0 → ∃ p, p = bs - s.length % bs ∧ 1 ≤ p ∧ p ≤ bs - 1
        ∧ pad s bs = s ++ List.replicate p (BitVec.ofNat 8 p) ∧ s.length < (pad s bs).length)
    ∧ (pad s bs).length % bs = 0

/-- R121: `padded` holds of exactly the sequences whose last byte `b` satisfies `1 <= b < bs`, whose length exceeds `b`
and whose final `b` bytes are all `b`; of the empty sequence it does not. -/
def Obligations.PaddedIsValidPadding : Prop :=
  ∀ (s : List Byte) (bs : Nat), 1 ≤ bs → bs ≤ 255 →
    (padded s bs = true ↔
      ∃ b : Byte, s.getLast? = some b ∧ 1 ≤ b.toNat ∧ b.toNat < bs ∧ b.toNat < s.length
        ∧ ∀ i, s.length - b.toNat ≤ i → i < s.length → s[i]? = some b)

/-- R122: `unpad` leaves a sequence without valid padding and otherwise removes as many bytes as the last byte says,
between 1 and `bs - 1` of them, leaving at least one (these bounds the spec marks as its own inference in R122). -/
def Obligations.UnpadRemovesValidPadding : Prop :=
  ∀ (s : List Byte) (bs : Nat), 1 ≤ bs → bs ≤ 255 →
    (padded s bs = false → unpad s bs = s)
    ∧ (padded s bs = true → ∃ b : Byte, s.getLast? = some b ∧ unpad s bs = s.take (s.length - b.toNat)
        ∧ 1 ≤ b.toNat ∧ b.toNat ≤ bs - 1 ∧ 1 ≤ (unpad s bs).length)

/-- R128 (b), (c), (d), which the spec marks as its own inference from R120 to R122: unpadding undoes padding exactly when the sequence is unaligned or does not end in valid
padding; padding twice is padding once. -/
def Obligations.UnpadUndoesPadExactly : Prop :=
  ∀ (s : List Byte) (bs : Nat), 1 ≤ bs → bs ≤ 255 →
    (unpad (pad s bs) bs = s ↔ (s.length % bs ≠ 0 ∨ padded s bs = false))
    ∧ (s.length % bs ≠ 0 → padded (pad s bs) bs = true)
    ∧ pad (pad s bs) bs = pad s bs

/-- R140: the bytes of `xor_with_key`, and that the same key undoes it (the last the spec's own inference in R140). -/
def Obligations.XorWithKeyBytes : Prop :=
  ∀ (s k : List Byte), k ≠ [] →
    (xorWithKey s k).length = s.length
    ∧ (∀ i x y, s[i]? = some x → k[i % k.length]? = some y → (xorWithKey s k)[i]? = some (x ^^^ y))
    ∧ xorWithKey (xorWithKey s k) k = s

/-- R142: the recurrences of the two modes of `xor_rolling`, and that each mode undoes the other (the last the spec's own
inference in R142). -/
def Obligations.XorRollingRecurrence : Prop :=
  ∀ s : List Byte,
    (∀ mode, (xorRolling mode s).length = s.length ∧ (xorRolling mode s)[0]? = s[0]?)
    ∧ (∀ i x y, s[i]? = some x → s[i + 1]? = some y →
        (xorRolling .inputDifferential s)[i + 1]? = some (y ^^^ x))
    ∧ (∀ i y z, s[i + 1]? = some y → (xorRolling .outputDifferential s)[i]? = some z →
        (xorRolling .outputDifferential s)[i + 1]? = some (y ^^^ z))
    ∧ xorRolling .inputDifferential (xorRolling .outputDifferential s) = s
    ∧ xorRolling .outputDifferential (xorRolling .inputDifferential s) = s

/-- R144 and R146: the key of byte `i` is `(start + i * inc) mod 256`, Euclidean, for every integer increment; the
increment's residue serves as well (R146, the spec's own inference); the function is its own inverse (the spec's own
inference in R144). -/
def Obligations.XorCounterClosedForm : Prop :=
  ∀ (s : List Byte) (start : Byte) (inc : Int),
    (xorCounter (BitVec.ofInt 8 inc) start s).length = s.length
    ∧ (∀ (i : Nat) x, s[i]? = some x → (xorCounter (BitVec.ofInt 8 inc) start s)[i]?
        = some (x ^^^ BitVec.ofNat 8 ((start.toNat + i * inc) % 256).toNat))
    ∧ xorCounter (BitVec.ofInt 8 (inc % 256)) start s = xorCounter (BitVec.ofInt 8 inc) start s
    ∧ xorCounter (BitVec.ofInt 8 inc) start (xorCounter (BitVec.ofInt 8 inc) start s) = s

/-- R190: the Hamming distance as a sum over the common length, its symmetry, and its bound of 8 a byte (the last the
spec's own inference in R190). -/
def Obligations.HammingDistanceSum : Prop :=
  ∀ s t : List Byte,
    hammingDistance s t = ∑ i ∈ Finset.range (min s.length t.length), bitDistance (s.getD i 0) (t.getD i 0)
    ∧ hammingDistance s t = hammingDistance t s
    ∧ (s = [] ∨ t = [] → hammingDistance s t = 0)
    ∧ hammingDistance s t ≤ 8 * min s.length t.length

/-- R192: the class of every byte value, by the rows of the table. -/
def Obligations.ByteClassesOfTable : Prop :=
  ∀ x : Byte,
    (classOf x = .reject ↔ isReject x = true) ∧ (classOf x = .ws ↔ inRange 0x09 0x0D x = true)
    ∧ (classOf x = .space ↔ inRange 0x20 0x20 x = true) ∧ (classOf x = .punct ↔ isPunct x = true)
    ∧ (classOf x = .digit ↔ inRange 0x30 0x39 x = true) ∧ (classOf x = .upper ↔ inRange 0x41 0x5A x = true)
    ∧ (classOf x = .lower ↔ inRange 0x61 0x7A x = true)

/-! ## The commands: word, errors in their order, and the result with its frame -/

/-- R125, PAD. -/
def Obligations.PadCommandRule : Prop :=
  ∀ (bs : Byte) (s : State),
    (encode (.pad bs)).toNat = 0x00000001 + 2 ^ 16 * bs.toNat
    ∧ (Config.bufBytes < s.alen.toNat → exec (.pad bs) s = .next (errorState 6 0x01 s))
    ∧ (s.alen.toNat ≤ Config.bufBytes → bs = 0 → exec (.pad bs) s = .next (errorState 1 0x01 s))
    ∧ (s.alen.toNat ≤ Config.bufBytes → bs ≠ 0 → ∀ n p,
        p = bs.toNat - s.alen.toNat % bs.toNat →
        n = (if s.alen.toNat % bs.toNat = 0 then s.alen.toNat else s.alen.toNat + p) →
        (Config.bufBytes < n → exec (.pad bs) s = .next (errorState 6 0x01 s))
        ∧ (n ≤ Config.bufBytes → ∃ t, exec (.pad bs) s = .next t ∧ Completes 0x01 n s t ∧ Scalars t 0 0 0
            ∧ MakesNoCall s t
            ∧ (∀ i, i < s.alen.toNat → t.byte .obuf i = s.byte .abuf i)
            ∧ (∀ i, s.alen.toNat ≤ i → i < n → t.byte .obuf i = BitVec.ofNat 8 p)))

/-- R126, UNPAD. -/
def Obligations.UnpadCommandRule : Prop :=
  ∀ (bs : Byte) (s : State),
    (encode (.unpad bs)).toNat = 0x00000002 + 2 ^ 16 * bs.toNat
    ∧ (Config.bufBytes < s.alen.toNat → exec (.unpad bs) s = .next (errorState 6 0x02 s))
    ∧ (s.alen.toNat ≤ Config.bufBytes → bs = 0 → exec (.unpad bs) s = .next (errorState 1 0x02 s))
    ∧ (s.alen.toNat ≤ Config.bufBytes → bs ≠ 0 → ∃ t m, exec (.unpad bs) s = .next t
        ∧ StrippedLength (s.byte .abuf) s.alen.toNat bs.toNat m ∧ Completes 0x02 m s t ∧ Scalars t 0 0 0
        ∧ MakesNoCall s t ∧ ∀ i, i < m → t.byte .obuf i = s.byte .abuf i)

/-- R127, PADDED. -/
def Obligations.PaddedCommandRule : Prop :=
  ∀ (bs : Byte) (s : State),
    (encode (.padded bs)).toNat = 0x00000003 + 2 ^ 16 * bs.toNat
    ∧ (Config.bufBytes < s.alen.toNat → exec (.padded bs) s = .next (errorState 6 0x03 s))
    ∧ (s.alen.toNat ≤ Config.bufBytes → bs = 0 → exec (.padded bs) s = .next (errorState 1 0x03 s))
    ∧ (s.alen.toNat ≤ Config.bufBytes → bs ≠ 0 → ∃ t, exec (.padded bs) s = .next t
        ∧ Completes 0x03 0 s t ∧ MakesNoCall s t
        ∧ (EndsInPadding (s.byte .abuf) s.alen.toNat bs.toNat → Scalars t 1 0 0)
        ∧ (¬ EndsInPadding (s.byte .abuf) s.alen.toNat bs.toNat → Scalars t 0 0 0))

/-- R141, XORKEY. -/
def Obligations.XorkeyCommandRule : Prop :=
  (encode .xorkey).toNat = 0x00000010
  ∧ ∀ s : State,
    (Config.bufBytes < s.alen.toNat ∨ Config.bufBytes < s.blen.toNat →
        exec .xorkey s = .next (errorState 6 0x10 s))
    ∧ (s.alen.toNat ≤ Config.bufBytes → s.blen.toNat ≤ Config.bufBytes →
        (s.blen = 0 → exec .xorkey s = .next (errorState 1 0x10 s))
        ∧ (s.blen ≠ 0 → ∃ t, exec .xorkey s = .next t ∧ Completes 0x10 s.alen.toNat s t ∧ Scalars t 0 0 0
            ∧ MakesNoCall s t
            ∧ ∀ i, i < s.alen.toNat →
                t.byte .obuf i = s.byte .abuf i ^^^ s.byte .bbuf (i % s.blen.toNat)))

/-- R143, XORROLL in both modes; in output-differential mode the byte before is the one just written. -/
def Obligations.XorrollCommandRule : Prop :=
  (encode (.xorroll .inputDifferential)).toNat = 0x00000011
  ∧ (encode (.xorroll .outputDifferential)).toNat = 0x00000011 + 2 ^ 8
  ∧ ∀ (mode : RollMode) (s : State),
    (Config.bufBytes < s.alen.toNat → exec (.xorroll mode) s = .next (errorState 6 0x11 s))
    ∧ (s.alen.toNat ≤ Config.bufBytes → ∃ t, exec (.xorroll mode) s = .next t
        ∧ Completes 0x11 s.alen.toNat s t ∧ Scalars t 0 0 0 ∧ MakesNoCall s t
        ∧ (0 < s.alen.toNat → t.byte .obuf 0 = s.byte .abuf 0)
        ∧ ∀ i, i + 1 < s.alen.toNat → t.byte .obuf (i + 1) = s.byte .abuf (i + 1)
            ^^^ (if mode = .inputDifferential then s.byte .abuf i else t.byte .obuf i))

/-- R145, XORCTR. -/
def Obligations.XorctrCommandRule : Prop :=
  ∀ (start inc : Byte) (s : State),
    (encode (.xorctr start inc)).toNat = 0x00000012 + 2 ^ 16 * start.toNat + 2 ^ 24 * inc.toNat
    ∧ (Config.bufBytes < s.alen.toNat → exec (.xorctr start inc) s = .next (errorState 6 0x12 s))
    ∧ (s.alen.toNat ≤ Config.bufBytes → ∃ t, exec (.xorctr start inc) s = .next t
        ∧ Completes 0x12 s.alen.toNat s t ∧ Scalars t 0 0 0 ∧ MakesNoCall s t
        ∧ ∀ i, i < s.alen.toNat →
            t.byte .obuf i = s.byte .abuf i ^^^ BitVec.ofNat 8 ((start.toNat + i * inc.toNat) % 256))

/-- R164, ECBENC: each block of the padded plaintext through `E`, one call for each in ascending order. -/
def Obligations.EcbencCommandRule : Prop :=
  (encode .ecbenc).toNat = 0x00000020
  ∧ ∀ s : State,
    (Config.bufBytes < s.alen.toNat → exec .ecbenc s = .next (errorState 6 0x20 s))
    ∧ (s.alen.toNat ≤ Config.bufBytes → s.klen ≠ 16 → exec .ecbenc s = .next (errorState 2 0x20 s))
    ∧ (s.alen.toNat ≤ Config.bufBytes → s.klen = 16 → ∃ t, exec .ecbenc s = .next t
        ∧ Completes 0x20 (16 * paddedBlocks s) s t ∧ Scalars t 0 0 0
        ∧ (∀ j, j < paddedBlocks s →
            blockAt (t.byte .obuf) j = Config.E (blockAt (paddedByte s) j) s.key)
        ∧ t.trace = s.trace
            ++ (List.range (paddedBlocks s)).map (fun j => ⟨false, blockAt (paddedByte s) j, s.key⟩))

/-- R165, ECBDEC: each block through `D`; with `rp` set valid padding at the end is removed. -/
def Obligations.EcbdecCommandRule : Prop :=
  (encode (.ecbdec false)).toNat = 0x00000021
  ∧ (encode (.ecbdec true)).toNat = 0x00000021 + 2 ^ 8
  ∧ ∀ (rp : Bool) (s : State),
    (Config.bufBytes < s.alen.toNat → exec (.ecbdec rp) s = .next (errorState 6 0x21 s))
    ∧ (s.alen.toNat ≤ Config.bufBytes → s.klen ≠ 16 → exec (.ecbdec rp) s = .next (errorState 2 0x21 s))
    ∧ (s.alen.toNat ≤ Config.bufBytes → s.klen = 16 → s.alen.toNat % 16 ≠ 0 →
        exec (.ecbdec rp) s = .next (errorState 1 0x21 s))
    ∧ (s.alen.toNat ≤ Config.bufBytes → s.klen = 16 → s.alen.toNat % 16 = 0 →
        ∃ t m, exec (.ecbdec rp) s = .next t ∧ PlainLength rp (ecbPlainByte s) s.alen.toNat m
        ∧ Completes 0x21 m s t ∧ Scalars t 0 0 0
        ∧ (∀ i, i < m → t.byte .obuf i = ecbPlainByte s i)
        ∧ t.trace = s.trace ++ (List.range (s.alen.toNat / 16)).map
            (fun j => ⟨true, blockAt (s.byte .abuf) j, s.key⟩))

/-- R166, CBCENC: each block of the padded plaintext XOR the ciphertext block before it (IV first) through `E`. -/
def Obligations.CbcencCommandRule : Prop :=
  (encode .cbcenc).toNat = 0x00000022
  ∧ ∀ s : State,
    (Config.bufBytes < s.alen.toNat → exec .cbcenc s = .next (errorState 6 0x22 s))
    ∧ (s.alen.toNat ≤ Config.bufBytes → s.klen ≠ 16 → exec .cbcenc s = .next (errorState 2 0x22 s))
    ∧ (s.alen.toNat ≤ Config.bufBytes → s.klen = 16 → s.ivlen ≠ 16 →
        exec .cbcenc s = .next (errorState 3 0x22 s))
    ∧ (s.alen.toNat ≤ Config.bufBytes → s.klen = 16 → s.ivlen = 16 → ∃ t, exec .cbcenc s = .next t
        ∧ Completes 0x22 (16 * paddedBlocks s) s t ∧ Scalars t 0 0 0
        ∧ (∀ j, j < paddedBlocks s → blockAt (t.byte .obuf) j
            = Config.E (blockAt (paddedByte s) j ^^^ cbcPrev s (t.byte .obuf) j) s.key)
        ∧ t.trace = s.trace ++ (List.range (paddedBlocks s)).map
            (fun j => ⟨false, blockAt (paddedByte s) j ^^^ cbcPrev s (t.byte .obuf) j, s.key⟩))

/-- R167, CBCDEC: each block through `D` XOR the ciphertext block before it (IV first); padding as in ECBDEC. -/
def Obligations.CbcdecCommandRule : Prop :=
  (encode (.cbcdec false)).toNat = 0x00000023
  ∧ (encode (.cbcdec true)).toNat = 0x00000023 + 2 ^ 8
  ∧ ∀ (rp : Bool) (s : State),
    (Config.bufBytes < s.alen.toNat → exec (.cbcdec rp) s = .next (errorState 6 0x23 s))
    ∧ (s.alen.toNat ≤ Config.bufBytes → s.klen ≠ 16 → exec (.cbcdec rp) s = .next (errorState 2 0x23 s))
    ∧ (s.alen.toNat ≤ Config.bufBytes → s.klen = 16 → s.ivlen ≠ 16 →
        exec (.cbcdec rp) s = .next (errorState 3 0x23 s))
    ∧ (s.alen.toNat ≤ Config.bufBytes → s.klen = 16 → s.ivlen = 16 → s.alen.toNat % 16 ≠ 0 →
        exec (.cbcdec rp) s = .next (errorState 1 0x23 s))
    ∧ (s.alen.toNat ≤ Config.bufBytes → s.klen = 16 → s.ivlen = 16 → s.alen.toNat % 16 = 0 →
        ∃ t m, exec (.cbcdec rp) s = .next t ∧ PlainLength rp (cbcPlainByte s) s.alen.toNat m
        ∧ Completes 0x23 m s t ∧ Scalars t 0 0 0
        ∧ (∀ i, i < m → t.byte .obuf i = cbcPlainByte s i)
        ∧ t.trace = s.trace ++ (List.range (s.alen.toNat / 16)).map
            (fun j => ⟨true, blockAt (s.byte .abuf) j, s.key⟩))

/-- R191, HAMMING. -/
def Obligations.HammingCommandRule : Prop :=
  (encode .hamming).toNat = 0x00000030
  ∧ ∀ s : State,
    (Config.bufBytes < s.alen.toNat ∨ Config.bufBytes < s.blen.toNat →
        exec .hamming s = .next (errorState 6 0x30 s))
    ∧ (s.alen.toNat ≤ Config.bufBytes → s.blen.toNat ≤ Config.bufBytes → ∃ t n, exec .hamming s = .next t
        ∧ n = ∑ i ∈ Finset.range (min s.alen.toNat s.blen.toNat), bitDistance (s.byte .abuf i) (s.byte .bbuf i)
        ∧ n ≤ 8 * Config.bufBytes ∧ Completes 0x30 0 s t ∧ Scalars t n 0 0 ∧ MakesNoCall s t)

/-- R200 with R197 to R199, R201, KEYSIZE: the size of the lowest average distance, the smallest of equals, as an exact
comparison of integer products. -/
def Obligations.KeysizeCommandRule : Prop :=
  ∀ (min max : Byte) (s : State),
    (encode (.keysize min max)).toNat = 0x00000031 + 2 ^ 16 * min.toNat + 2 ^ 24 * max.toNat
    ∧ (Config.bufBytes < s.alen.toNat → exec (.keysize min max) s = .next (errorState 6 0x31 s))
    ∧ (s.alen.toNat ≤ Config.bufBytes → min.toNat < 2 ∨ max.toNat < min.toNat →
        exec (.keysize min max) s = .next (errorState 1 0x31 s))
    ∧ (s.alen.toNat ≤ Config.bufBytes → 2 ≤ min.toNat → min.toNat ≤ max.toNat → s.alen.toNat < 2 * min.toNat →
        exec (.keysize min max) s = .next (errorState 4 0x31 s))
    ∧ (s.alen.toNat ≤ Config.bufBytes → 2 ≤ min.toNat → min.toNat ≤ max.toNat → 2 * min.toNat ≤ s.alen.toNat →
        ∃ t k, exec (.keysize min max) s = .next t
        ∧ min.toNat ≤ k ∧ k ≤ max.toNat ∧ 2 * k ≤ s.alen.toNat
        ∧ Completes 0x31 0 s t ∧ MakesNoCall s t ∧ Scalars t k (sampledDistance s k) (sampledDen s k)
        ∧ 2 ≤ sampledDen s k ∧ sampledDistance s k ≤ 8 * sampledDen s k
        ∧ ∀ m, min.toNat ≤ m → m ≤ max.toNat → 2 * m ≤ s.alen.toNat →
            sampledDistance s k * sampledDen s m ≤ sampledDistance s m * sampledDen s k
            ∧ (m < k → sampledDistance s k * sampledDen s m < sampledDistance s m * sampledDen s k))

/-- R194 with R192, R193, ENGLISH. -/
def Obligations.EnglishCommandRule : Prop :=
  (encode .english).toNat = 0x00000032
  ∧ ∀ s : State,
    (Config.bufBytes < s.alen.toNat → exec .english s = .next (errorState 6 0x32 s))
    ∧ (s.alen.toNat ≤ Config.bufBytes → ∃ t, exec .english s = .next t ∧ Completes 0x32 0 s t ∧ MakesNoCall s t
        ∧ (EnglishLike (s.byte .abuf) s.alen.toNat → Scalars t 1 0 0)
        ∧ (¬ EnglishLike (s.byte .abuf) s.alen.toNat → Scalars t 0 0 0))

/-- R196 with R195, SOLVE1: the output is the strictly ascending list of the keys whose trial is accepted. -/
def Obligations.Solve1CommandRule : Prop :=
  (encode .solve1).toNat = 0x00000033
  ∧ ∀ s : State,
    (Config.bufBytes < s.alen.toNat → exec .solve1 s = .next (errorState 6 0x33 s))
    ∧ (s.alen.toNat ≤ Config.bufBytes → ∃ t n, exec .solve1 s = .next t ∧ n ≤ 256 ∧ Completes 0x33 n s t
        ∧ Scalars t n 0 0 ∧ MakesNoCall s t
        ∧ (∀ i j, i < j → j < n → (t.byte .obuf i).toNat < (t.byte .obuf j).toNat)
        ∧ ∀ k : Byte, (∃ i, i < n ∧ t.byte .obuf i = k)
            ↔ EnglishLike (fun i => s.byte .abuf i ^^^ k) s.alen.toNat)

/-! ## Every command -/

/-- R99: an illegal word raises IllegalCommand and does nothing else; the word 0 is illegal. -/
def Obligations.IllegalWordRaisesIllegalCommand : Prop :=
  (∀ (w : Word) (e : Illegal) (s : State), decode w = .error e →
    execCommand w s = .next (errorState 5 (w.extractLsb' 0 8).toNat s))
  ∧ ∃ e, decode 0 = .error e

/-- R239 and R240: a CMD write whose command ends in an error has only the effect of error entry, with one of the codes
1 to 6 and no primitive call, and completes without a bus error. -/
def Obligations.ErrorEntryIsExact : Prop :=
  ∀ (s t : State) (w : Word) (rest : List HostEvent),
    s.host = .transaction (.write 0 0xF w) :: rest → step s = .next t → statusErrFlag t.status = true →
    ∃ code r, 1 ≤ code ∧ code ≤ 6 ∧ r.err = false
      ∧ t = (errorState code (w.extractLsb' 0 8).toNat s).answered rest r

/-- R28, R104, R230: what STATUS says after any command; that it is then not 0 is the spec's own inference in R261. -/
def Obligations.StatusAfterCommand : Prop :=
  ∀ (i : Instr) (s t : State), exec i s = .next t →
    statusDone t.status = true ∧ statusLastOp t.status = i.opcode ∧ statusReserved t.status = 0
    ∧ t.status ≠ 0
    ∧ (statusErrFlag t.status = false → statusErrCode t.status = 0)
    ∧ (statusErrFlag t.status = true → 1 ≤ (statusErrCode t.status).toNat ∧ (statusErrCode t.status).toNat ≤ 6)

/-- R42: no command changes an operand; issued a second time the same command gives the same results and calls (the last
the spec's own inference in R42). -/
def Obligations.OperandsNeverModified : Prop :=
  ∀ (i : Instr) (s t : State), exec i s = .next t →
    KeepsOperands s t ∧ KeepsWorld s t ∧ KeepsOutputFrom t.olen.toNat s t
    ∧ ∃ u d, exec i t = .next u ∧ SameResults t u ∧ t.trace = s.trace ++ d ∧ u.trace = t.trace ++ d

/-- R46, R41: what a command answers depends on the operands alone, never on STATUS, the results, OBUF, the hidden
registers or bytes beyond the declared lengths. -/
def Obligations.ResultsDependOnOperandsOnly : Prop :=
  ∀ (i : Instr) (s1 s2 t1 t2 : State), SameOperands s1 s2 → exec i s1 = .next t1 → exec i s2 = .next t2 →
    SameResults t1 t2 ∧ ∃ d, t1.trace = s1.trace ++ d ∧ t2.trace = s2.trace ++ d

/-- R2, R21 to R24, R26: what a command does not read cannot change what it answers. The four block-mode commands do
not read BBUF; the ECB commands do not read IV; the other ten read neither key nor IV nor a declared length of them. -/
def Obligations.UnreadOperandsDoNotMatter : Prop :=
  ∀ (s t1 t2 : State) (k0 k1 k2 k3 v0 v1 v2 v3 kl ivl bl : Word) (m : Memory),
    (∀ i : Instr, i ∉ [Instr.ecbenc, .ecbdec true, .ecbdec false, .cbcenc, .cbcdec true, .cbcdec false] →
      exec i s = .next t1 →
      exec i { s with key0 := k0, key1 := k1, key2 := k2, key3 := k3, iv0 := v0, iv1 := v1, iv2 := v2, iv3 := v3,
                      klen := kl, ivlen := ivl } = .next t2 →
      SameResults t1 t2 ∧ t1.trace = s.trace ∧ t2.trace = s.trace)
    ∧ (∀ i : Instr, i ∈ [Instr.ecbenc, .ecbdec true, .ecbdec false] → exec i s = .next t1 →
      exec i { s with iv0 := v0, iv1 := v1, iv2 := v2, iv3 := v3, ivlen := ivl, blen := bl, bbuf := m } = .next t2 →
      SameResults t1 t2 ∧ t1.trace = t2.trace)
    ∧ (∀ i : Instr, ¬ ReadsB i → exec i s = .next t1 → exec i { s with blen := bl, bbuf := m } = .next t2 →
      SameResults t1 t2 ∧ t1.trace = t2.trace)

/-- The MODEL's choice (log 7), not the spec's: what the hidden registers hold after a command, where R37 to R39 leave
it irrelevant. The block-mode commands leave phase DONE and the number of blocks (R160), the CBC commands also the last
ciphertext block; ENGLISH and SOLVE1 change only the counters; every other command, and every error, nothing. -/
def Obligations.HiddenRegistersAfterCommand : Prop :=
  ∀ (i : Instr) (s t : State), exec i s = .next t →
    (statusErrFlag t.status = true → t.scratch = s.scratch)
    ∧ (statusErrFlag t.status = false →
      (i = .ecbenc → t.scratch = { s.scratch with phase := .done, blk := paddedBlocks s })
      ∧ (i = .ecbdec true ∨ i = .ecbdec false →
          t.scratch = { s.scratch with phase := .done, blk := s.alen.toNat / 16 })
      ∧ (i = .cbcenc → t.scratch = { s.scratch with
          prev := cbcPrev s (t.byte .obuf) (paddedBlocks s), phase := .done, blk := paddedBlocks s })
      ∧ (i = .cbcdec true ∨ i = .cbcdec false → t.scratch = { s.scratch with
          prev := cbcPrev s (s.byte .abuf) (s.alen.toNat / 16), phase := .done, blk := s.alen.toNat / 16 })
      ∧ (i = .english ∨ i = .solve1 → t.scratch = { s.scratch with counts := t.scratch.counts })
      ∧ (i.opcode ∉ [0x20, 0x21, 0x22, 0x23, 0x32, 0x33] → t.scratch = s.scratch))

/-! ## Round trips -/

/-- R171, ECB, which the spec marks as its own inference: with a primitive whose `D` inverts its `E`, decrypting what was encrypted gives the message back exactly
when it is unaligned or does not end in valid padding; with `rp` = 0 it gives the padded message. -/
def Obligations.EcbRoundTripExactly : Prop :=
  ∀ (c : Params) (s : State), c.Admissible → c.PrimInverse → s.klen = 16 → s.alen.toNat ≤ c.bufBytes →
    statusErrFlag (ecbdecCommand c true (outputAsInput (ecbencCommand c s))).status = false
    ∧ ((ecbdecCommand c true (outputAsInput (ecbencCommand c s))).output = s.operandA
        ↔ (s.alen.toNat % 16 ≠ 0 ∨ ¬ EndsInPadding (s.byte .abuf) s.alen.toNat 16))
    ∧ (ecbdecCommand c false (outputAsInput (ecbencCommand c s))).output = pad s.operandA 16

/-- R171, CBC, which the spec marks as its own inference. -/
def Obligations.CbcRoundTripExactly : Prop :=
  ∀ (c : Params) (s : State), c.Admissible → c.PrimInverse → s.klen = 16 → s.ivlen = 16 →
    s.alen.toNat ≤ c.bufBytes →
    statusErrFlag (cbcdecCommand c true (outputAsInput (cbcencCommand c s))).status = false
    ∧ ((cbcdecCommand c true (outputAsInput (cbcencCommand c s))).output = s.operandA
        ↔ (s.alen.toNat % 16 ≠ 0 ∨ ¬ EndsInPadding (s.byte .abuf) s.alen.toNat 16))
    ∧ (cbcdecCommand c false (outputAsInput (cbcencCommand c s))).output = pad s.operandA 16

/-! ## The bus, the step and reset -/

/-- R9, R103: the step that takes a write to CMD runs the command the written word decodes to, and answers the write
without a bus error when the command is complete. -/
def Obligations.StepRunsDecodedCommand : Prop :=
  ∀ (s : State) (w : Word) (i : Instr) (rest : List HostEvent),
    s.host = .transaction (.write 0 0xF w) :: rest → decode w = .ok i →
    step s = answer ⟨false, none⟩ (exec i (s.taking rest))

/-- R64: a legal read of a register offset returns the register, of CMD 0, with no bus error; no read of any location
has a side effect (R71). -/
def Obligations.ReadsReturnRegisters : Prop :=
  ∀ (s : State) (rest : List HostEvent),
    (∀ a v, (a, v) ∈ registerValues s → s.host = .transaction (.read (BitVec.ofNat 18 a) 0xF) :: rest →
      step s = .next (s.answered rest ⟨false, some v⟩))
    ∧ (∀ addr be, s.host = .transaction (.read addr be) :: rest → ∃ r, step s = .next (s.answered rest r))

/-- R65: a legal write replaces an RW register, is ignored by an RO register and by every word of the OBUF window, all
without a bus error; a write to CMD executes a command. -/
def Obligations.WritesReachRegisters : Prop :=
  ∀ (s : State) (v : Word) (rest : List HostEvent),
    (∀ a t, (a, t) ∈ registerWrites s v → s.host = .transaction (.write (BitVec.ofNat 18 a) 0xF v) :: rest →
      ∃ r, r.err = false ∧ step s = .next (t.answered rest r))
    ∧ (∀ w, 4 * w < Config.bufBytes →
      s.host = .transaction (.write (BitVec.ofNat 18 (0x30000 + 4 * w)) 0xF v) :: rest →
      ∃ r, r.err = false ∧ step s = .next (s.answered rest r))
    ∧ (s.host = .transaction (.write 0 0xF v) :: rest →
      ∃ r, r.err = false ∧ step s = answer r (execCommand v (s.taking rest)))

/-- R66, R67: a window word is four bytes of its buffer, little-endian, read and written; a write changes those four
bytes and nothing else. -/
def Obligations.WindowWordsAreLittleEndian : Prop :=
  ∀ (s : State) (v : Word) (w : Nat) (rest : List HostEvent), 4 * w < Config.bufBytes →
    (∀ base buffer, (base, buffer) ∈ [(0x10000, Buf.abuf), (0x20000, Buf.bbuf), (0x30000, Buf.obuf)] →
      s.host = .transaction (.read (BitVec.ofNat 18 (base + 4 * w)) 0xF) :: rest →
      step s = .next (s.answered rest ⟨false, some (littleEndianWord (s.byte buffer (4 * w))
        (s.byte buffer (4 * w + 1)) (s.byte buffer (4 * w + 2)) (s.byte buffer (4 * w + 3)))⟩))
    ∧ (s.host = .transaction (.write (BitVec.ofNat 18 (0x10000 + 4 * w)) 0xF v) :: rest →
      ∃ m r, r.err = false ∧ step s = .next ({ s with abuf := m }.answered rest r)
        ∧ ∀ i, { s with abuf := m }.byte .abuf i
            = if 4 * w ≤ i ∧ i < 4 * w + 4 then v.extractLsb' (8 * (i - 4 * w)) 8 else s.byte .abuf i)
    ∧ (s.host = .transaction (.write (BitVec.ofNat 18 (0x20000 + 4 * w)) 0xF v) :: rest →
      ∃ m r, r.err = false ∧ step s = .next ({ s with bbuf := m }.answered rest r)
        ∧ ∀ i, { s with bbuf := m }.byte .bbuf i
            = if 4 * w ≤ i ∧ i < 4 * w + 4 then v.extractLsb' (8 * (i - 4 * w)) 8 else s.byte .bbuf i)

/-- R106, `LOAD A` and `LOAD B`: the transactions of the line, presented next, leave the bytes in the buffer, with the
missing tail bytes of the last word 00, and their number in the length register, and change nothing else. -/
def Obligations.LoadLinesWriteBuffers : Prop :=
  ∀ (s : State) (bytes : List Byte), bytes.length ≤ Config.bufBytes →
    (∃ ts m rs, (ScriptLine.loadA bytes).expand = some ts
      ∧ StepsTo ts.length (s.presenting ts)
          { s with abuf := m, alen := BitVec.ofNat 32 bytes.length, responses := s.responses ++ rs }
      ∧ (∀ r ∈ rs, r.err = false)
      ∧ ∀ i, { s with abuf := m }.byte .abuf i
          = if i < 4 * ((bytes.length + 3) / 4) then bytes.getD i 0 else s.byte .abuf i)
    ∧ (∃ ts m rs, (ScriptLine.loadB bytes).expand = some ts
      ∧ StepsTo ts.length (s.presenting ts)
          { s with bbuf := m, blen := BitVec.ofNat 32 bytes.length, responses := s.responses ++ rs }
      ∧ (∀ r ∈ rs, r.err = false)
      ∧ ∀ i, { s with bbuf := m }.byte .bbuf i
          = if i < 4 * ((bytes.length + 3) / 4) then bytes.getD i 0 else s.byte .bbuf i)

/-- R106, `LOADKEY` and `LOADIV`: the transactions of the line, presented next, leave the sixteen bytes in the key or the
IV and 16 in its declared length, and change nothing else; a line of another length stands for nothing. -/
def Obligations.LoadLinesWriteKeyAndIv : Prop :=
  ∀ (s : State) (bytes : List Byte),
    (bytes.length ≠ 16 → (ScriptLine.loadKey bytes).expand = none ∧ (ScriptLine.loadIv bytes).expand = none)
    ∧ (bytes.length = 16 →
      (∃ ts w0 w1 w2 w3 rs, (ScriptLine.loadKey bytes).expand = some ts
        ∧ StepsTo ts.length (s.presenting ts) { s with
            key0 := w0, key1 := w1, key2 := w2, key3 := w3, klen := 16, responses := s.responses ++ rs }
        ∧ (∀ r ∈ rs, r.err = false)
        ∧ ∀ i, i < 16 → blockByte { s with key0 := w0, key1 := w1, key2 := w2, key3 := w3 }.key i = bytes.getD i 0)
      ∧ (∃ ts w0 w1 w2 w3 rs, (ScriptLine.loadIv bytes).expand = some ts
        ∧ StepsTo ts.length (s.presenting ts) { s with
            iv0 := w0, iv1 := w1, iv2 := w2, iv3 := w3, ivlen := 16, responses := s.responses ++ rs }
        ∧ (∀ r ∈ rs, r.err = false)
        ∧ ∀ i, i < 16 → blockByte { s with iv0 := w0, iv1 := w1, iv2 := w2, iv3 := w3 }.iv i = bytes.getD i 0))

/-- R106, `READ O`: the reads of the line answer OLEN and the words of OBUF whose first OLEN bytes, in little-endian
order, are the output, and change nothing. -/
def Obligations.ReadLineReadsOutput : Prop :=
  ∀ s : State, s.olen.toNat ≤ Config.bufBytes →
    ∃ ts vs, (ScriptLine.readO s.olen.toNat).expand = some ts
      ∧ StepsTo ts.length (s.presenting ts)
          { s with responses := s.responses ++ (s.olen :: vs).map (fun v => ⟨false, some v⟩) }
      ∧ (vs.flatMap bytesOfWord).take s.olen.toNat = s.output

/-- R21, R22, R68: byte `i` of the key and of the IV. -/
def Obligations.KeyAndIvByteOrder : Prop :=
  ∀ (s : State) (i : Nat), i < 4 →
    blockByte s.key i = s.key0.extractLsb' (8 * i) 8
    ∧ blockByte s.key (4 + i) = s.key1.extractLsb' (8 * i) 8
    ∧ blockByte s.key (8 + i) = s.key2.extractLsb' (8 * i) 8
    ∧ blockByte s.key (12 + i) = s.key3.extractLsb' (8 * i) 8
    ∧ blockByte s.iv i = s.iv0.extractLsb' (8 * i) 8
    ∧ blockByte s.iv (4 + i) = s.iv1.extractLsb' (8 * i) 8
    ∧ blockByte s.iv (8 + i) = s.iv2.extractLsb' (8 * i) 8
    ∧ blockByte s.iv (12 + i) = s.iv3.extractLsb' (8 * i) 8

/-- R62, R69, R70: a transaction that is misaligned, has partial byte enables or an unmapped offset, even one aimed at
CMD, answers a bus error with read data 0 and changes nothing; every other answers without a bus error. -/
def Obligations.IllegalTransactionsChangeNothing : Prop :=
  ∀ (s : State) (addr : Address) (be : BitVec 4) (v : Word) (rest : List HostEvent),
    s.host = .transaction (.read addr be) :: rest ∨ s.host = .transaction (.write addr be v) :: rest →
    (¬ Legal Config.bufBytes addr be → step s = .next (s.answered rest ⟨true, some 0⟩))
    ∧ (Legal Config.bufBytes addr be → ∃ t r, step s = .next t ∧ r.err = false
        ∧ t.host = rest ∧ t.responses = s.responses ++ [r])

/-- R248, which the spec marks as its own inference: in every state the step has a next state; no command and no event
stops the machine. -/
def Obligations.StepNeverStops : Prop :=
  ∀ s : State, ∃ t, step s = .next t

/-- R9 and the MODEL's choice of log 1: with nothing presented the machine does not change. -/
def Obligations.NothingPresentedNothingChanges : Prop :=
  ∀ s : State, s.host = [] → step s = .next s

/-- R43: every register after reset, and that every block-mode command raises InvalidKeyLength as long as KLEN keeps its
value of reset (with an operand that fits the buffer, as the empty one of reset does). -/
def Obligations.ResetValues : Prop :=
  (∀ v ∈ [State.reset.key0, State.reset.key1, State.reset.key2, State.reset.key3,
      State.reset.iv0, State.reset.iv1, State.reset.iv2, State.reset.iv3, State.reset.klen, State.reset.ivlen,
      State.reset.alen, State.reset.blen, State.reset.status, State.reset.olen,
      State.reset.res0, State.reset.res1, State.reset.res2], v = 0)
  ∧ readReg .cmd State.reset = 0
  ∧ (∀ i ∈ [Instr.ecbenc, .ecbdec false, .ecbdec true, .cbcenc, .cbcdec false, .cbcdec true], ∀ s : State,
      s.klen = State.reset.klen → s.alen.toNat ≤ Config.bufBytes →
      exec i s = .next (errorState 2 i.opcode.toNat s))

/-- R260 as the model takes the event (log 8): after `rst` every register is as at reset and no buffer byte is listed
as written; what has been observed and what is still to be presented stay. -/
def Obligations.ResetEventRestoresResetState : Prop :=
  ∀ (s : State) (rest : List HostEvent), s.host = .rst :: rest →
    step s = .next { State.reset with
      host := rest, responses := s.responses, trace := s.trace, boots := s.boots + 1 }

/-- R262 as the model takes the event (log 9): a command that `rst` interrupts leaves the reset state, no response, and
in the trace a prefix of the calls the command makes when nothing interrupts it. -/
def Obligations.ResetDuringCommandAbandonsIt : Prop :=
  ∀ (s t : State) (w : Word) (rest : List HostEvent), s.host = .rstDuring w :: rest →
    execCommand w (s.taking rest) = .next t →
    ∃ d e, t.trace = s.trace ++ d ++ e ∧ step s = .next { State.reset with
      host := rest, responses := s.responses, trace := s.trace ++ d, boots := s.boots + 1 }

/-! ## The invariant -/

/-- The invariant of the machine (`State.Inv`: R28, R29, R31, R32, R230, R239, and the canonical memories of log 6) holds
at reset. -/
def Obligations.InvariantAtReset : Prop := State.reset.Inv

/-- Every step keeps the invariant, whatever the outside world presents. -/
def Obligations.StepKeepsInvariant : Prop :=
  ∀ s t : State, s.Inv → step s = .next t → t.Inv
end

