-- ==== Sys2Proof/Laws/Bytes.lean ====
section
/-! SUPPORT. The laws of byte packing (R66, R77), of the blocks of a sequence (R162), of the operands (R21 to R26) and of
`BUF_BYTES` (R5). -/

namespace Sys2Proof

theorem Config.bufBytes_bounds :
    Config.bufBytes % 16 = 0 ∧ 256 ≤ Config.bufBytes ∧ Config.bufBytes ≤ 65536 := by
  have := Nat.mod_lt Config.capacityChoice (show 0 < 4081 by decide)
  unfold Config.bufBytes
  omega

@[simp] theorem Config.params_bufBytes : Config.params.bufBytes = Config.bufBytes := by
  simp only [Config.params]

@[simp] theorem Config.params_enc : Config.params.enc = Config.E := rfl

@[simp] theorem Config.params_dec : Config.params.dec = Config.D := rfl

/-- `BUF_BYTES` meets the constraints of R5. -/
theorem Config.params_admissible : Config.params.Admissible := by
  unfold Params.Admissible
  rw [Config.params_bufBytes]
  exact Config.bufBytes_bounds

theorem Config.le_bufBytes {n : Nat} (h : n ≤ 256) : n ≤ Config.bufBytes :=
  h.trans Config.bufBytes_bounds.2.1

theorem Config.bufBytes_le : Config.bufBytes ≤ 65536 := Config.bufBytes_bounds.2.2

theorem Config.bufBytes_mod : Config.bufBytes % 16 = 0 := Config.bufBytes_bounds.1

/-- Every capacity that R5 admits is `BUF_BYTES` for some choice (log 3). -/
theorem Config.every_capacity (n : Nat) (h : n % 16 = 0) (h1 : 256 ≤ n) (h2 : n ≤ 65536) :
    ∃ k, 16 * (k % 4081 + 16) = n := ⟨n / 16 - 16, by omega⟩

end Sys2Proof

namespace Sys2Proof.Machine

@[simp] theorem leBytes_length (n : Nat) : ∀ v, (leBytes n v).length = n := by
  induction n with
  | zero => intro v; rfl
  | succ n ih => intro v; simp [leBytes, ih]

theorem leNat_lt (bs : List Byte) : leNat bs < 256 ^ bs.length := by
  induction bs with
  | nil => simp [leNat]
  | cons x xs ih =>
    have hx := x.isLt
    simp only [leNat, List.length_cons, pow_succ]
    omega

theorem leBytes_getElem (n : Nat) : ∀ (v i : Nat) (h : i < (leBytes n v).length),
    (leBytes n v)[i] = BitVec.ofNat 8 (v / 256 ^ i) := by
  induction n with
  | zero => intro v i h; simp at h
  | succ n ih =>
    intro v i h
    cases i with
    | zero => simp [leBytes]
    | succ i =>
      simp only [leBytes, List.getElem_cons_succ]
      rw [ih, Nat.div_div_eq_div_mul, pow_succ, mul_comm]

theorem leNat_leBytes (n : Nat) : ∀ v, leNat (leBytes n v) = v % 256 ^ n := by
  induction n with
  | zero => intro v; simp [leBytes, leNat, Nat.mod_one]
  | succ n ih =>
    intro v
    have h : 256 ^ (n + 1) = 256 * 256 ^ n := by rw [pow_succ, mul_comm]
    rw [leBytes, leNat, ih, BitVec.toNat_ofNat, h, Nat.mod_mul]

theorem leBytes_leNat (bs : List Byte) : leBytes bs.length (leNat bs) = bs := by
  induction bs with
  | nil => rfl
  | cons x xs ih =>
    have hx := x.isLt
    have h1 : (x.toNat + 256 * leNat xs) / 256 = leNat xs := by omega
    have h2 : BitVec.ofNat 8 (x.toNat + 256 * leNat xs) = x := by
      apply BitVec.eq_of_toNat_eq
      simp only [BitVec.toNat_ofNat]
      omega
    simp only [leNat, List.length_cons, leBytes, h1, h2, ih]

@[simp] theorem bytesOfBlock_length (x : Block) : (bytesOfBlock x).length = 16 := leBytes_length 16 _

@[simp] theorem bytesOfWord_length (w : Word) : (bytesOfWord w).length = 4 := leBytes_length 4 _

/-- Byte `i` of a block is bits `8i+7 : 8i` (R77). -/
theorem bytesOfBlock_getElem (x : Block) (i : Nat) (h : i < (bytesOfBlock x).length) :
    (bytesOfBlock x)[i] = x.extractLsb' (8 * i) 8 := by
  refine (leBytes_getElem 16 x.toNat i h).trans ?_
  apply BitVec.eq_of_toNat_eq
  rw [BitVec.toNat_ofNat, BitVec.extractLsb'_toNat, Nat.shiftRight_eq_div_pow, pow_mul, show (2 : Nat) ^ 8 = 256 from rfl]

/-- Byte `i` of a word is bits `8i+7 : 8i` (R66). -/
theorem bytesOfWord_getElem (x : Word) (i : Nat) (h : i < (bytesOfWord x).length) :
    (bytesOfWord x)[i] = x.extractLsb' (8 * i) 8 := by
  refine (leBytes_getElem 4 x.toNat i h).trans ?_
  apply BitVec.eq_of_toNat_eq
  rw [BitVec.toNat_ofNat, BitVec.extractLsb'_toNat, Nat.shiftRight_eq_div_pow, pow_mul, show (2 : Nat) ^ 8 = 256 from rfl]

@[simp] theorem blockOfBytes_bytesOfBlock (x : Block) : blockOfBytes (bytesOfBlock x) = x := by
  apply BitVec.eq_of_toNat_eq
  have hx := x.isLt
  simp only [blockOfBytes, bytesOfBlock, leNat_leBytes, BitVec.toNat_ofNat]
  omega

theorem bytesOfBlock_blockOfBytes (bs : List Byte) (h : bs.length = 16) :
    bytesOfBlock (blockOfBytes bs) = bs := by
  have h1 := leNat_lt bs
  have h2 : (BitVec.ofNat 128 (leNat bs)).toNat = leNat bs := by
    rw [BitVec.toNat_ofNat]
    rw [h] at h1
    exact Nat.mod_eq_of_lt (by simpa using h1)
  unfold bytesOfBlock blockOfBytes
  rw [h2, ← h]
  exact leBytes_leNat bs

@[simp] theorem wordOfBytes_bytesOfWord (x : Word) : wordOfBytes (bytesOfWord x) = x := by
  apply BitVec.eq_of_toNat_eq
  have hx := x.isLt
  simp only [wordOfBytes, bytesOfWord, leNat_leBytes, BitVec.toNat_ofNat]
  omega

/-! Blocks of a sequence (R162). -/

@[simp] theorem takeBlocks_length (n : Nat) : ∀ s, (takeBlocks n s).length = n := by
  induction n with
  | zero => intro s; rfl
  | succ n ih => intro s; simp [takeBlocks, ih]

theorem takeBlocks_getElem (n : Nat) : ∀ (s : List Byte) (j : Nat) (h : j < (takeBlocks n s).length),
    (takeBlocks n s)[j] = blockOfBytes ((s.drop (16 * j)).take 16) := by
  induction n with
  | zero => intro s j h; simp at h
  | succ n ih =>
    intro s j h
    cases j with
    | zero => simp [takeBlocks]
    | succ j =>
      simp only [takeBlocks, List.getElem_cons_succ]
      rw [ih, List.drop_drop, show 16 + 16 * j = 16 * (j + 1) by omega]

@[simp] theorem blocksOf_length (s : List Byte) : (blocksOf s).length = s.length / 16 := takeBlocks_length _ _

theorem blocksOf_getElem (s : List Byte) (j : Nat) (h : j < (blocksOf s).length) :
    (blocksOf s)[j] = blockOfBytes ((s.drop (16 * j)).take 16) := takeBlocks_getElem _ s j h

@[simp] theorem bytesOfBlocks_length (bs : List Block) : (bytesOfBlocks bs).length = 16 * bs.length := by
  induction bs with
  | nil => rfl
  | cons x xs ih =>
    rw [bytesOfBlocks, List.flatMap_cons, List.length_append, bytesOfBlock_length, ← bytesOfBlocks, ih,
      List.length_cons]
    omega

/-- Byte `i` of a list of blocks is byte `i mod 16` of block `i div 16` (R162). -/
theorem bytesOfBlocks_getElem? (bs : List Block) : ∀ i : Nat,
    (bytesOfBlocks bs)[i]? = (bs[i / 16]?).map (fun x => x.extractLsb' (8 * (i % 16)) 8) := by
  induction bs with
  | nil => intro i; simp [bytesOfBlocks]
  | cons x xs ih =>
    intro i
    rw [bytesOfBlocks, List.flatMap_cons, ← bytesOfBlocks, List.getElem?_append, bytesOfBlock_length]
    split
    · next h =>
      have h1 : i / 16 = 0 := by omega
      have h2 : i % 16 = i := by omega
      rw [h1, h2, List.getElem?_cons_zero, Option.map_some,
        List.getElem?_eq_getElem (by rw [bytesOfBlock_length]; exact h), bytesOfBlock_getElem]
    · next h =>
      obtain ⟨k, rfl⟩ : ∃ k, i = k + 16 := ⟨i - 16, by omega⟩
      have h1 : (k + 16) / 16 = k / 16 + 1 := by omega
      have h2 : (k + 16) % 16 = k % 16 := by omega
      rw [Nat.add_sub_cancel, ih, h1, h2, List.getElem?_cons_succ]

theorem takeBlocks_bytesOfBlocks (bs : List Block) : takeBlocks bs.length (bytesOfBlocks bs) = bs := by
  induction bs with
  | nil => rfl
  | cons x xs ih =>
    rw [bytesOfBlocks, List.flatMap_cons, ← bytesOfBlocks, List.length_cons, takeBlocks]
    rw [List.take_append_of_le_length (by simp), List.drop_append_of_le_length (by simp),
      List.take_of_length_le (by simp), List.drop_of_length_le (by simp), List.nil_append, ih,
      blockOfBytes_bytesOfBlock]

@[simp] theorem blocksOf_bytesOfBlocks (bs : List Block) : blocksOf (bytesOfBlocks bs) = bs := by
  unfold blocksOf
  rw [bytesOfBlocks_length, Nat.mul_div_cancel_left _ (by decide)]
  exact takeBlocks_bytesOfBlocks bs

theorem bytesOfBlocks_takeBlocks (n : Nat) : ∀ s : List Byte, s.length = 16 * n →
    bytesOfBlocks (takeBlocks n s) = s := by
  induction n with
  | zero => intro s h; rw [List.eq_nil_of_length_eq_zero (l := s) (by simpa using h)]; rfl
  | succ n ih =>
    intro s h
    rw [takeBlocks, bytesOfBlocks, List.flatMap_cons, ← bytesOfBlocks, ih _ (by rw [List.length_drop]; omega),
      bytesOfBlock_blockOfBytes _ (by rw [List.length_take]; omega), List.take_append_drop]

theorem bytesOfBlocks_blocksOf (s : List Byte) (h : s.length % 16 = 0) : bytesOfBlocks (blocksOf s) = s :=
  bytesOfBlocks_takeBlocks _ s (by omega)

/-! Operands. -/

@[simp] theorem bytes_length (s : State) (buffer : Buf) (n : Nat) : (s.bytes buffer n).length = n := by
  simp [State.bytes]

@[simp] theorem bytes_getElem (s : State) (buffer : Buf) (n i : Nat) (h : i < (s.bytes buffer n).length) :
    (s.bytes buffer n)[i] = s.byte buffer i := by
  simp [State.bytes]

@[simp] theorem operandA_length (s : State) : s.operandA.length = s.alen.toNat := bytes_length _ _ _

@[simp] theorem operandB_length (s : State) : s.operandB.length = s.blen.toNat := bytes_length _ _ _

@[simp] theorem operandA_getElem (s : State) (i : Nat) (h : i < s.operandA.length) :
    s.operandA[i] = s.byte .abuf i := bytes_getElem s .abuf _ i h

@[simp] theorem operandB_getElem (s : State) (i : Nat) (h : i < s.operandB.length) :
    s.operandB[i] = s.byte .bbuf i := bytes_getElem s .bbuf _ i h

/-- Byte `i` of the key is bits `8(i mod 4)+7 : 8(i mod 4)` of KEY(i div 4) (R21, R68). -/
theorem key_bytes (s : State) : bytesOfBlock s.key =
    bytesOfWord s.key0 ++ bytesOfWord s.key1 ++ bytesOfWord s.key2 ++ bytesOfWord s.key3 := by
  have e : ∀ (w3 w2 w1 w0 : Word) (i : Nat), i < 16 →
      (w3 ++ w2 ++ w1 ++ w0 : Block).extractLsb' (8 * i) 8 =
        (if i < 4 then w0 else if i < 8 then w1 else if i < 12 then w2 else w3).extractLsb' (8 * (i % 4)) 8 := by
    intro w3 w2 w1 w0 i hi
    ext j hj
    interval_cases i <;> simp <;> grind
  apply List.ext_getElem
  · simp
  · intro i h1 h2
    rw [bytesOfBlock_getElem]
    have hi : i < 16 := by simpa using h1
    unfold State.key
    rw [e _ _ _ _ i hi]
    interval_cases i <;> simp [bytesOfWord_getElem]

end Sys2Proof.Machine
end

