-- ==== Sys2Proof/Laws/State.lean ====
section
/-! SUPPORT. One lemma per field per update of the state: what each shared update leaves and what it writes. -/

namespace Sys2Proof.Machine

@[simp] theorem raise_key0 (e : CmdError) (op : Byte) (s : State) :
    (raise e op s).key0 = s.key0 := rfl

@[simp] theorem raise_key1 (e : CmdError) (op : Byte) (s : State) :
    (raise e op s).key1 = s.key1 := rfl

@[simp] theorem raise_key2 (e : CmdError) (op : Byte) (s : State) :
    (raise e op s).key2 = s.key2 := rfl

@[simp] theorem raise_key3 (e : CmdError) (op : Byte) (s : State) :
    (raise e op s).key3 = s.key3 := rfl

@[simp] theorem raise_iv0 (e : CmdError) (op : Byte) (s : State) :
    (raise e op s).iv0 = s.iv0 := rfl

@[simp] theorem raise_iv1 (e : CmdError) (op : Byte) (s : State) :
    (raise e op s).iv1 = s.iv1 := rfl

@[simp] theorem raise_iv2 (e : CmdError) (op : Byte) (s : State) :
    (raise e op s).iv2 = s.iv2 := rfl

@[simp] theorem raise_iv3 (e : CmdError) (op : Byte) (s : State) :
    (raise e op s).iv3 = s.iv3 := rfl

@[simp] theorem raise_klen (e : CmdError) (op : Byte) (s : State) :
    (raise e op s).klen = s.klen := rfl

@[simp] theorem raise_ivlen (e : CmdError) (op : Byte) (s : State) :
    (raise e op s).ivlen = s.ivlen := rfl

@[simp] theorem raise_alen (e : CmdError) (op : Byte) (s : State) :
    (raise e op s).alen = s.alen := rfl

@[simp] theorem raise_blen (e : CmdError) (op : Byte) (s : State) :
    (raise e op s).blen = s.blen := rfl

@[simp] theorem raise_status (e : CmdError) (op : Byte) (s : State) :
    (raise e op s).status = statusErr e op := rfl

@[simp] theorem raise_olen (e : CmdError) (op : Byte) (s : State) :
    (raise e op s).olen = 0 := rfl

@[simp] theorem raise_res0 (e : CmdError) (op : Byte) (s : State) :
    (raise e op s).res0 = 0 := rfl

@[simp] theorem raise_res1 (e : CmdError) (op : Byte) (s : State) :
    (raise e op s).res1 = 0 := rfl

@[simp] theorem raise_res2 (e : CmdError) (op : Byte) (s : State) :
    (raise e op s).res2 = 0 := rfl

@[simp] theorem raise_abuf (e : CmdError) (op : Byte) (s : State) :
    (raise e op s).abuf = s.abuf := rfl

@[simp] theorem raise_bbuf (e : CmdError) (op : Byte) (s : State) :
    (raise e op s).bbuf = s.bbuf := rfl

@[simp] theorem raise_obuf (e : CmdError) (op : Byte) (s : State) :
    (raise e op s).obuf = s.obuf := rfl

@[simp] theorem raise_scratch (e : CmdError) (op : Byte) (s : State) :
    (raise e op s).scratch = s.scratch := rfl

@[simp] theorem raise_host (e : CmdError) (op : Byte) (s : State) :
    (raise e op s).host = s.host := rfl

@[simp] theorem raise_responses (e : CmdError) (op : Byte) (s : State) :
    (raise e op s).responses = s.responses := rfl

@[simp] theorem raise_trace (e : CmdError) (op : Byte) (s : State) :
    (raise e op s).trace = s.trace := rfl

@[simp] theorem raise_boots (e : CmdError) (op : Byte) (s : State) :
    (raise e op s).boots = s.boots := rfl

@[simp] theorem complete_key0 (op : Byte) (r : Result) (s : State) :
    (complete op r s).key0 = s.key0 := rfl

@[simp] theorem complete_key1 (op : Byte) (r : Result) (s : State) :
    (complete op r s).key1 = s.key1 := rfl

@[simp] theorem complete_key2 (op : Byte) (r : Result) (s : State) :
    (complete op r s).key2 = s.key2 := rfl

@[simp] theorem complete_key3 (op : Byte) (r : Result) (s : State) :
    (complete op r s).key3 = s.key3 := rfl

@[simp] theorem complete_iv0 (op : Byte) (r : Result) (s : State) :
    (complete op r s).iv0 = s.iv0 := rfl

@[simp] theorem complete_iv1 (op : Byte) (r : Result) (s : State) :
    (complete op r s).iv1 = s.iv1 := rfl

@[simp] theorem complete_iv2 (op : Byte) (r : Result) (s : State) :
    (complete op r s).iv2 = s.iv2 := rfl

@[simp] theorem complete_iv3 (op : Byte) (r : Result) (s : State) :
    (complete op r s).iv3 = s.iv3 := rfl

@[simp] theorem complete_klen (op : Byte) (r : Result) (s : State) :
    (complete op r s).klen = s.klen := rfl

@[simp] theorem complete_ivlen (op : Byte) (r : Result) (s : State) :
    (complete op r s).ivlen = s.ivlen := rfl

@[simp] theorem complete_alen (op : Byte) (r : Result) (s : State) :
    (complete op r s).alen = s.alen := rfl

@[simp] theorem complete_blen (op : Byte) (r : Result) (s : State) :
    (complete op r s).blen = s.blen := rfl

@[simp] theorem complete_status (op : Byte) (r : Result) (s : State) :
    (complete op r s).status = statusOk op := rfl

@[simp] theorem complete_olen (op : Byte) (r : Result) (s : State) :
    (complete op r s).olen = BitVec.ofNat 32 r.out.length := rfl

@[simp] theorem complete_res0 (op : Byte) (r : Result) (s : State) :
    (complete op r s).res0 = BitVec.ofNat 32 r.res0 := rfl

@[simp] theorem complete_res1 (op : Byte) (r : Result) (s : State) :
    (complete op r s).res1 = BitVec.ofNat 32 r.res1 := rfl

@[simp] theorem complete_res2 (op : Byte) (r : Result) (s : State) :
    (complete op r s).res2 = BitVec.ofNat 32 r.res2 := rfl

@[simp] theorem complete_abuf (op : Byte) (r : Result) (s : State) :
    (complete op r s).abuf = s.abuf := rfl

@[simp] theorem complete_bbuf (op : Byte) (r : Result) (s : State) :
    (complete op r s).bbuf = s.bbuf := rfl

@[simp] theorem complete_obuf (op : Byte) (r : Result) (s : State) :
    (complete op r s).obuf = s.obuf.fill r.out := rfl

@[simp] theorem complete_scratch (op : Byte) (r : Result) (s : State) :
    (complete op r s).scratch = r.scratch := rfl

@[simp] theorem complete_host (op : Byte) (r : Result) (s : State) :
    (complete op r s).host = s.host := rfl

@[simp] theorem complete_responses (op : Byte) (r : Result) (s : State) :
    (complete op r s).responses = s.responses := rfl

@[simp] theorem complete_trace (op : Byte) (r : Result) (s : State) :
    (complete op r s).trace = s.trace ++ r.calls := rfl

@[simp] theorem complete_boots (op : Byte) (r : Result) (s : State) :
    (complete op r s).boots = s.boots := rfl

@[simp] theorem respond_key0 (s : State) (r : Response) :
    (s.respond r).key0 = s.key0 := rfl

@[simp] theorem respond_key1 (s : State) (r : Response) :
    (s.respond r).key1 = s.key1 := rfl

@[simp] theorem respond_key2 (s : State) (r : Response) :
    (s.respond r).key2 = s.key2 := rfl

@[simp] theorem respond_key3 (s : State) (r : Response) :
    (s.respond r).key3 = s.key3 := rfl

@[simp] theorem respond_iv0 (s : State) (r : Response) :
    (s.respond r).iv0 = s.iv0 := rfl

@[simp] theorem respond_iv1 (s : State) (r : Response) :
    (s.respond r).iv1 = s.iv1 := rfl

@[simp] theorem respond_iv2 (s : State) (r : Response) :
    (s.respond r).iv2 = s.iv2 := rfl

@[simp] theorem respond_iv3 (s : State) (r : Response) :
    (s.respond r).iv3 = s.iv3 := rfl

@[simp] theorem respond_klen (s : State) (r : Response) :
    (s.respond r).klen = s.klen := rfl

@[simp] theorem respond_ivlen (s : State) (r : Response) :
    (s.respond r).ivlen = s.ivlen := rfl

@[simp] theorem respond_alen (s : State) (r : Response) :
    (s.respond r).alen = s.alen := rfl

@[simp] theorem respond_blen (s : State) (r : Response) :
    (s.respond r).blen = s.blen := rfl

@[simp] theorem respond_status (s : State) (r : Response) :
    (s.respond r).status = s.status := rfl

@[simp] theorem respond_olen (s : State) (r : Response) :
    (s.respond r).olen = s.olen := rfl

@[simp] theorem respond_res0 (s : State) (r : Response) :
    (s.respond r).res0 = s.res0 := rfl

@[simp] theorem respond_res1 (s : State) (r : Response) :
    (s.respond r).res1 = s.res1 := rfl

@[simp] theorem respond_res2 (s : State) (r : Response) :
    (s.respond r).res2 = s.res2 := rfl

@[simp] theorem respond_abuf (s : State) (r : Response) :
    (s.respond r).abuf = s.abuf := rfl

@[simp] theorem respond_bbuf (s : State) (r : Response) :
    (s.respond r).bbuf = s.bbuf := rfl

@[simp] theorem respond_obuf (s : State) (r : Response) :
    (s.respond r).obuf = s.obuf := rfl

@[simp] theorem respond_scratch (s : State) (r : Response) :
    (s.respond r).scratch = s.scratch := rfl

@[simp] theorem respond_host (s : State) (r : Response) :
    (s.respond r).host = s.host := rfl

@[simp] theorem respond_responses (s : State) (r : Response) :
    (s.respond r).responses = s.responses ++ [r] := rfl

@[simp] theorem respond_trace (s : State) (r : Response) :
    (s.respond r).trace = s.trace := rfl

@[simp] theorem respond_boots (s : State) (r : Response) :
    (s.respond r).boots = s.boots := rfl

@[simp] theorem resetEvent_key0 (s : State) :
    (resetEvent s).key0 = 0 := rfl

@[simp] theorem resetEvent_key1 (s : State) :
    (resetEvent s).key1 = 0 := rfl

@[simp] theorem resetEvent_key2 (s : State) :
    (resetEvent s).key2 = 0 := rfl

@[simp] theorem resetEvent_key3 (s : State) :
    (resetEvent s).key3 = 0 := rfl

@[simp] theorem resetEvent_iv0 (s : State) :
    (resetEvent s).iv0 = 0 := rfl

@[simp] theorem resetEvent_iv1 (s : State) :
    (resetEvent s).iv1 = 0 := rfl

@[simp] theorem resetEvent_iv2 (s : State) :
    (resetEvent s).iv2 = 0 := rfl

@[simp] theorem resetEvent_iv3 (s : State) :
    (resetEvent s).iv3 = 0 := rfl

@[simp] theorem resetEvent_klen (s : State) :
    (resetEvent s).klen = 0 := rfl

@[simp] theorem resetEvent_ivlen (s : State) :
    (resetEvent s).ivlen = 0 := rfl

@[simp] theorem resetEvent_alen (s : State) :
    (resetEvent s).alen = 0 := rfl

@[simp] theorem resetEvent_blen (s : State) :
    (resetEvent s).blen = 0 := rfl

@[simp] theorem resetEvent_status (s : State) :
    (resetEvent s).status = 0 := rfl

@[simp] theorem resetEvent_olen (s : State) :
    (resetEvent s).olen = 0 := rfl

@[simp] theorem resetEvent_res0 (s : State) :
    (resetEvent s).res0 = 0 := rfl

@[simp] theorem resetEvent_res1 (s : State) :
    (resetEvent s).res1 = 0 := rfl

@[simp] theorem resetEvent_res2 (s : State) :
    (resetEvent s).res2 = 0 := rfl

@[simp] theorem resetEvent_abuf (s : State) :
    (resetEvent s).abuf = [] := rfl

@[simp] theorem resetEvent_bbuf (s : State) :
    (resetEvent s).bbuf = [] := rfl

@[simp] theorem resetEvent_obuf (s : State) :
    (resetEvent s).obuf = [] := rfl

@[simp] theorem resetEvent_scratch (s : State) :
    (resetEvent s).scratch = Scratch.reset := rfl

@[simp] theorem resetEvent_host (s : State) :
    (resetEvent s).host = s.host := rfl

@[simp] theorem resetEvent_responses (s : State) :
    (resetEvent s).responses = s.responses := rfl

@[simp] theorem resetEvent_trace (s : State) :
    (resetEvent s).trace = s.trace := rfl

@[simp] theorem resetEvent_boots (s : State) :
    (resetEvent s).boots = s.boots + 1 := rfl

/-! The fields of the two shapes of result. -/

@[simp] theorem resultBytes_out (s : State) (out : List Byte) : (Result.bytes s out).out = out := rfl
@[simp] theorem resultBytes_res0 (s : State) (out : List Byte) : (Result.bytes s out).res0 = 0 := rfl
@[simp] theorem resultBytes_res1 (s : State) (out : List Byte) : (Result.bytes s out).res1 = 0 := rfl
@[simp] theorem resultBytes_res2 (s : State) (out : List Byte) : (Result.bytes s out).res2 = 0 := rfl
@[simp] theorem resultBytes_calls (s : State) (out : List Byte) : (Result.bytes s out).calls = [] := rfl
@[simp] theorem resultBytes_scratch (s : State) (out : List Byte) : (Result.bytes s out).scratch = s.scratch := rfl
@[simp] theorem resultScalar_out (s : State) (n : Nat) : (Result.scalar s n).out = [] := rfl
@[simp] theorem resultScalar_res0 (s : State) (n : Nat) : (Result.scalar s n).res0 = n := rfl
@[simp] theorem resultScalar_res1 (s : State) (n : Nat) : (Result.scalar s n).res1 = 0 := rfl
@[simp] theorem resultScalar_res2 (s : State) (n : Nat) : (Result.scalar s n).res2 = 0 := rfl
@[simp] theorem resultScalar_calls (s : State) (n : Nat) : (Result.scalar s n).calls = [] := rfl
@[simp] theorem resultScalar_scratch (s : State) (n : Nat) : (Result.scalar s n).scratch = s.scratch := rfl
@[simp] theorem messageResult_out (m : Message) (s : State) (out : List Byte) : (m.result s out).out = out := rfl
@[simp] theorem messageResult_res0 (m : Message) (s : State) (out : List Byte) : (m.result s out).res0 = 0 := rfl
@[simp] theorem messageResult_res1 (m : Message) (s : State) (out : List Byte) : (m.result s out).res1 = 0 := rfl
@[simp] theorem messageResult_res2 (m : Message) (s : State) (out : List Byte) : (m.result s out).res2 = 0 := rfl
@[simp] theorem messageResult_calls (m : Message) (s : State) (out : List Byte) :
    (m.result s out).calls = m.calls := rfl
@[simp] theorem messageResult_counts (m : Message) (s : State) (out : List Byte) :
    (m.result s out).scratch.counts = s.scratch.counts := rfl
@[simp] theorem messageResult_prev (m : Message) (s : State) (out : List Byte) :
    (m.result s out).scratch.prev = m.prev := rfl
@[simp] theorem messageResult_phase (m : Message) (s : State) (out : List Byte) :
    (m.result s out).scratch.phase = m.phase := rfl
@[simp] theorem messageResult_blk (m : Message) (s : State) (out : List Byte) :
    (m.result s out).scratch.blk = m.blk := rfl

end Sys2Proof.Machine
end

