-- ==== Sys2Proof/Laws/Memory.lean ====
section
/-! SUPPORT. The laws of the buffers: read after write, the canonical form, the extent, and what each shared update does
to a byte. -/

namespace Sys2Proof.Machine

theorem Memory.find_write_same (m : Memory) (i : Nat) (v : Byte) : (m.write i v).find i = some v := by
  induction m with
  | nil => simp [Memory.write, Memory.find]
  | cons c rest ih =>
    obtain ⟨j, w⟩ := c
    simp only [Memory.write]
    split
    · simp [Memory.find]
    · split
      · simp [Memory.find]
      · next h => simpa [Memory.find, List.lookup, beq_false_of_ne h] using ih

theorem Memory.find_write_other (m : Memory) (i j : Nat) (v : Byte) (h : j ≠ i) :
    (m.write i v).find j = m.find j := by
  induction m with
  | nil => simp [Memory.write, Memory.find, List.lookup, beq_false_of_ne h]
  | cons c rest ih =>
    obtain ⟨k, w⟩ := c
    simp only [Memory.write]
    split
    · simp [Memory.find, List.lookup, beq_false_of_ne h]
    · split
      · next h2 => subst h2; simp [Memory.find, List.lookup, beq_false_of_ne h]
      · simp only [Memory.find, List.lookup] at ih ⊢
        split <;> simp_all

/-- A byte after one write. -/
theorem Memory.find_write (m : Memory) (i j : Nat) (v : Byte) :
    (m.write i v).find j = if j = i then some v else m.find j := by
  split
  · next h => rw [h, Memory.find_write_same]
  · next h => exact Memory.find_write_other m i j v h

/-- A byte after consecutive writes. -/
theorem Memory.find_writeBytes (vs : List Byte) : ∀ (m : Memory) (i j : Nat),
    (m.writeBytes i vs).find j = if i ≤ j then (vs[j - i]?).or (m.find j) else m.find j := by
  induction vs with
  | nil => intro m i j; simp [Memory.writeBytes]
  | cons v vs ih =>
    intro m i j
    rw [Memory.writeBytes, ih, Memory.find_write]
    by_cases h1 : i + 1 ≤ j
    · have h2 : i ≤ j := by omega
      have h3 : j - i = (j - (i + 1)) + 1 := by omega
      have h4 : j ≠ i := by omega
      simp [h1, h2, h3, h4]
    · by_cases h2 : j = i
      · subst h2; simp
      · have h3 : ¬ i ≤ j := by omega
        simp [h1, h2, h3]

theorem lookup_append (m n : Memory) (i : Nat) :
    List.lookup i (m ++ n) = (List.lookup i m).or (List.lookup i n) := by
  induction m with
  | nil => simp
  | cons c rest ih =>
    obtain ⟨j, w⟩ := c
    simp only [List.cons_append, List.lookup_cons]
    split <;> simp_all

theorem lookup_zipIdx (out : List Byte) : ∀ (k i : Nat),
    List.lookup i ((out.zipIdx k).map (fun p => (p.2, p.1))) = if k ≤ i then out[i - k]? else none := by
  induction out with
  | nil => intro k i; simp
  | cons v vs ih =>
    intro k i
    rw [List.zipIdx_cons, List.map_cons, List.lookup_cons, ih]
    by_cases h : i = k
    · subst h; simp
    · rw [beq_false_of_ne h]
      by_cases h1 : k + 1 ≤ i
      · have h2 : i - k = (i - (k + 1)) + 1 := by omega
        have h3 : k ≤ i := by omega
        simp [h1, h2, h3]
      · have h3 : ¬ k ≤ i := by omega
        simp [h1, h3]

theorem lookup_filter_ge (m : Memory) (n i : Nat) :
    List.lookup i (m.filter (fun c => n ≤ c.1)) = if n ≤ i then List.lookup i m else none := by
  induction m with
  | nil => simp
  | cons c rest ih =>
    obtain ⟨j, w⟩ := c
    by_cases hj : n ≤ j
    · rw [List.filter_cons_of_pos (by simpa using hj), List.lookup_cons, List.lookup_cons, ih]
      by_cases h : i = j
      · subst h; simp [hj]
      · simp [beq_false_of_ne h]
    · rw [List.filter_cons_of_neg (by simpa using hj), ih, List.lookup_cons]
      by_cases h : i = j
      · subst h; simp [hj]
      · simp [beq_false_of_ne h]

/-- A byte after a command's output is stored (R35). -/
theorem Memory.find_fill (m : Memory) (out : List Byte) (i : Nat) :
    (m.fill out).find i = if i < out.length then out[i]? else m.find i := by
  unfold Memory.fill Memory.find
  rw [lookup_append, lookup_zipIdx, lookup_filter_ge]
  by_cases h : i < out.length
  · simp [h]
  · have h2 : out.length ≤ i := by omega
    simp [h2, h]

theorem Memory.fill_nil (m : Memory) : m.fill [] = m := by
  simp [Memory.fill]

/-! The canonical form (log 6). -/

theorem Memory.wf_iff (m : Memory) : m.wf = true ↔ m.Pairwise (fun x y => x.1 < y.1) := by
  simp [Memory.wf]

theorem Memory.mem_write (m : Memory) (i : Nat) (v : Byte) :
    ∀ c ∈ m.write i v, c = (i, v) ∨ c ∈ m := by
  induction m with
  | nil => simp [Memory.write]
  | cons c rest ih =>
    obtain ⟨j, w⟩ := c
    intro d hd
    simp only [Memory.write] at hd
    split at hd
    · simpa using hd
    · split at hd
      · simp only [List.mem_cons] at hd ⊢; tauto
      · simp only [List.mem_cons] at hd ⊢
        rcases hd with hd | hd
        · exact .inr (.inl hd)
        · exact (ih d hd).imp_right .inr

theorem Memory.wf_write (m : Memory) (i : Nat) (v : Byte) (h : m.wf = true) : (m.write i v).wf = true := by
  rw [Memory.wf_iff] at h ⊢
  induction m with
  | nil => simp [Memory.write]
  | cons c rest ih =>
    obtain ⟨j, w⟩ := c
    rw [List.pairwise_cons] at h
    simp only [Memory.write]
    split
    · next hlt =>
      rw [List.pairwise_cons, List.pairwise_cons]
      refine ⟨fun d hd => ?_, h⟩
      rcases List.mem_cons.1 hd with rfl | hd
      · exact hlt
      · exact lt_trans hlt (h.1 d hd)
    · split
      · next heq => subst heq; exact List.pairwise_cons.2 h
      · next hlt hne =>
        rw [List.pairwise_cons]
        refine ⟨fun d hd => ?_, ih h.2⟩
        rcases Memory.mem_write rest i v d hd with rfl | hd
        · show j < i; omega
        · exact h.1 d hd

theorem Memory.wf_writeBytes (vs : List Byte) : ∀ (m : Memory) (i : Nat), m.wf = true →
    (m.writeBytes i vs).wf = true := by
  induction vs with
  | nil => intro m i h; exact h
  | cons v vs ih => intro m i h; exact ih _ _ (Memory.wf_write m i v h)

theorem mem_zipIdx_cell {out : List Byte} {c : Nat × Byte}
    (h : c ∈ out.zipIdx.map (fun p => (p.2, p.1))) : c.1 < out.length := by
  obtain ⟨p, hp, rfl⟩ := List.mem_map.1 h
  obtain ⟨_, h2, _⟩ := List.mem_zipIdx hp
  simpa using h2

theorem pairwise_zipIdx (out : List Byte) : ∀ k : Nat,
    ((out.zipIdx k).map (fun p => (p.2, p.1))).Pairwise (fun x y => x.1 < y.1) := by
  induction out with
  | nil => intro k; simp
  | cons v vs ih =>
    intro k
    rw [List.zipIdx_cons, List.map_cons, List.pairwise_cons]
    refine ⟨fun c hc => ?_, ih (k + 1)⟩
    obtain ⟨p, hp, rfl⟩ := List.mem_map.1 hc
    obtain ⟨h1, _, _⟩ := List.mem_zipIdx hp
    show k < p.2
    omega

theorem Memory.wf_fill (m : Memory) (out : List Byte) (h : m.wf = true) : (m.fill out).wf = true := by
  rw [Memory.wf_iff] at h ⊢
  refine List.pairwise_append.2 ⟨pairwise_zipIdx out 0, h.filter _, fun a ha b hb => ?_⟩
  have h1 := mem_zipIdx_cell ha
  have h2 : out.length ≤ b.1 := by simpa using (List.mem_filter.1 hb).2
  exact lt_of_lt_of_le h1 h2

/-! The extent of a buffer (R33 to R35). -/

/-- The memories of the reset state have the canonical form (log 6). -/
theorem reset_memories_wf : State.reset.abuf.wf = true ∧ State.reset.bbuf.wf = true ∧ State.reset.obuf.wf = true :=
  ⟨rfl, rfl, rfl⟩

theorem Memory.below_iff (m : Memory) (n : Nat) : m.below n = true ↔ ∀ c ∈ m, c.1 < n := by
  simp [Memory.below]

theorem Memory.below_write (m : Memory) (n i : Nat) (v : Byte) (h : m.below n = true) (hi : i < n) :
    (m.write i v).below n = true := by
  rw [Memory.below_iff] at h ⊢
  intro c hc
  rcases Memory.mem_write m i v c hc with rfl | hc
  · exact hi
  · exact h c hc

theorem Memory.below_writeBytes (n : Nat) (vs : List Byte) : ∀ (m : Memory) (i : Nat), m.below n = true →
    i + vs.length ≤ n → (m.writeBytes i vs).below n = true := by
  induction vs with
  | nil => intro m i h _; exact h
  | cons v vs ih =>
    intro m i h hi
    simp only [List.length_cons] at hi
    exact ih _ _ (Memory.below_write m n i v h (by omega)) (by omega)

theorem Memory.below_fill (m : Memory) (n : Nat) (out : List Byte) (h : m.below n = true) (ho : out.length ≤ n) :
    (m.fill out).below n = true := by
  rw [Memory.below_iff] at h ⊢
  intro c hc
  rcases List.mem_append.1 hc with hc | hc
  · exact lt_of_lt_of_le (mem_zipIdx_cell hc) ho
  · exact h c (List.mem_filter.1 hc).1

/-! What the shared updates do to a byte of a buffer. -/

@[simp] theorem byte_raise (e : CmdError) (op : Byte) (s : State) (buffer : Buf) (i : Nat) :
    (raise e op s).byte buffer i = s.byte buffer i := by cases buffer <;> rfl

@[simp] theorem byte_respond (s : State) (r : Response) (buffer : Buf) (i : Nat) :
    (s.respond r).byte buffer i = s.byte buffer i := by cases buffer <;> rfl

@[simp] theorem byte_complete_abuf (op : Byte) (r : Result) (s : State) (i : Nat) :
    (complete op r s).byte .abuf i = s.byte .abuf i := rfl

@[simp] theorem byte_complete_bbuf (op : Byte) (r : Result) (s : State) (i : Nat) :
    (complete op r s).byte .bbuf i = s.byte .bbuf i := rfl

theorem byte_complete_obuf (op : Byte) (r : Result) (s : State) (i : Nat) :
    (complete op r s).byte .obuf i = if h : i < r.out.length then r.out[i] else s.byte .obuf i := by
  show ((s.obuf.fill r.out).find i).getD _ = _
  rw [Memory.find_fill]
  split
  · next h => simp [h]
  · rfl

/-- After a write of one window word, the bytes of ABUF (R66). -/
theorem byte_writeWindow_abuf (index : Nat) (v : Word) (s : State) (i : Nat) :
    (writeWindow .abuf index v s).byte .abuf i =
      if index ≤ i then ((bytesOfWord v)[i - index]?).getD (s.byte .abuf i) else s.byte .abuf i := by
  show ((s.abuf.writeBytes index (bytesOfWord v)).find i).getD _ = _
  rw [Memory.find_writeBytes]
  split
  · cases (bytesOfWord v)[i - index]? <;> rfl
  · rfl

/-- After a write of one window word, the bytes of BBUF (R66). -/
theorem byte_writeWindow_bbuf (index : Nat) (v : Word) (s : State) (i : Nat) :
    (writeWindow .bbuf index v s).byte .bbuf i =
      if index ≤ i then ((bytesOfWord v)[i - index]?).getD (s.byte .bbuf i) else s.byte .bbuf i := by
  show ((s.bbuf.writeBytes index (bytesOfWord v)).find i).getD _ = _
  rw [Memory.find_writeBytes]
  split
  · cases (bytesOfWord v)[i - index]? <;> rfl
  · rfl

end Sys2Proof.Machine
end

