-- ==== Sys2Proof/Laws/Commands.lean ====
section
/-! SUPPORT. Once for every shared operation, everything it can do: the command frame (R103), and the functions the
commands are made of (R120 to R122, R140 to R145, R160, R195 to R200). -/

namespace Sys2Proof.Machine

/-- Everything the command frame can do (R103): the three errors it can raise, or completion. -/
theorem runCommand_cases (c : Params) (op : Byte) (readsB : Bool) (body : State → Except CmdError Result) (s : State) :
    (c.bufBytes < s.alen.toNat ∧ runCommand c op readsB body s = raise .capacityExceeded op s)
    ∨ (s.alen.toNat ≤ c.bufBytes ∧ readsB = true ∧ c.bufBytes < s.blen.toNat
        ∧ runCommand c op readsB body s = raise .capacityExceeded op s)
    ∨ (s.alen.toNat ≤ c.bufBytes ∧ (readsB = true → s.blen.toNat ≤ c.bufBytes)
        ∧ ((∃ e, body s = .error e ∧ runCommand c op readsB body s = raise e op s)
          ∨ ∃ r, body s = .ok r ∧ runCommand c op readsB body s = complete op r s)) := by
  unfold runCommand
  by_cases h1 : c.bufBytes < s.alen.toNat
  · exact .inl ⟨h1, by simp [h1]⟩
  · by_cases h2 : readsB = true ∧ c.bufBytes < s.blen.toNat
    · exact .inr (.inl ⟨by omega, h2.1, h2.2, by simp [h1, h2.1, h2.2]⟩)
    · have h3 : (readsB && decide (c.bufBytes < s.blen.toNat)) = false := by
        cases readsB <;> simp_all
      refine .inr (.inr ⟨by omega, fun hb => by_contra fun hn => h2 ⟨hb, by omega⟩, ?_⟩)
      simp only [h1, h3, if_false, Bool.false_eq_true]
      cases h : body s with
      | error e => exact .inl ⟨e, rfl, rfl⟩
      | ok r => exact .inr ⟨r, rfl, rfl⟩

/-- A command whose operands fit and whose rule raises nothing completes (R103, R104). -/
theorem runCommand_ok {c : Params} {op : Byte} {readsB : Bool} {body : State → Except CmdError Result} {s : State}
    {r : Result} (ha : s.alen.toNat ≤ c.bufBytes) (hb : readsB = true → s.blen.toNat ≤ c.bufBytes)
    (h : body s = .ok r) : runCommand c op readsB body s = complete op r s := by
  rcases runCommand_cases c op readsB body s with ⟨h1, _⟩ | ⟨_, h1, h2, _⟩ | ⟨_, _, ⟨e, h1, _⟩ | ⟨r', h1, h2⟩⟩
  · omega
  · have := hb h1; omega
  · rw [h] at h1; cases h1
  · rw [h] at h1; cases h1; exact h2

/-- A command whose operands fit and whose rule raises enters that error (R103, R239). -/
theorem runCommand_error {c : Params} {op : Byte} {readsB : Bool} {body : State → Except CmdError Result} {s : State}
    {e : CmdError} (ha : s.alen.toNat ≤ c.bufBytes) (hb : readsB = true → s.blen.toNat ≤ c.bufBytes)
    (h : body s = .error e) : runCommand c op readsB body s = raise e op s := by
  rcases runCommand_cases c op readsB body s with ⟨h1, _⟩ | ⟨_, h1, h2, _⟩ | ⟨_, _, ⟨e', h1, h2⟩ | ⟨r', h1, _⟩⟩
  · omega
  · have := hb h1; omega
  · rw [h] at h1; cases h1; exact h2
  · rw [h] at h1; cases h1

/-! Padding (R120 to R122). -/

theorem pad_length (s : List Byte) (bs : Nat) :
    (pad s bs).length = if s.length % bs = 0 then s.length else s.length + (bs - s.length % bs) := by
  unfold pad
  split <;> simp

theorem pad_aligned (s : List Byte) (bs : Nat) (h : s.length % bs = 0) : pad s bs = s := by
  simp [pad, h]

theorem pad_length_mod (s : List Byte) (bs : Nat) (h : 0 < bs) : (pad s bs).length % bs = 0 := by
  rw [pad_length s bs]
  split
  · assumption
  · have h1 := Nat.mod_lt s.length h
    have h2 := Nat.div_add_mod s.length bs
    have h3 : s.length + (bs - s.length % bs) = bs * (s.length / bs + 1) := by rw [Nat.mul_add]; omega
    rw [h3, Nat.mul_mod_right]

theorem pad16_length (s : List Byte) : (pad s 16).length = 16 * ((s.length + 15) / 16) := by
  rw [pad_length s 16]
  split <;> omega

theorem pad_getElem? (s : List Byte) (bs i : Nat) :
    (pad s bs)[i]? = if i < s.length then s[i]?
      else if i < (pad s bs).length then some (BitVec.ofNat 8 (bs - s.length % bs)) else none := by
  unfold pad
  split
  · by_cases h : i < s.length
    · simp [h]
    · simp [h]
  · by_cases h : i < s.length
    · simp [h, List.getElem?_append_left h]
    · rw [if_neg h, List.getElem?_append_right (by omega), List.getElem?_replicate, List.length_append,
        List.length_replicate]
      by_cases h2 : i < s.length + (bs - s.length % bs)
      · rw [if_pos h2, if_pos (by omega)]
      · rw [if_neg h2, if_neg (by omega)]

/-- `padded` says what R121 says. -/
theorem padded_iff (s : List Byte) (bs : Nat) : padded s bs = true ↔
    ∃ x, s.getLast? = some x ∧ x.toNat ≠ 0 ∧ x.toNat < s.length ∧ x.toNat < bs
      ∧ ∀ y ∈ s.drop (s.length - x.toNat), y = x := by
  unfold padded
  cases s.getLast? with
  | none => simp
  | some x => simp [and_assoc]

theorem unpad_length_le (s : List Byte) (bs : Nat) : (unpad s bs).length ≤ s.length := by
  unfold unpad
  split <;> simp

/-- `unpad` removes 1 to `bs - 1` bytes and leaves at least one, or changes nothing (R122). -/
theorem unpad_cases (s : List Byte) (bs : Nat) : (padded s bs = false ∧ unpad s bs = s) ∨
    ∃ n, padded s bs = true ∧ 0 < n ∧ n < bs ∧ n < s.length ∧ unpad s bs = s.take (s.length - n) := by
  cases h : padded s bs with
  | false => exact .inl ⟨rfl, by simp [unpad, h]⟩
  | true =>
    obtain ⟨x, h1, h2, h3, h4, _⟩ := (padded_iff s bs).1 h
    exact .inr ⟨x.toNat, rfl, by omega, h4, h3, by simp [unpad, h, h1]⟩

/-! XOR (R140 to R145). -/

@[simp] theorem xorWithKey_length (s k : List Byte) : (xorWithKey s k).length = s.length := by
  simp [xorWithKey]

theorem xorWithKey_getElem (s k : List Byte) (i : Nat) (h : i < (xorWithKey s k).length) :
    (xorWithKey s k)[i] = s[i]'(by simpa using h) ^^^ k.getD (i % k.length) 0 := by
  simp [xorWithKey]

@[simp] theorem xorRollingFrom_length (mode : RollMode) (s : List Byte) : ∀ x y,
    (xorRollingFrom mode x y s).length = s.length := by
  induction s with
  | nil => intro x y; rfl
  | cons z zs ih => intro x y; simp [xorRollingFrom, ih]

@[simp] theorem xorRolling_length (mode : RollMode) (s : List Byte) : (xorRolling mode s).length = s.length := by
  cases s <;> simp [xorRolling]

@[simp] theorem xorCounter_length (inc : Byte) (s : List Byte) : ∀ k, (xorCounter inc k s).length = s.length := by
  induction s with
  | nil => intro k; rfl
  | cons x xs ih => intro k; simp [xorCounter, ih]

/-- A one-byte key is broadcast (R140, R147): a trial of the solver is `xor_with_key` with that key (R195). -/
theorem xorWithKey_singleton (s : List Byte) (k : Byte) : xorWithKey s [k] = trial s k := by
  apply List.ext_getElem
  · simp [trial]
  · intro i h1 h2
    rw [xorWithKey_getElem]
    simp [trial, Nat.mod_one]

/-! Messages (R160). -/

theorem Message.run_phase (each : Block → Block → BlockStep) (n : Nat) (xs : List Block) : ∀ m,
    (Message.run each n xs m).phase = .done := by
  induction xs with
  | nil => intro m; rfl
  | cons x xs ih => intro m; exact ih _

theorem Message.run_blk (each : Block → Block → BlockStep) (n : Nat) (xs : List Block) : ∀ m,
    (Message.run each n xs m).blk = m.blk + xs.length := by
  induction xs with
  | nil => intro m; rfl
  | cons x xs ih => intro m; rw [Message.run, ih]; simp; omega

theorem Message.run_out_length (each : Block → Block → BlockStep) (n : Nat) (xs : List Block) : ∀ m,
    (Message.run each n xs m).out.length = m.out.length + xs.length := by
  induction xs with
  | nil => intro m; rfl
  | cons x xs ih => intro m; rw [Message.run, ih]; simp; omega

@[simp] theorem runMessage_phase (each : Block → Block → BlockStep) (p : Block) (xs : List Block) :
    (runMessage each p xs).phase = .done := Message.run_phase _ _ _ _

@[simp] theorem runMessage_blk (each : Block → Block → BlockStep) (p : Block) (xs : List Block) :
    (runMessage each p xs).blk = xs.length := by
  rw [runMessage, Message.run_blk]; simp [Message.begin]

@[simp] theorem runMessage_out_length (each : Block → Block → BlockStep) (p : Block) (xs : List Block) :
    (runMessage each p xs).out.length = xs.length := by
  rw [runMessage, Message.run_out_length]; simp [Message.begin]

/-- The values of `prev` before each block, and after the last (R169). -/
def prevs (each : Block → Block → BlockStep) : Block → List Block → List Block
  | p, [] => [p]
  | p, x :: xs => p :: prevs each (each p x).prev xs

/-- A message is its blocks taken one by one, each with the `prev` that the blocks before it left (R160, R170). -/
theorem Message.run_eq (each : Block → Block → BlockStep) (n : Nat) (xs : List Block) : ∀ m,
    (Message.run each n xs m).out = m.out ++ List.zipWith (fun p x => (each p x).out) (prevs each m.prev xs) xs
    ∧ (Message.run each n xs m).calls
        = m.calls ++ List.zipWith (fun p x => (each p x).call) (prevs each m.prev xs) xs
    ∧ some (Message.run each n xs m).prev = (prevs each m.prev xs)[xs.length]? := by
  induction xs with
  | nil => intro m; simp [Message.run, prevs]
  | cons x xs ih =>
    intro m
    obtain ⟨h1, h2, h3⟩ := ih
      { phase := if m.blk + 1 < n then .body else .finalBlock
        blk := m.blk + 1
        prev := (each m.prev x).prev
        out := m.out ++ [(each m.prev x).out]
        calls := m.calls ++ [(each m.prev x).call] }
    rw [Message.run]
    exact ⟨by simpa [prevs] using h1, by simpa [prevs] using h2, by simpa [prevs] using h3⟩

@[simp] theorem prevs_length (each : Block → Block → BlockStep) (xs : List Block) : ∀ p,
    (prevs each p xs).length = xs.length + 1 := by
  induction xs with
  | nil => intro p; rfl
  | cons x xs ih => intro p; simp [prevs, ih]

theorem runMessage_out (each : Block → Block → BlockStep) (p : Block) (xs : List Block) :
    (runMessage each p xs).out = List.zipWith (fun q x => (each q x).out) (prevs each p xs) xs := by
  simpa [runMessage, Message.begin] using (Message.run_eq each xs.length xs (Message.begin p)).1

theorem runMessage_calls (each : Block → Block → BlockStep) (p : Block) (xs : List Block) :
    (runMessage each p xs).calls = List.zipWith (fun q x => (each q x).call) (prevs each p xs) xs := by
  simpa [runMessage, Message.begin] using (Message.run_eq each xs.length xs (Message.begin p)).2.1

theorem runMessage_prev (each : Block → Block → BlockStep) (p : Block) (xs : List Block) :
    some (runMessage each p xs).prev = (prevs each p xs)[xs.length]? := by
  simpa [runMessage, Message.begin] using (Message.run_eq each xs.length xs (Message.begin p)).2.2

theorem stripFinal_length_le (p : List Byte) : (stripFinal p).length ≤ p.length := by
  unfold stripFinal
  split
  · exact le_rfl
  · have h := unpad_length_le (p.drop (16 * (p.length / 16 - 1))) 16
    rw [List.length_drop] at h
    rw [List.length_append, List.length_take]
    omega

theorem plaintextOut_length_le (rp : Bool) (p : List Byte) : (plaintextOut rp p).length ≤ p.length := by
  cases rp
  · exact le_rfl
  · exact stripFinal_length_le p

/-! The solver and the estimator (R195 to R200). -/

theorem solveSingleByteXor_length (s : List Byte) : (solveSingleByteXor s).length ≤ 256 := by
  refine (List.length_filter_le _ _).trans ?_
  simp

theorem solveSingleByteXor_mem (s : List Byte) (k : Byte) :
    k ∈ solveSingleByteXor s ↔ looksLikeEnglish (trial s k) = true := by
  have hk : k ∈ (List.range 256).map (BitVec.ofNat 8) :=
    List.mem_map.2 ⟨k.toNat, List.mem_range.2 k.isLt, by simp⟩
  simp [solveSingleByteXor, List.mem_filter, hk]

theorem chunk_length (s : List Byte) (i k : Nat) (h : i + k ≤ s.length) : (chunk s i k).length = k := by
  unfold chunk
  rw [List.length_take, List.length_drop]
  omega

end Sys2Proof.Machine
end

