-- ==== Sys2Proof/Laws/Encoding.lean ====
section
/-! SUPPORT. The fields of a command word (R91), and when a word selects a row of the opcode table, field by field (R97,
R98). -/

namespace Sys2Proof

/-! The fields of a word put together from its fields. -/

theorem joined_op (b a : Byte) (z : BitVec 7) (f : BitVec 1) (op : Byte) :
    (b ++ a ++ z ++ f ++ op).extractLsb' 0 8 = op := by
  ext j hj
  simp only [BitVec.getElem_extractLsb', BitVec.getLsbD_append]
  interval_cases j <;> simp

theorem joined_unused (b a : Byte) (z : BitVec 7) (f : BitVec 1) (op : Byte) :
    (b ++ a ++ z ++ f ++ op).extractLsb' 9 7 = z := by
  ext j hj
  simp only [BitVec.getElem_extractLsb', BitVec.getLsbD_append]
  interval_cases j <;> simp

theorem joined_flag (b a : Byte) (z : BitVec 7) (f : Bool) (op : Byte) :
    (b ++ a ++ z ++ BitVec.ofBool f ++ op).getLsbD 8 = f := by
  simp only [BitVec.getLsbD_append]
  simp

theorem joined_a (b a : Byte) (z : BitVec 7) (f : BitVec 1) (op : Byte) :
    (b ++ a ++ z ++ f ++ op).extractLsb' 16 8 = a := by
  ext j hj
  simp only [BitVec.getElem_extractLsb', BitVec.getLsbD_append]
  interval_cases j <;> simp

theorem joined_b (b a : Byte) (z : BitVec 7) (f : BitVec 1) (op : Byte) :
    (b ++ a ++ z ++ f ++ op).extractLsb' 24 8 = b := by
  ext j hj
  simp only [BitVec.getElem_extractLsb', BitVec.getLsbD_append]
  interval_cases j <;> simp

/-- A word is its fields put together (R91). -/
theorem word_eq_joined (w : Word) :
    w = (w.extractLsb' 24 8 ++ w.extractLsb' 16 8 ++ w.extractLsb' 9 7 ++ BitVec.ofBool (w.getLsbD 8)
      ++ w.extractLsb' 0 8 : BitVec (8 + 8 + 7 + 1 + 8)) := by
  apply BitVec.eq_of_getLsbD_eq
  intro j hj
  simp only [BitVec.getLsbD_append, BitVec.getLsbD_extractLsb']
  interval_cases j <;> simp

/-- Two words are equal when their fields are. -/
theorem joined_inj {b a : Byte} {z : BitVec 7} {f : Bool} {op b' a' : Byte} {z' : BitVec 7} {f' : Bool} {op' : Byte} :
    (b ++ a ++ z ++ BitVec.ofBool f ++ op) = (b' ++ a' ++ z' ++ BitVec.ofBool f' ++ op')
      ↔ b = b' ∧ a = a' ∧ z = z' ∧ f = f' ∧ op = op' := by
  refine ⟨fun h => ⟨?_, ?_, ?_, ?_, ?_⟩, ?_⟩
  · rw [← joined_b b a z (BitVec.ofBool f) op, h, joined_b]
  · rw [← joined_a b a z (BitVec.ofBool f) op, h, joined_a]
  · rw [← joined_unused b a z (BitVec.ofBool f) op, h, joined_unused]
  · rw [← joined_flag b a z f op, h, joined_flag]
  · rw [← joined_op b a z (BitVec.ofBool f) op, h, joined_op]
  · rintro ⟨rfl, rfl, rfl, rfl, rfl⟩; rfl

/-- Which fields a format fixes at zero (R92 to R95), as a mask put together from its fields. -/
theorem mask_joined (m : Format) : m.mask =
    ((if m = .AB then 0 else 0xFF : Byte) ++ (if m = .A ∨ m = .AB then 0 else 0xFF : Byte) ++ (0x7F : BitVec 7)
      ++ BitVec.ofBool (!(decide (m = .F))) ++ (0xFF : Byte) : BitVec (8 + 8 + 7 + 1 + 8)) := by
  cases m <;> decide

/-- R97 field by field: a word selects a row when its opcode is the row's and every field that the row's format does
not use is zero. -/
theorem selects_iff (r : Row) (w : Word) : r.selects w = true ↔
    w.extractLsb' 0 8 = r.op ∧ w.extractLsb' 9 7 = 0 ∧ (r.format ≠ .F → w.getLsbD 8 = false)
      ∧ (r.format ≠ .A → r.format ≠ .AB → w.extractLsb' 16 8 = 0)
      ∧ (r.format ≠ .AB → w.extractLsb' 24 8 = 0) := by
  have hp : r.pattern =
      ((0 : Byte) ++ (0 : Byte) ++ (0 : BitVec 7) ++ BitVec.ofBool false ++ r.op : BitVec (8 + 8 + 7 + 1 + 8)) := by
    unfold Row.pattern
    apply BitVec.eq_of_getLsbD_eq
    intro j hj
    simp only [BitVec.getLsbD_append, BitVec.getLsbD_setWidth]
    interval_cases j <;> simp
  have hz : ∀ z : BitVec 7, z &&& 0x7F = z := by decide
  have ho : ∀ z : Byte, z &&& 0xFF = z := by decide
  have ho' : ∀ z : Byte, z &&& 255#8 = z := ho
  have hf : ∀ x y : Bool, BitVec.ofBool x &&& BitVec.ofBool y = BitVec.ofBool (x && y) := by decide
  unfold Row.selects
  rw [beq_iff_eq, hp, mask_joined]
  conv_lhs => lhs; rw [word_eq_joined w]
  change ((_ ++ _ ++ _ ++ _ ++ _) &&& (_ ++ _ ++ _ ++ _ ++ _) : BitVec (8 + 8 + 7 + 1 + 8)) = _ ↔ _
  rw [BitVec.and_append, BitVec.and_append, BitVec.and_append, BitVec.and_append, hz, ho, hf, joined_inj]
  cases r.format <;> simp [ho'] <;> tauto

/-- The opcodes of the table are distinct (R97). -/
theorem opcodeTable_op_inj : ∀ r ∈ opcodeTable, ∀ q ∈ opcodeTable, r.op = q.op → r = q := by
  simp only [opcodeTable, List.forall_mem_cons, List.not_mem_nil, false_implies, implies_true, and_true]
  simp

/-- A row that a word selects decides its decoding (R98). -/
theorem decode_of_selects {r : Row} {w : Word} (hr : r ∈ opcodeTable) (h : r.selects w = true) :
    decode w = .ok (r.build (fField w) (aField w) (bField w)) := by
  unfold decode
  cases hf : opcodeTable.find? (·.selects w) with
  | none => exact absurd h (List.find?_eq_none.1 hf r hr)
  | some q =>
    have hq := List.mem_of_find?_eq_some hf
    have hs := List.find?_some hf
    have : q = r := opcodeTable_op_inj q hq r hr (((selects_iff q w).1 hs).1.symm.trans ((selects_iff r w).1 h).1)
    rw [this]

/-- The fields of a command's word (R91, R101). -/
theorem encode_op (i : Instr) : opField (encode i) = i.opcode := joined_op _ _ _ _ _

theorem encode_a (i : Instr) : aField (encode i) = i.immA := joined_a _ _ _ _ _

theorem encode_b (i : Instr) : bField (encode i) = i.immB := joined_b _ _ _ _ _

theorem encode_f (i : Instr) : fField (encode i) = i.flag := joined_flag _ _ _ _ _

theorem encode_unused (i : Instr) : (encode i).extractLsb' 9 7 = 0 := joined_unused _ _ _ _ _

end Sys2Proof
end

