-- ==== Sys2Proof/Laws/Ends.lean ====
section
/-! SUPPORT. The two ends of a command (R104, R239) as claims speak of them, and what `exec` and a CMD write can do. -/

namespace Sys2Proof.Machine

/-- STATUS after an error as a number (R28, R239). -/
theorem statusErr_eq_ofNat (e : CmdError) (op : Byte) :
    statusErr e op = BitVec.ofNat 32 (3 + 16 * e.code.toNat + 256 * op.toNat) := by
  revert op
  cases e <;> decide +kernel

/-- STATUS after success as a number (R28, R104). -/
theorem statusOk_eq_ofNat (op : Byte) : statusOk op = BitVec.ofNat 32 (1 + 256 * op.toNat) := by
  revert op
  decide +kernel

/-- Every field of STATUS after an error (R28, R239). -/
theorem statusErr_fields (e : CmdError) (op : Byte) :
    statusErrFlag (statusErr e op) = true ∧ statusDone (statusErr e op) = true ∧ statusLastOp (statusErr e op) = op
    ∧ statusReserved (statusErr e op) = 0 ∧ statusErrCode (statusErr e op) = e.code := by
  revert op
  cases e <;> decide +kernel

/-- Every field of STATUS after success (R28, R104). -/
theorem statusOk_fields (op : Byte) :
    statusErrFlag (statusOk op) = false ∧ statusDone (statusOk op) = true ∧ statusLastOp (statusOk op) = op
    ∧ statusReserved (statusOk op) = 0 ∧ statusErrCode (statusOk op) = 0 := by
  revert op
  decide +kernel

/-- `raise` in the words of claims. -/
theorem raise_eq_errorState (e : CmdError) (op : Byte) (s : State) :
    raise e op s = errorState e.code.toNat op.toNat s := by
  unfold raise errorState
  rw [statusErr_eq_ofNat]

/-- `complete` in the words of claims: its result registers and its frame. -/
theorem complete_completes (op : Byte) (r : Result) (s : State) (h : r.out.length < 2 ^ 32) :
    Completes op.toNat r.out.length s (complete op r s) := by
  have hop := op.isLt
  refine ⟨by rw [complete_status, statusOk_eq_ofNat]; exact Nat.mod_eq_of_lt (by omega), Nat.mod_eq_of_lt h,
    ⟨rfl, rfl, rfl, rfl, rfl, rfl, rfl, rfl, rfl, rfl, rfl, rfl, fun _ => rfl, fun _ => rfl⟩, ⟨rfl, rfl, rfl⟩,
    fun i hi => ?_⟩
  rw [byte_complete_obuf, dif_neg (by omega)]

/-- A byte of OBUF that a completed command has written. -/
theorem byte_complete_of_out {op : Byte} {r : Result} {s : State} {i : Nat} {x : Byte} (h : r.out[i]? = some x) :
    (complete op r s).byte .obuf i = x := by
  obtain ⟨hi, rfl⟩ := List.getElem?_eq_some_iff.1 h
  rw [byte_complete_obuf, dif_pos hi]

theorem operandA_getElem? (s : State) (i : Nat) (h : i < s.alen.toNat) :
    s.operandA[i]? = some (s.byte .abuf i) := by
  rw [List.getElem?_eq_getElem (by simpa using h), operandA_getElem]

theorem operandB_getElem? (s : State) (i : Nat) (h : i < s.blen.toNat) :
    s.operandB[i]? = some (s.byte .bbuf i) := by
  rw [List.getElem?_eq_getElem (by simpa using h), operandB_getElem]

/-- The body of each command (R103 step 3) on the machine that `exec` runs. -/
def commandBody : Instr → State → Except CmdError Result
  | .pad bs => padBody Config.params bs
  | .unpad bs => unpadBody bs
  | .padded bs => paddedBody bs
  | .xorkey => xorkeyBody
  | .xorroll mode => xorrollBody mode
  | .xorctr start inc => xorctrBody start inc
  | .ecbenc => ecbencBody Config.params
  | .ecbdec rp => ecbdecBody Config.params rp
  | .cbcenc => cbcencBody Config.params
  | .cbcdec rp => cbcdecBody Config.params rp
  | .hamming => hammingBody
  | .keysize min max => keysizeBody min max
  | .english => englishBody
  | .solve1 => solve1Body

/-- The commands whose frame checks BLEN (R103 step 2), as a Bool. -/
def checksB (i : Instr) : Bool := i == .xorkey || i == .hamming

/-- `exec` is the command frame with each command's own body (R103). -/
theorem exec_eq_runCommand (i : Instr) (s : State) :
    exec i s = .next (runCommand Config.params i.opcode (checksB i) (commandBody i) s) := by
  cases i <;> rfl

/-- Everything `exec` can do: an error, or completion of what the body yields. -/
theorem exec_cases {i : Instr} {s t : State} (h : exec i s = .next t) :
    (∃ e, t = raise e i.opcode s)
    ∨ ∃ r, commandBody i s = .ok r ∧ s.alen.toNat ≤ Config.bufBytes ∧ t = complete i.opcode r s := by
  rw [exec_eq_runCommand] at h
  injection h with h
  rcases runCommand_cases Config.params i.opcode (checksB i) (commandBody i) s with
    ⟨_, a⟩ | ⟨_, _, _, a⟩ | ⟨a0, _, ⟨e, _, a⟩ | ⟨r, a, b⟩⟩
  · exact .inl ⟨_, h ▸ a⟩
  · exact .inl ⟨_, h ▸ a⟩
  · exact .inl ⟨_, h ▸ a⟩
  · exact .inr ⟨r, a, by simpa using a0, h ▸ b⟩

/-- A command whose declared lengths do not fit (R236 (a), (b)). -/
theorem exec_capacityExceeded {i : Instr} {s : State}
    (h : Config.bufBytes < s.alen.toNat ∨ (checksB i = true ∧ Config.bufBytes < s.blen.toNat)) :
    exec i s = .next (raise .capacityExceeded i.opcode s) := by
  rw [exec_eq_runCommand]
  rcases runCommand_cases Config.params i.opcode (checksB i) (commandBody i) s with
    ⟨_, a⟩ | ⟨_, _, _, a⟩ | ⟨h1, h2, _⟩
  · rw [a]
  · rw [a]
  · rw [Config.params_bufBytes] at h1 h2
    rcases h with h | ⟨h, h3⟩
    · omega
    · have := h2 h
      omega

/-- A command whose declared lengths fit and whose body raises (R103). -/
theorem exec_error {i : Instr} {s : State} {e : CmdError} (ha : s.alen.toNat ≤ Config.bufBytes)
    (hb : checksB i = true → s.blen.toNat ≤ Config.bufBytes) (h : commandBody i s = .error e) :
    exec i s = .next (raise e i.opcode s) := by
  rw [exec_eq_runCommand, runCommand_error (by simpa using ha) (by simpa using hb) h]

/-- A command whose declared lengths fit and whose body yields a result (R103, R104). -/
theorem exec_ok {i : Instr} {s : State} {r : Result} (ha : s.alen.toNat ≤ Config.bufBytes)
    (hb : checksB i = true → s.blen.toNat ≤ Config.bufBytes) (h : commandBody i s = .ok r) :
    exec i s = .next (complete i.opcode r s) := by
  rw [exec_eq_runCommand, runCommand_ok (by simpa using ha) (by simpa using hb) h]

/-! Messages, block by block (R160, R169). -/

theorem prevs_zero (each : Block → Block → BlockStep) (p : Block) (xs : List Block) :
    (prevs each p xs)[0]? = some p := by
  cases xs <;> simp [prevs]

theorem prevs_succ (each : Block → Block → BlockStep) (xs : List Block) : ∀ p j q x,
    (prevs each p xs)[j]? = some q → xs[j]? = some x → (prevs each p xs)[j + 1]? = some (each q x).prev := by
  induction xs with
  | nil => intro p j q x _ h; simp at h
  | cons y ys ih =>
    intro p j q x h1 h2
    cases j with
    | zero =>
      rw [prevs, List.getElem?_cons_zero] at h1
      rw [List.getElem?_cons_zero] at h2
      cases h1
      cases h2
      rw [prevs, List.getElem?_cons_succ]
      exact prevs_zero _ _ _
    | succ j =>
      simp only [prevs, List.getElem?_cons_succ] at h1 h2 ⊢
      exact ih _ _ _ _ h1 h2

/-- The blocks of a sequence that `get` gives byte by byte (R162). -/
theorem blocksOf_eq_blockAt (s : List Byte) (get : Nat → Byte) (h : ∀ i, i < s.length → s[i]? = some (get i)) :
    blocksOf s = (List.range (s.length / 16)).map (blockAt get) := by
  apply List.ext_getElem
  · simp
  · intro j h1 h2
    simp only [blocksOf_length] at h1
    rw [blocksOf_getElem, List.getElem_map, List.getElem_range]
    unfold blockAt
    congr 1
    apply List.ext_getElem
    · simp only [List.length_take, List.length_drop, List.length_map, List.length_range]
      omega
    · intro i h3 h4
      simp only [List.length_map, List.length_range] at h4
      obtain ⟨_, h5⟩ := List.getElem?_eq_some_iff.1 (h (16 * j + i) (by omega))
      simp [h5]

end Sys2Proof.Machine
end

