-- ==== Sys2Proof/Laws/Bus.lean ====
section
/-! SUPPORT. The bus (R62 to R71): where a transaction goes, and the step of each kind of event. -/

namespace Sys2Proof.Machine

/-- A legal access to a register offset (R62, R63). -/
theorem target_register {a : Nat} {r : Reg} (cap : Nat) (h : regMap.lookup a = some r)
    (h1 : (BitVec.ofNat 18 a).toNat = a) (h2 : a % 4 = 0) :
    target cap (BitVec.ofNat 18 a) 0xF = some (.reg r) := by
  unfold target
  rw [h1, if_pos ⟨h2, rfl⟩]
  unfold locate
  rw [h]

theorem target_cmd (cap : Nat) : target cap 0 0xF = some (.reg .cmd) :=
  target_register (a := 0) (r := .cmd) cap rfl rfl rfl

/-- Above the control block no offset is a register's (R63). -/
theorem regMap_lookup_none {a : Nat} (h : 0x10000 ≤ a) : regMap.lookup a = none := by
  rw [List.lookup_eq_none_iff]
  intro p hp
  rw [bne_iff_ne]
  rintro rfl
  revert p
  unfold regMap
  intro p hp h
  simp only [List.mem_cons, List.not_mem_nil, or_false] at hp
  rcases hp with rfl | rfl | rfl | rfl | rfl | rfl | rfl | rfl | rfl | rfl | rfl | rfl | rfl | rfl | rfl | rfl | rfl
    | rfl <;> revert h <;> decide

/-- An offset inside a buffer's window (R63). -/
theorem locate_window (cap i : Nat) (hc : cap ≤ 65536) (buffer : Buf) (hi : i < cap) :
    locate cap (buffer.base + i) = some (.window buffer i) := by
  have hb : 0x10000 ≤ buffer.base + i := by cases buffer <;> simp only [Buf.base] <;> omega
  unfold locate
  rw [regMap_lookup_none hb]
  dsimp only
  unfold windowAt
  cases buffer <;> unfold Buf.base <;> dsimp only
  · rw [if_neg (by omega), if_neg (by omega), if_pos (by omega), if_pos (by omega), Nat.add_sub_cancel_left]
  · rw [if_neg (by omega), if_pos (by omega), if_pos (by omega), Nat.add_sub_cancel_left]
  · rw [if_pos (by omega), if_pos (by omega), Nat.add_sub_cancel_left]

/-- A legal access to word `w` of a buffer's window (R62, R63, R66). -/
theorem target_window (buffer : Buf) (w : Nat) (h : 4 * w < Config.bufBytes) :
    target Config.params.bufBytes (BitVec.ofNat 18 (buffer.base + 4 * w)) 0xF = some (.window buffer (4 * w)) := by
  have hb := Config.bufBytes_le
  have e : (BitVec.ofNat 18 (buffer.base + 4 * w)).toNat = buffer.base + 4 * w := by
    rw [BitVec.toNat_ofNat, Nat.mod_eq_of_lt]
    cases buffer <;> simp only [Buf.base] <;> omega
  unfold target
  rw [e, if_pos ⟨by cases buffer <;> simp only [Buf.base] <;> omega, rfl⟩, Config.params_bufBytes]
  exact locate_window _ _ hb buffer h

/-- The word of a window that a legal access names lies inside the buffer (R69). -/
theorem target_window_index {cap : Nat} {addr : Address} {be : BitVec 4} {buffer : Buf} {i : Nat} (hc : cap % 16 = 0)
    (h : target cap addr be = some (.window buffer i)) : i % 4 = 0 ∧ i + 4 ≤ cap := by
  unfold target at h
  split at h
  · next h0 =>
    unfold locate at h
    split at h
    · cases h
    · unfold windowAt at h
      have h1 := h0.1
      split at h
      · split at h
        · simp only [Option.some.injEq, Loc.window.injEq] at h
          omega
        · cases h
      · split at h
        · split at h
          · simp only [Option.some.injEq, Loc.window.injEq] at h
            omega
          · cases h
        · split at h
          · split at h
            · simp only [Option.some.injEq, Loc.window.injEq] at h
              omega
            · cases h
          · cases h
  · cases h

/-- The step that takes a legal read (R64). -/
theorem step_read {s : State} {addr : Address} {be : BitVec 4} {rest : List HostEvent} {l : Loc}
    (h : s.host = .transaction (.read addr be) :: rest) (hl : target Config.params.bufBytes addr be = some l) :
    step s = .next ((s.taking rest).respond (readDone (readLoc l (s.taking rest)))) := by
  unfold step
  rw [h]
  dsimp only
  unfold hostEvent transact
  dsimp only
  rw [hl]
  rfl

/-- The step that takes a legal write of a location other than CMD (R65). -/
theorem step_write {s : State} {addr : Address} {be : BitVec 4} {v : Word} {rest : List HostEvent} {l : Loc}
    (h : s.host = .transaction (.write addr be v) :: rest) (hl : target Config.params.bufBytes addr be = some l)
    (hc : l ≠ .reg .cmd) : step s = .next ((writeLoc l v (s.taking rest)).respond writeDone) := by
  unfold step
  rw [h]
  dsimp only
  unfold hostEvent transact
  dsimp only
  rw [hl]
  split
  · next h1 => cases h1
  · next h1 => cases h1; exact absurd rfl hc
  · next h1 => cases h1; rfl

/-- What `execCommand` can do (R98, R103): IllegalCommand, an error of the decoded command, or its completion. -/
theorem execCommand_cases (w : Word) (s : State) :
    (∃ e, decode w = .error e ∧ execCommand w s = .next (raise .illegalCommand (opField w) s))
    ∨ (∃ i e, decode w = .ok i ∧ execCommand w s = .next (raise e i.opcode s))
    ∨ ∃ i r, decode w = .ok i ∧ commandBody i s = .ok r ∧ s.alen.toNat ≤ Config.bufBytes
        ∧ execCommand w s = .next (complete i.opcode r s) := by
  unfold execCommand
  cases h : decode w with
  | error e => exact .inl ⟨e, rfl, rfl⟩
  | ok i =>
    dsimp only
    rcases exec_cases (exec_eq_runCommand i s) with ⟨e, he⟩ | ⟨r, h1, h2, he⟩
    · exact .inr (.inl ⟨i, e, rfl, by rw [exec_eq_runCommand, he]⟩)
    · exact .inr (.inr ⟨i, r, rfl, h1, h2, by rw [exec_eq_runCommand, he]⟩)

end Sys2Proof.Machine
end

