-- ==== Sys2Proof/Laws/PerInstr.lean ====
section
/-! SUPPORT. One lemma for every command: the fields of R91 read from its word are its opcode, its flag and its
immediates (zero where its format has none), and bits 15:9 are zero (R92 to R97). -/

namespace Sys2Proof.Laws.Fields

def Statement (i : Instr) : Prop :=
  opField (encode i) = i.opcode ∧ fField (encode i) = i.flag ∧ aField (encode i) = i.immA
    ∧ bField (encode i) = i.immB ∧ (encode i).extractLsb' 9 7 = 0

theorem of_joined (i : Instr) : Statement i :=
  ⟨joined_op _ _ _ _ _, joined_flag _ _ _ _ _, joined_a _ _ _ _ _, joined_b _ _ _ _ _, joined_unused _ _ _ _ _⟩

theorem pad (bs : Byte) : Statement (.pad bs) := of_joined _

theorem unpad (bs : Byte) : Statement (.unpad bs) := of_joined _

theorem padded (bs : Byte) : Statement (.padded bs) := of_joined _

theorem xorkey : Statement (.xorkey) := of_joined _

theorem xorroll (mode : RollMode) : Statement (.xorroll mode) := of_joined _

theorem xorctr (start inc : Byte) : Statement (.xorctr start inc) := of_joined _

theorem ecbenc : Statement (.ecbenc) := of_joined _

theorem ecbdec (rp : Bool) : Statement (.ecbdec rp) := of_joined _

theorem cbcenc : Statement (.cbcenc) := of_joined _

theorem cbcdec (rp : Bool) : Statement (.cbcdec rp) := of_joined _

theorem hamming : Statement (.hamming) := of_joined _

theorem keysize (min max : Byte) : Statement (.keysize min max) := of_joined _

theorem english : Statement (.english) := of_joined _

theorem solve1 : Statement (.solve1) := of_joined _

end Sys2Proof.Laws.Fields
end

