-- ==== Sys2Proof/Tests/Slice0.lean ====
section
/-! SUPPORT. Tests with results from the spec (95_test_vectors.md and the rules' own examples), the smoke tests of
well-formedness, and for every statement with hypotheses a state and operands that meet them. -/

namespace Sys2Proof.Tests

open Sys2Proof.Machine

-- One theorem after the other: the many small evaluations below would otherwise each hold a thread.
set_option Elab.async false

/-! ## Helpers -/

/-- The toy primitive T of 95_test_vectors.md, with the recommended capacity of R5. -/
def toy : Params where
  bufBytes := 4096
  enc := fun x k => (x ^^^ k).rotateRight 8
  dec := fun y k => y.rotateLeft 8 ^^^ k

/-- The reset state after the host has loaded operand A. -/
def holding (a : List Byte) : State :=
  { State.reset with abuf := Memory.fill [] a, alen := BitVec.ofNat 32 a.length }

/-- The same with operand B as well. -/
def holding2 (a b : List Byte) : State :=
  { holding a with bbuf := Memory.fill [] b, blen := BitVec.ofNat 32 b.length }

/-- With the key TK and the IV IV2 of 95_test_vectors.md. -/
def keyed (s : State) : State :=
  { s with
    key0 := 0x13121110, key1 := 0x17161514, key2 := 0x1B1A1918, key3 := 0x1F1E1D1C, klen := 16
    iv0 := 0xA3A2A1A0, iv1 := 0xA7A6A5A4, iv2 := 0xABAAA9A8, iv3 := 0xAFAEADAC, ivlen := 16 }

/-- The reset state with declared lengths and a declared key and IV length. -/
def sized (a b k v : Nat) : State :=
  { State.reset with
    alen := BitVec.ofNat 32 a, blen := BitVec.ofNat 32 b, klen := BitVec.ofNat 32 k, ivlen := BitVec.ofNat 32 v }

/-- The reset state with one event presented. -/
def presented (e : HostEvent) : State := { State.reset with host := [e] }

/-- The next state, where there is one. -/
def nextOf : Outcome → Option State
  | .next t => some t
  | .fault _ => none
  | .refused _ => none

theorem eq_next_of_nextOf {o : Outcome} {t : State} (h : nextOf o = some t) : o = .next t := by
  cases o with
  | next u => cases h; rfl
  | fault f => cases h
  | refused r => cases h

theorem sized_alen {a : Nat} (b k v : Nat) (h : a < 2 ^ 32) : (sized a b k v).alen.toNat = a :=
  Nat.mod_eq_of_lt h

theorem sized_blen {b : Nat} (a k v : Nat) (h : b < 2 ^ 32) : (sized a b k v).blen.toNat = b :=
  Nat.mod_eq_of_lt h

/-- The largest length that fits a buffer, as a declared length of A. -/
theorem alen_full (b k v : Nat) : (sized Config.bufBytes b k v).alen.toNat = Config.bufBytes :=
  sized_alen b k v (Config.bufBytes_le.trans_lt (by decide))

/-- The smallest length that does not fit. -/
theorem alen_over (b k v : Nat) : Config.bufBytes < (sized (Config.bufBytes + 1) b k v).alen.toNat := by
  have h := Config.bufBytes_le
  rw [sized_alen b k v (by omega)]
  omega

def msg2 : List Byte :=
  [0x41, 0x42, 0x43, 0x44, 0x45, 0x46, 0x47, 0x48, 0x49, 0x4A, 0x4B, 0x4C, 0x4D, 0x4E, 0x4F, 0x50,
   0x51, 0x52, 0x53, 0x54, 0x55]

/-- The ciphertext of V-BM1. -/
def ecb1 : List Byte :=
  [0x53, 0x51, 0x57, 0x51, 0x53, 0x51, 0x5F, 0x51, 0x53, 0x51, 0x57, 0x51, 0x53, 0x51, 0x4F, 0x51,
   0x43, 0x41, 0x47, 0x41, 0x1E, 0x1D, 0x1C, 0x13, 0x12, 0x11, 0x10, 0x17, 0x16, 0x15, 0x14, 0x41]

/-- The ciphertext of V-BM3. -/
def cbc3 : List Byte :=
  [0xF2, 0xF3, 0xF4, 0xF5, 0xF6, 0xF7, 0xF8, 0xF9, 0xFA, 0xFB, 0xFC, 0xFD, 0xFE, 0xFF, 0xE0, 0xF1,
   0xB0, 0xB5, 0xB2, 0xB7, 0xE9, 0xE5, 0xE5, 0xE9, 0xE9, 0xED, 0xED, 0xE9, 0xE9, 0xF5, 0xE5, 0xB3]

/-! ## Well-formedness: one ill-formed line for each check -/

theorem test_ill_formed_byte : (AsmLine.pad (some 256)).wellFormed = false := by decide

theorem test_ill_formed_increment_high : (AsmLine.xorctr (some 0) (some 256)).wellFormed = false := by decide

theorem test_ill_formed_increment_low : (AsmLine.xorctr (some 0) (some (-129))).wellFormed = false := by decide

theorem test_ill_formed_increment_alone : (AsmLine.xorctr none (some 1)).wellFormed = false := by decide

theorem test_ill_formed_range : (AsmLine.keysize (some (2, 256))).wellFormed = false := by decide

/-! ## Decoding: V-DC1, one word of every constructor, and V-DC2 -/

theorem test_decode_pad : decode 0x00100001 = .ok (.pad 16) := by decide

theorem test_decode_unpad : decode 0x00FF0002 = .ok (.unpad 255) := by decide

theorem test_decode_padded : decode 0x00000003 = .ok (.padded 0) := by decide

theorem test_decode_xorkey : decode 0x00000010 = .ok .xorkey := by decide

theorem test_decode_xorroll : decode 0x00000111 = .ok (.xorroll .outputDifferential) := by decide

theorem test_decode_xorctr : decode 0xFF010012 = .ok (.xorctr 1 255) := by decide

theorem test_decode_ecbenc : decode 0x00000020 = .ok .ecbenc := by decide

theorem test_decode_ecbdec : decode 0x00000021 = .ok (.ecbdec false) := by decide

theorem test_decode_cbcenc : decode 0x00000022 = .ok .cbcenc := by decide

theorem test_decode_cbcdec : decode 0x00000123 = .ok (.cbcdec true) := by decide

theorem test_decode_hamming : decode 0x00000030 = .ok .hamming := by decide

theorem test_decode_keysize : decode 0x28020031 = .ok (.keysize 2 40) := by decide

theorem test_decode_english : decode 0x00000032 = .ok .english := by decide

theorem test_decode_solve1 : decode 0x00000033 = .ok .solve1 := by decide

theorem test_decode_unknown : [0x00000000, 0x00000034, 0x000000FF, 0x00000004, 0x00000024, 0x00000013].map decode
    = [.error (.unknownOpcode 0x00), .error (.unknownOpcode 0x34), .error (.unknownOpcode 0xFF),
       .error (.unknownOpcode 0x04), .error (.unknownOpcode 0x24), .error (.unknownOpcode 0x13)] := by decide

theorem test_decode_unused_field : [0x00000120, 0x00010010, 0x00100101, 0x01100001, 0x00000211, 0x00008033].map decode
    = [.error (.unusedFieldNonzero 0x20), .error (.unusedFieldNonzero 0x10), .error (.unusedFieldNonzero 0x01),
       .error (.unusedFieldNonzero 0x01), .error (.unusedFieldNonzero 0x11), .error (.unusedFieldNonzero 0x33)] := by
  decide

/-- R101's examples. -/
theorem test_assemble : (AsmLine.xorctr (some 1) (some (-1))).assemble.map encode = some 0xFF010012
    ∧ (AsmLine.keysize (some (2, 40))).assemble.map encode = some 0x28020031 := by decide

/-! ## Commands: V-PD, V-XR, V-BM, V-HM, V-KS, V-EN, V-SV -/

theorem test_pad : (padCommand toy 5 (holding [0x61, 0x62, 0x63])).output = [0x61, 0x62, 0x63, 2, 2] := by
  decide +kernel

theorem test_pad_zero : (padCommand toy 0 (holding [0x61])).status = 0x00000113 := by decide +kernel

theorem test_unpad : (unpadCommand toy 16 (holding [0x41, 2, 2])).output = [0x41] := by decide +kernel

theorem test_unpad_last_byte_too_large :
    (unpadCommand toy 16 (holding (List.replicate 16 0x10))).output = List.replicate 16 0x10 := by decide +kernel

theorem test_padded : (paddedCommand toy 16 (holding [0x41, 2, 2])).res0 = 1 := by decide +kernel

theorem test_padded_too_short : (paddedCommand toy 16 (holding [2, 2])).res0 = 0 := by decide +kernel

theorem test_xorkey : (xorkeyCommand toy (holding2 [0x48, 0x65, 0x6C, 0x6C, 0x6F] [0x61, 0x62])).output
    = [0x29, 0x07, 0x0D, 0x0E, 0x0E] := by decide +kernel

theorem test_xorkey_empty : (xorkeyCommand toy (holding [])).status = 0x00001013 := by decide +kernel

theorem test_xorroll_in : (xorrollCommand toy .inputDifferential (holding [1, 2, 3, 4, 0x80, 0xFF])).output
    = [1, 3, 1, 7, 0x84, 0x7F] := by decide +kernel

theorem test_xorroll_out : (xorrollCommand toy .outputDifferential (holding [1, 2, 3, 4, 0x80, 0xFF])).output
    = [1, 3, 0, 4, 0x84, 0x7B] := by decide +kernel

theorem test_xorctr_up : (xorctrCommand toy 0xFE 3 (holding [0, 0, 0, 0, 0])).output = [0xFE, 1, 4, 7, 0x0A] := by
  decide +kernel

theorem test_xorctr_down : (xorctrCommand toy 1 0xFF (holding [0, 0, 0, 0])).output = [1, 0, 0xFF, 0xFE] := by
  decide +kernel

theorem test_ecbenc : (ecbencCommand toy (keyed (holding msg2))).output = ecb1 := by decide +kernel

theorem test_ecbenc_key_length : (ecbencCommand toy (holding msg2)).status = 0x00002023
    ∧ (ecbencCommand toy (holding msg2)).trace = [] := by decide +kernel

theorem test_ecbdec : (ecbdecCommand toy true (keyed (holding ecb1))).output = msg2 := by decide +kernel

theorem test_ecbdec_unaligned : (ecbdecCommand toy true (keyed (holding (List.replicate 17 0)))).status = 0x00002113 := by
  decide +kernel

theorem test_cbcenc : (cbcencCommand toy (keyed (holding msg2))).output = cbc3 := by decide +kernel

theorem test_cbcenc_iv_length : (cbcencCommand toy { keyed (holding msg2) with ivlen := 8 }).status = 0x00002233 := by
  decide +kernel

theorem test_cbcdec : (cbcdecCommand toy false (keyed (holding cbc3))).output
    = msg2 ++ List.replicate 11 0x0B := by decide +kernel

/-- V-BM5: a wrong IV corrupts only block 0. -/
theorem test_cbcdec_wrong_iv :
    ((cbcdecCommand toy true { keyed (holding cbc3) with iv0 := 0, iv1 := 0, iv2 := 0, iv3 := 0 }).output).drop 16
    = [0x51, 0x52, 0x53, 0x54, 0x55] := by decide +kernel

/-- V-HM1: "this is a test" against "wokka wokka!!!". -/
theorem test_hamming : (hammingCommand toy (holding2
      [0x74, 0x68, 0x69, 0x73, 0x20, 0x69, 0x73, 0x20, 0x61, 0x20, 0x74, 0x65, 0x73, 0x74]
      [0x77, 0x6F, 0x6B, 0x6B, 0x61, 0x20, 0x77, 0x6F, 0x6B, 0x6B, 0x61, 0x21, 0x21, 0x21])).res0 = 37 := by
  decide +kernel

theorem test_hamming_common_length : (hammingCommand toy (holding2 [0xFF, 0, 0x0F] [0])).res0 = 8 := by decide +kernel

theorem test_keysize : ((keysizeCommand toy 2 40 (holding [1, 2, 3, 4, 5])).res0,
    (keysizeCommand toy 2 40 (holding [1, 2, 3, 4, 5])).res1,
    (keysizeCommand toy 2 40 (holding [1, 2, 3, 4, 5])).res2) = (2, 3, 2) := by decide +kernel

theorem test_keysize_too_short : (keysizeCommand toy 2 40 (holding [0, 0, 0])).status = 0x00003143 := by
  decide +kernel

/-- "This is a test". -/
theorem test_english : (englishCommand toy (holding
      [0x54, 0x68, 0x69, 0x73, 0x20, 0x69, 0x73, 0x20, 0x61, 0x20, 0x74, 0x65, 0x73, 0x74])).res0 = 1 := by
  decide +kernel

/-- "Hello, World!". -/
theorem test_english_punctuation : (englishCommand toy (holding
      [0x48, 0x65, 0x6C, 0x6C, 0x6F, 0x2C, 0x20, 0x57, 0x6F, 0x72, 0x6C, 0x64, 0x21])).res0 = 0 := by
  decide +kernel

/-- R196: the 32 keys of the one-byte message 00. -/
theorem test_solve1 : (solve1Command toy (holding [0])).output
    = [0x09, 0x0A, 0x0B, 0x0C, 0x0D, 0x20] ++ (List.range 26).map (fun i => BitVec.ofNat 8 (0x61 + i)) := by
  decide +kernel

theorem test_solve1_count : (solve1Command toy (holding [0])).olen = 32 ∧ (solve1Command toy (holding [0])).res0 = 32 := by
  decide +kernel

/-! ## The bus and the step: V-BUS1, V-BUS2, V-RS1, V-BM12 -/

/-- A partial write aimed at CMD runs no command. -/
theorem test_bus_partial_command : nextOf (step (presented (.transaction (.write 0 1 0x20))))
    = some { State.reset with responses := [⟨true, some 0⟩] } := by decide +kernel

theorem test_bus_unmapped : nextOf (step (presented (.transaction (.read 0x0001C 0xF))))
    = some { State.reset with responses := [⟨true, some 0⟩] } := by decide +kernel

theorem test_bus_length_register : nextOf (step (presented (.transaction (.write 0x00008 0xF 0xDEADBEEF))))
    = some { State.reset with alen := 0xDEADBEEF, responses := [⟨false, none⟩] } := by decide +kernel

theorem test_bus_read_only : nextOf (step (presented (.transaction (.write 0x00004 0xF 0xFFFFFFFF))))
    = some { State.reset with responses := [⟨false, none⟩] } := by decide +kernel

theorem test_first_command_ecbenc : nextOf (step (State.reset.withFetchWord 32 0x20))
    = some { State.reset with status := 0x00002023, responses := [⟨false, none⟩] } := by decide +kernel

theorem test_first_command_english : nextOf (step (State.reset.withFetchWord 32 0x32))
    = some { State.reset with status := 0x00003201, res0 := 1, responses := [⟨false, none⟩] } := by decide +kernel

/-- R68's example: "YELLOW SUBMARINE" in KEY0 to KEY3. -/
theorem test_key_order : bytesOfBlock
      { State.reset with key0 := 0x4C4C4559, key1 := 0x5320574F, key2 := 0x414D4255, key3 := 0x454E4952 }.key
    = [0x59, 0x45, 0x4C, 0x4C, 0x4F, 0x57, 0x20, 0x53, 0x55, 0x42, 0x4D, 0x41, 0x52, 0x49, 0x4E, 0x45] := by
  decide +kernel

/-- The first lines of P2: the words of LOADKEY TK. -/
theorem test_script_loadkey : (ScriptLine.loadKey ((List.range 16).map (fun i => BitVec.ofNat 8 (0x10 + i)))).expand
    = some [.write 0x00040 0xF 0x13121110, .write 0x00044 0xF 0x17161514, .write 0x00048 0xF 0x1B1A1918,
      .write 0x0004C 0xF 0x1F1E1D1C, .write 0x00014 0xF 16] := by decide +kernel

/-- P1: the last word of LOAD A of "o, World!" has 00 in its missing lanes. -/
theorem test_script_load : (ScriptLine.loadA [0x6F, 0x72, 0x6C, 0x64, 0x21]).expand
    = some [.write 0x10000 0xF 0x646C726F, .write 0x10004 0xF 0x00000021, .write 0x00008 0xF 5] := by decide +kernel

/-! ## Witnesses: the hypotheses of the statements can be met -/

theorem witness_LegalWordIsItsEncoding : decode 0xFF010012 = .ok (.xorctr 1 255) := by decide

theorem witness_DecodeFollowsOpcodeTable :
    (∃ r ∈ opcodeTable, r.selects 0x00000123 = true) ∧ (∃ r ∈ opcodeTable, r.op = (0x00000323 : Word).extractLsb' 0 8) := by
  decide

theorem witness_EncodingIsSumOfFields :
    (0 < 256 ∧ (-128 : Int) ≤ -128 ∧ (-128 : Int) ≤ 255) ∧ (255 < 256 ∧ (-128 : Int) ≤ 255 ∧ (255 : Int) ≤ 255) := by decide

theorem witness_PadAppendsPaddingBytes :
    ((List.replicate 255 (7 : Byte)).length % 255 = 0 ∧ 1 ≤ 255 ∧ 255 ≤ 255)
    ∧ ([7, 7, 7] : List Byte).length % 2 ≠ 0 ∧ ([7] : List Byte).length % 1 = 0 := by decide +kernel

theorem witness_PaddedIsValidPadding : padded [0x41, 1] 2 = true ∧ padded [0x41, 1] 1 = false ∧ padded [] 255 = false := by
  decide

theorem witness_UnpadRemovesValidPadding : padded [0x41, 2, 2] 255 = true ∧ padded [2, 2] 255 = false := by decide

theorem witness_UnpadUndoesPadExactly :
    ([0x41, 0x42, 0x43] : List Byte).length % 2 ≠ 0 ∧ padded [0x41, 1] 2 = true := by decide

theorem witness_XorWithKeyBytes : ([0x61, 0x62] : List Byte) ≠ [] ∧ ([0x48, 0x65, 0x6C] : List Byte)[2]? = some 0x6C
    ∧ ([0x61, 0x62] : List Byte)[2 % 2]? = some 0x61 := by decide

theorem witness_XorRollingRecurrence : ([1, 2] : List Byte)[0]? = some 1 ∧ ([1, 2] : List Byte)[0 + 1]? = some 2
    ∧ (xorRolling .outputDifferential [1, 2])[0]? = some 1 := by decide

theorem witness_XorCounterClosedForm : ([5, 6] : List Byte)[1]? = some 6 := by decide

theorem witness_HammingDistanceSum : ([] : List Byte) = [] ∨ ([1] : List Byte) = [] := by decide

/-- R125's clauses: both block sizes at the ends, an output that just fits and one that just does not. -/
theorem witness_PadCommandRule :
    Config.bufBytes < (sized (Config.bufBytes + 1) 0 0 0).alen.toNat
    ∧ (sized Config.bufBytes 0 0 0).alen.toNat ≤ Config.bufBytes
    ∧ ((1 : Byte) ≠ 0 ∧ (sized Config.bufBytes 0 0 0).alen.toNat % (1 : Byte).toNat = 0)
    ∧ (∃ bs : Byte, bs ≠ 0 ∧ (sized Config.bufBytes 0 0 0).alen.toNat % bs.toNat ≠ 0
        ∧ Config.bufBytes < (sized Config.bufBytes 0 0 0).alen.toNat
            + (bs.toNat - (sized Config.bufBytes 0 0 0).alen.toNat % bs.toNat))
    ∧ ((sized 1 0 0 0).alen.toNat % (255 : Byte).toNat ≠ 0
        ∧ (sized 1 0 0 0).alen.toNat + ((255 : Byte).toNat - (sized 1 0 0 0).alen.toNat % (255 : Byte).toNat)
          ≤ Config.bufBytes) := by
  have h := Config.bufBytes_bounds
  refine ⟨alen_over 0 0 0, (alen_full 0 0 0).le, ⟨by decide, Nat.mod_one _⟩, ?_, ⟨by decide, Config.le_bufBytes (by decide)⟩⟩
  rw [alen_full 0 0 0]
  by_cases h1 : Config.bufBytes % 255 = 0
  · exact ⟨251, by decide, show Config.bufBytes % 251 ≠ 0 by omega, show _ < _ + (251 - Config.bufBytes % 251) by omega⟩
  · exact ⟨255, by decide, h1, show _ < _ + (255 - Config.bufBytes % 255) by omega⟩

theorem witness_UnpadCommandRule :
    Config.bufBytes < (sized (Config.bufBytes + 1) 0 0 0).alen.toNat
    ∧ (sized Config.bufBytes 0 0 0).alen.toNat ≤ Config.bufBytes ∧ (0 : Byte) = 0 ∧ (255 : Byte) ≠ 0 ∧ (1 : Byte) ≠ 0 :=
  ⟨alen_over 0 0 0, (alen_full 0 0 0).le, rfl, by decide, by decide⟩

theorem witness_PaddedCommandRule :
    Config.bufBytes < (sized (Config.bufBytes + 1) 0 0 0).alen.toNat
    ∧ (sized Config.bufBytes 0 0 0).alen.toNat ≤ Config.bufBytes ∧ (0 : Byte) = 0 ∧ (255 : Byte) ≠ 0
    ∧ EndsInPadding ((holding [0x41, 1]).byte .abuf) (holding [0x41, 1]).alen.toNat 2
    ∧ ¬ EndsInPadding ((holding [0x41, 1]).byte .abuf) (holding [0x41, 1]).alen.toNat 1 := by
  refine ⟨alen_over 0 0 0, (alen_full 0 0 0).le, rfl, by decide, ?_, ?_⟩
  · refine ⟨by decide, by decide, by decide, by decide, fun i h1 h2 => ?_⟩
    have h1' : 1 ≤ i := h1
    have h2' : i < 2 := h2
    obtain rfl : i = 1 := by omega
    decide
  · rintro ⟨_, h1, _, h2, _⟩
    omega

theorem witness_XorkeyCommandRule :
    Config.bufBytes < (sized (Config.bufBytes + 1) 1 0 0).alen.toNat
    ∧ Config.bufBytes < (sized 0 (Config.bufBytes + 1) 0 0).blen.toNat
    ∧ ((sized Config.bufBytes 0 0 0).alen.toNat ≤ Config.bufBytes ∧ (sized Config.bufBytes 0 0 0).blen.toNat ≤ Config.bufBytes
        ∧ (sized Config.bufBytes 0 0 0).blen = 0)
    ∧ ((sized 5 Config.bufBytes 0 0).alen.toNat ≤ Config.bufBytes
        ∧ (sized 5 Config.bufBytes 0 0).blen.toNat ≤ Config.bufBytes ∧ (sized 5 Config.bufBytes 0 0).blen ≠ 0) := by
  have h := Config.bufBytes_bounds
  have hb := sized_blen 5 0 0 (b := Config.bufBytes) (by omega)
  refine ⟨alen_over 1 0 0, ?_, ⟨(alen_full 0 0 0).le, Nat.zero_le _, rfl⟩, ⟨Config.le_bufBytes (by decide), hb.le, ?_⟩⟩
  · rw [sized_blen 0 0 0 (by omega)]
    omega
  · intro h0
    rw [h0] at hb
    have h1 : (0 : Word).toNat = 0 := rfl
    omega

theorem witness_XorrollCommandRule :
    Config.bufBytes < (sized (Config.bufBytes + 1) 0 0 0).alen.toNat
    ∧ ((sized Config.bufBytes 0 0 0).alen.toNat ≤ Config.bufBytes ∧ 0 < (sized Config.bufBytes 0 0 0).alen.toNat
        ∧ 0 + 1 < (sized Config.bufBytes 0 0 0).alen.toNat) := by
  have h := Config.bufBytes_bounds
  have e := alen_full 0 0 0
  exact ⟨alen_over 0 0 0, by omega, by omega, by omega⟩

theorem witness_XorctrCommandRule :
    Config.bufBytes < (sized (Config.bufBytes + 1) 0 0 0).alen.toNat
    ∧ ((sized Config.bufBytes 0 0 0).alen.toNat ≤ Config.bufBytes ∧ 0 < (sized Config.bufBytes 0 0 0).alen.toNat) := by
  have h := Config.bufBytes_bounds
  have e := alen_full 0 0 0
  exact ⟨alen_over 0 0 0, by omega, by omega⟩

/-- The four block-mode rules: the clauses of R161 one after the other, lengths at their boundaries. -/
theorem witness_BlockModeCommandRules :
    Config.bufBytes < (sized (Config.bufBytes + 1) 0 16 16).alen.toNat
    ∧ (sized Config.bufBytes 0 15 16).alen.toNat ≤ Config.bufBytes ∧ (sized Config.bufBytes 0 15 16).klen ≠ 16
    ∧ (sized 1 0 17 16).klen ≠ 16
    ∧ ((sized 0 0 16 15).klen = 16 ∧ (sized 0 0 16 15).ivlen ≠ 16 ∧ (sized 0 0 16 17).ivlen ≠ 16)
    ∧ ((sized 17 0 16 16).klen = 16 ∧ (sized 17 0 16 16).ivlen = 16 ∧ (sized 17 0 16 16).alen.toNat % 16 ≠ 0
        ∧ (sized 17 0 16 16).alen.toNat ≤ Config.bufBytes)
    ∧ ((sized Config.bufBytes 0 16 16).klen = 16 ∧ (sized Config.bufBytes 0 16 16).ivlen = 16
        ∧ (sized Config.bufBytes 0 16 16).alen.toNat % 16 = 0
        ∧ (sized Config.bufBytes 0 16 16).alen.toNat ≤ Config.bufBytes ∧ 0 < paddedBlocks (sized Config.bufBytes 0 16 16)) := by
  have h := Config.bufBytes_bounds
  have e := alen_full 0 16 16
  refine ⟨alen_over 0 16 16, (alen_full 0 15 16).le, by show (15 : Word) ≠ 16; decide, by decide, by decide, ?_, ?_⟩
  · exact ⟨rfl, rfl, by decide, Config.le_bufBytes (by decide)⟩
  · unfold paddedBlocks
    exact ⟨rfl, rfl, by omega, by omega, by omega⟩

theorem witness_HammingCommandRule :
    Config.bufBytes < (sized (Config.bufBytes + 1) 0 0 0).alen.toNat
    ∧ Config.bufBytes < (sized 0 (Config.bufBytes + 1) 0 0).blen.toNat
    ∧ ((sized Config.bufBytes 3 0 0).alen.toNat ≤ Config.bufBytes ∧ (sized Config.bufBytes 3 0 0).blen.toNat ≤ Config.bufBytes) := by
  have h := Config.bufBytes_bounds
  refine ⟨alen_over 0 0 0, ?_, (alen_full 3 0 0).le, Config.le_bufBytes (by decide)⟩
  rw [sized_blen 0 0 0 (by omega)]
  omega

theorem witness_KeysizeCommandRule :
    Config.bufBytes < (sized (Config.bufBytes + 1) 0 0 0).alen.toNat
    ∧ ((1 : Byte).toNat < 2 ∧ (4 : Byte).toNat < (5 : Byte).toNat)
    ∧ (2 ≤ (2 : Byte).toNat ∧ (2 : Byte).toNat ≤ (255 : Byte).toNat ∧ (sized 3 0 0 0).alen.toNat < 2 * (2 : Byte).toNat
        ∧ (sized 3 0 0 0).alen.toNat ≤ Config.bufBytes)
    ∧ (2 * (2 : Byte).toNat ≤ (sized 4 0 0 0).alen.toNat ∧ (sized 4 0 0 0).alen.toNat ≤ Config.bufBytes)
    ∧ (2 ≤ (255 : Byte).toNat ∧ (255 : Byte).toNat ≤ (255 : Byte).toNat ∧ (sized 256 0 0 0).alen.toNat < 2 * (255 : Byte).toNat
        ∧ (sized 256 0 0 0).alen.toNat ≤ Config.bufBytes)
    ∧ (2 * (128 : Byte).toNat ≤ (sized 256 0 0 0).alen.toNat ∧ (128 : Byte).toNat ≤ (129 : Byte).toNat) := by
  refine ⟨alen_over 0 0 0, by decide, ⟨by decide, by decide, by decide, Config.le_bufBytes (by decide)⟩,
    ⟨by decide, Config.le_bufBytes (by decide)⟩, ⟨by decide, by decide, by decide, Config.le_bufBytes (by decide)⟩, by decide⟩

/-- R194's clauses: the empty operand is accepted, one byte 00 is not. -/
theorem witness_EnglishCommandRule :
    Config.bufBytes < (sized (Config.bufBytes + 1) 0 0 0).alen.toNat
    ∧ (sized Config.bufBytes 0 0 0).alen.toNat ≤ Config.bufBytes
    ∧ EnglishLike ((holding []).byte .abuf) (holding []).alen.toNat
    ∧ ¬ EnglishLike ((holding [0]).byte .abuf) (holding [0]).alen.toNat := by
  refine ⟨alen_over 0 0 0, (alen_full 0 0 0).le, ?_, fun h => ?_⟩
  · refine ⟨fun i h => absurd h (Nat.not_lt_zero i), ?_, ?_, ?_, ?_⟩ <;> exact Nat.le_of_eq rfl
  · have h0 := h.1 0 (by decide)
    revert h0
    decide

theorem witness_Solve1CommandRule :
    Config.bufBytes < (sized (Config.bufBytes + 1) 0 0 0).alen.toNat
    ∧ (sized Config.bufBytes 0 0 0).alen.toNat ≤ Config.bufBytes
    ∧ EnglishLike (fun i => (holding []).byte .abuf i ^^^ 255) (holding []).alen.toNat := by
  refine ⟨alen_over 0 0 0, (alen_full 0 0 0).le, ?_⟩
  refine ⟨fun i h => absurd h (Nat.not_lt_zero i), ?_, ?_, ?_, ?_⟩ <;> exact Nat.le_of_eq rfl

theorem witness_IllegalWordRaisesIllegalCommand : decode 0xFFFFFFFF = .error (.unknownOpcode 0xFF)
    ∧ decode 0x00000120 = .error (.unusedFieldNonzero 0x20) := by decide

theorem witness_ErrorEntryIsExact : ∃ t, (presented (.transaction (.write 0 0xF 0x20))).host
      = .transaction (.write 0 0xF 0x20) :: []
    ∧ step (presented (.transaction (.write 0 0xF 0x20))) = .next t ∧ statusErrFlag t.status = true :=
  ⟨_, rfl, eq_next_of_nextOf test_first_command_ecbenc, by decide⟩

/-- A command that errs and one that succeeds (statements on what any command leaves). -/
theorem witness_AnyCommand :
    (∃ t, exec .ecbenc State.reset = .next t ∧ statusErrFlag t.status = true)
    ∧ (∃ t, exec .english State.reset = .next t ∧ statusErrFlag t.status = false) := by
  refine ⟨⟨_, exec_error (e := .invalidKeyLength) (Nat.zero_le _) (fun h => nomatch h) rfl, by decide⟩,
    ⟨_, exec_ok (Nat.zero_le _) (fun h => nomatch h) rfl, by decide⟩⟩

/-- Every block-mode command can succeed. -/
theorem witness_HiddenRegistersAfterCommand :
    ∀ i ∈ [Instr.ecbenc, .ecbdec true, .ecbdec false, .cbcenc, .cbcdec true, .cbcdec false],
      ∃ t, exec i (sized 0 0 16 16) = .next t ∧ statusErrFlag t.status = false := by
  intro i hi
  simp only [List.mem_cons, List.not_mem_nil, or_false] at hi
  rcases hi with rfl | rfl | rfl | rfl | rfl | rfl <;>
    exact ⟨_, exec_ok (Nat.zero_le _) (fun h => nomatch h) rfl, by decide⟩

/-- Two states with the same operands and different everything else. -/
theorem witness_ResultsDependOnOperandsOnly :
    ∃ t1 t2, SameOperands State.reset
        { State.reset with status := 0x00003301, olen := 9, res0 := 7, obuf := [(0, 1)], abuf := [(0, 2)] }
      ∧ exec .solve1 State.reset = .next t1
      ∧ exec .solve1 { State.reset with
          status := 0x00003301, olen := 9, res0 := 7, obuf := [(0, 1)], abuf := [(0, 2)] } = .next t2 :=
  ⟨_, _, ⟨rfl, rfl, rfl, rfl, rfl, rfl, rfl, rfl, rfl, rfl, rfl, rfl, fun i h => absurd h (Nat.not_lt_zero i),
    fun i h => absurd h (Nat.not_lt_zero i)⟩, rfl, rfl⟩

theorem witness_UnreadOperandsDoNotMatter :
    (Instr.pad 16 ∉ [Instr.ecbenc, .ecbdec true, .ecbdec false, .cbcenc, .cbcdec true, .cbcdec false]
      ∧ ∃ t1 t2, exec (.pad 16) State.reset = .next t1
        ∧ exec (.pad 16) { State.reset with key0 := 1, klen := 15, ivlen := 3 } = .next t2)
    ∧ (Instr.ecbenc ∈ [Instr.ecbenc, .ecbdec true, .ecbdec false]
      ∧ ∃ t1 t2, exec .ecbenc State.reset = .next t1 ∧ exec .ecbenc { State.reset with iv0 := 1, blen := 4 } = .next t2)
    ∧ (¬ ReadsB .cbcenc
      ∧ ∃ t1 t2, exec .cbcenc State.reset = .next t1 ∧ exec .cbcenc { State.reset with blen := 4 } = .next t2) :=
  ⟨⟨by decide, _, _, rfl, rfl⟩, ⟨by decide, _, _, rfl, rfl⟩, ⟨fun h => h.elim (by decide) (by decide), _, _, rfl, rfl⟩⟩

/-- The toy primitive meets the hypotheses of the round trips, at the largest message and the empty one. -/
theorem witness_RoundTripExactly :
    toy.Admissible ∧ toy.PrimInverse ∧ (sized 4096 0 16 16).klen = 16 ∧ (sized 4096 0 16 16).ivlen = 16
    ∧ (sized 4096 0 16 16).alen.toNat ≤ toy.bufBytes ∧ (sized 0 0 16 16).alen.toNat ≤ toy.bufBytes := by
  refine ⟨⟨rfl, by decide, by decide⟩, fun x k => ?_, rfl, rfl, by decide, by decide⟩
  show ((x ^^^ k).rotateRight 8).rotateLeft 8 ^^^ k = x
  have h : ((x ^^^ k).rotateRight 8).rotateLeft 8 = x ^^^ k := by
    apply BitVec.eq_of_getLsbD_eq
    intro i hi
    rw [BitVec.getLsbD_rotateLeft, BitVec.getLsbD_rotateRight, BitVec.getLsbD_rotateRight]
    by_cases h8 : i < 8
    · have e1 : ¬ 128 - 8 % 128 + i < 128 - 8 % 128 := by omega
      have e2 : 128 - 8 % 128 + i - (128 - 8 % 128) = i := by omega
      have e3 : 128 - 8 % 128 + i < 128 := by omega
      have e4 : i < 8 % 128 := h8
      have e7 : 120 + i < 128 := by omega
      simp [e4, e7]
    · have e4 : ¬ i < 8 % 128 := h8
      have e5 : i - 8 < 120 := by omega
      have e6 : 8 + (i - 8) = i := by omega
      simp [h8, e5, e6, hi]
  rw [h, BitVec.xor_assoc, BitVec.xor_self, BitVec.xor_zero]

theorem witness_StepRunsDecodedCommand : (presented (.transaction (.write 0 0xF 0x28020031))).host
      = .transaction (.write 0 0xF 0x28020031) :: [] ∧ decode 0x28020031 = .ok (.keysize 2 40) := ⟨rfl, test_decode_keysize⟩

/-- The first and the last register offset, and an illegal read. -/
theorem witness_ReadsReturnRegisters :
    ((0x00000, 0) ∈ registerValues State.reset
      ∧ (presented (.transaction (.read 0x00000 0xF))).host = .transaction (.read (BitVec.ofNat 18 0x00000) 0xF) :: [])
    ∧ ((0x0005C, 0) ∈ registerValues State.reset
      ∧ (presented (.transaction (.read 0x0005C 0xF))).host = .transaction (.read (BitVec.ofNat 18 0x0005C) 0xF) :: [])
    ∧ (presented (.transaction (.read 0x3FFFF 1))).host = .transaction (.read 0x3FFFF 1) :: [] := by
  refine ⟨⟨?_, rfl⟩, ⟨?_, rfl⟩, rfl⟩ <;> decide

/-- The first and the last of the listed offsets, and the first and the last word of the OBUF window. -/
theorem witness_WritesReachRegisters :
    (∃ t, (0x00008, t) ∈ registerWrites State.reset 0xFFFFFFFF)
    ∧ (∃ t, (0x00028, t) ∈ registerWrites State.reset 0xFFFFFFFF)
    ∧ 4 * 0 < Config.bufBytes ∧ 4 * (Config.bufBytes / 4 - 1) < Config.bufBytes
    ∧ (presented (.transaction (.write 0x30000 0xF 1))).host
        = .transaction (.write (BitVec.ofNat 18 (0x30000 + 4 * 0)) 0xF 1) :: [] := by
  have h := Config.bufBytes_bounds
  refine ⟨⟨_, .head _⟩, ⟨State.reset, ?_⟩, by omega, by omega, rfl⟩
  simp [registerWrites]

theorem witness_WindowWordsAreLittleEndian :
    4 * 0 < Config.bufBytes ∧ 4 * (Config.bufBytes / 4 - 1) < Config.bufBytes
    ∧ (0x20000, Buf.bbuf) ∈ [(0x10000, Buf.abuf), (0x20000, Buf.bbuf), (0x30000, Buf.obuf)]
    ∧ (presented (.transaction (.read 0x20000 0xF))).host
        = .transaction (.read (BitVec.ofNat 18 (0x20000 + 4 * 0)) 0xF) :: []
    ∧ (presented (.transaction (.write 0x10000 0xF 1))).host
        = .transaction (.write (BitVec.ofNat 18 (0x10000 + 4 * 0)) 0xF 1) :: []
    ∧ (presented (.transaction (.write 0x20000 0xF 1))).host
        = .transaction (.write (BitVec.ofNat 18 (0x20000 + 4 * 0)) 0xF 1) :: [] := by
  have h := Config.bufBytes_bounds
  exact ⟨by omega, by omega, by decide, rfl, rfl, rfl⟩

theorem witness_LoadLinesWriteBuffers :
    (List.replicate Config.bufBytes (1 : Byte)).length ≤ Config.bufBytes ∧ ([] : List Byte).length ≤ Config.bufBytes :=
  ⟨(List.length_replicate ..).le, Nat.zero_le _⟩

theorem witness_LoadLinesWriteKeyAndIv :
    (List.replicate 16 (1 : Byte)).length = 16 ∧ (List.replicate 15 (1 : Byte)).length ≠ 16
    ∧ (List.replicate 17 (1 : Byte)).length ≠ 16 := by decide

theorem witness_ReadLineReadsOutput : State.reset.olen.toNat ≤ Config.bufBytes
    ∧ { State.reset with olen := 256 }.olen.toNat ≤ Config.bufBytes :=
  ⟨Nat.zero_le _, Config.le_bufBytes (by decide)⟩

/-- Where the clauses meet: just before and at the first byte of ABUF, an unaligned offset, partial byte enables. -/
theorem witness_IllegalTransactionsChangeNothing :
    ¬ Legal Config.bufBytes 0x0FFFC 0xF ∧ Legal Config.bufBytes 0x10000 0xF ∧ ¬ Legal Config.bufBytes 0x10001 0xF
    ∧ ¬ Legal Config.bufBytes 0x00000 7 ∧ Legal Config.bufBytes 0x00000 0xF
    ∧ (presented (.transaction (.write 0x00000 7 0x20))).host = .transaction (.write 0x00000 7 0x20) :: [] := by
  have h := Config.bufBytes_bounds
  refine ⟨?_, ⟨rfl, rfl, .inr (.inl ⟨Nat.le_refl _, ?_⟩)⟩, fun hl => absurd hl.1 (by decide),
    fun hl => absurd hl.2.1 (by decide), ⟨rfl, rfl, .inl (by decide)⟩, rfl⟩
  · rintro ⟨_, _, h1 | h1 | h1 | h1⟩
    · revert h1; decide
    · exact absurd h1.1 (by decide)
    · exact absurd h1.1 (by decide)
    · exact absurd h1.1 (by decide)
  · show 0x10000 < 0x10000 + Config.bufBytes
    omega

theorem witness_NothingPresentedNothingChanges : State.reset.host = [] := rfl

theorem witness_ResetValues : (sized Config.bufBytes 0 0 9).klen = State.reset.klen
    ∧ (sized Config.bufBytes 0 0 9).alen.toNat ≤ Config.bufBytes ∧ State.reset.alen.toNat ≤ Config.bufBytes :=
  ⟨rfl, (alen_full 0 0 9).le, Nat.zero_le _⟩

theorem witness_ResetEventRestoresResetState : (presented .rst).host = .rst :: [] := rfl

theorem witness_ResetDuringCommandAbandonsIt : ∃ t, (presented (.rstDuring 0x22)).host = .rstDuring 0x22 :: []
    ∧ execCommand 0x22 ((presented (.rstDuring 0x22)).taking []) = .next t :=
  ⟨_, rfl, rfl⟩

/-- A state with a written byte in every buffer and a successful command behind it meets the invariant. -/
theorem witness_StepKeepsInvariant :
    ∃ s t : State, s.Inv ∧ s.abuf = [(0, 1), (3, 2)] ∧ statusDone s.status = true ∧ step s = .next t := by
  have h := Config.bufBytes_bounds
  have hb : ∀ m : Memory, m.below 16 = true → m.below Config.bufBytes = true := by
    intro m hm
    rw [Memory.below_iff] at hm ⊢
    intro c hc
    have := hm c hc
    omega
  refine ⟨{ State.reset with
    abuf := [(0, 1), (3, 2)], bbuf := [(1, 4)], obuf := [(0, 7)], status := 0x00000101, olen := 1,
    host := [.transaction (.read 0x00004 0xF)] },
    { State.reset with
    abuf := [(0, 1), (3, 2)], bbuf := [(1, 4)], obuf := [(0, 7)], status := 0x00000101, olen := 1,
    responses := [⟨false, some 0x00000101⟩] }, ?_, rfl, by decide, ?_⟩
  · exact
      { reserved_zero := by decide
        no_code_without_error := fun _ => by decide
        error_has_code := fun h0 => absurd h0 (by decide)
        error_done := fun h0 => absurd h0 (by decide)
        error_empty := fun h0 => absurd h0 (by decide)
        fresh_zero := fun h0 => absurd h0 (by decide)
        output_fits := by show 1 ≤ Config.bufBytes; omega
        score_only_keysize := fun _ => ⟨rfl, rfl⟩
        abuf_wf := by decide
        bbuf_wf := by decide
        obuf_wf := by decide
        abuf_below := hb _ (by decide)
        bbuf_below := hb _ (by decide)
        obuf_below := hb _ (by decide) }
  · exact eq_next_of_nextOf (by decide +kernel)

end Sys2Proof.Tests
end

/-! PROOFS. The scope of a command and of a step (R2, R9, R21 to R26, R103): which operands a command's answer can
depend on, and what a step does with nothing presented and with a write to CMD. -/

namespace Sys2Proof.Machine

/-! ## The step (R9, R103) -/

/-- The idle step (R9; log 1). -/
theorem step_of_host_nil {s : State} (h : s.host = []) : step s = .next s := by
  unfold step
  rw [h]

/-- The step that takes a legal write to CMD (R27, R103). -/
theorem step_write_cmd {s : State} {w : Word} {rest : List HostEvent}
    (h : s.host = .transaction (.write 0 0xF w) :: rest) :
    step s = answer writeDone (execCommand w (s.taking rest)) := by
  unfold step
  rw [h]
  dsimp only
  unfold hostEvent transact
  dsimp only
  rw [target_cmd]
  rfl

/-- Step 1 of `ExecCommand` on a legal word (R98, R103). -/
theorem execCommand_of_decode_ok {w : Word} {i : Instr} (h : decode w = .ok i) (s : State) :
    execCommand w s = exec i s := by
  unfold execCommand
  rw [h]

/-- Settles O49: the idle step. -/
theorem nothingPresentedNothingChanges : Obligations.NothingPresentedNothingChanges :=
  fun _ h => step_of_host_nil h

/-- Settles O39: the step hands the written word to `ExecCommand`, which runs the command it decodes to. -/
theorem stepRunsDecodedCommand : Obligations.StepRunsDecodedCommand := by
  intro s w i rest hhost hdecode
  rw [step_write_cmd hhost, execCommand_of_decode_ok hdecode]
  rfl

/-! ## What a command reads (R21 to R26) -/

/-- The block-mode commands, the only ones that read KEY and KLEN (R21, R23). -/
def ReadsKey (i : Instr) : Prop :=
  i ∈ [Instr.ecbenc, .ecbdec true, .ecbdec false, .cbcenc, .cbcdec true, .cbcdec false]

/-- The CBC commands, the only ones that read IV and IVLEN (R22, R24). -/
def ReadsIv (i : Instr) : Prop :=
  i ∈ [Instr.cbcenc, .cbcdec true, .cbcdec false]

theorem readsKey_ecbdec (rp : Bool) : ReadsKey (.ecbdec rp) := by
  cases rp <;> simp [ReadsKey]

theorem readsIv_cbcdec (rp : Bool) : ReadsIv (.cbcdec rp) := by
  cases rp <;> simp [ReadsIv]

/-- The ECB commands do not read IV (R164, R165). -/
theorem not_readsIv_of_ecb {i : Instr} (h : i ∈ [Instr.ecbenc, .ecbdec true, .ecbdec false]) : ¬ ReadsIv i := by
  simp only [List.mem_cons, List.not_mem_nil, or_false] at h
  rcases h with rfl | rfl | rfl <;> simp [ReadsIv]

/-- The ECB commands are block-mode commands. -/
theorem readsKey_of_ecb {i : Instr} (h : i ∈ [Instr.ecbenc, .ecbdec true, .ecbdec false]) : ReadsKey i := by
  simp only [ReadsKey, List.mem_cons, List.not_mem_nil, or_false] at h ⊢
  tauto

/-- No block-mode command reads operand `B` (R26). -/
theorem not_readsB_of_readsKey {i : Instr} (h : ReadsKey i) : ¬ ReadsB i := by
  rintro (rfl | rfl) <;> simp [ReadsKey] at h

/-- The CBC commands are block-mode commands. -/
theorem readsKey_of_readsIv {i : Instr} (h : ReadsIv i) : ReadsKey i := by
  simp only [ReadsIv, ReadsKey, List.mem_cons, List.not_mem_nil, or_false] at h ⊢
  tauto

theorem checksB_iff (i : Instr) : checksB i = true ↔ ReadsB i := by
  simp [checksB, ReadsB]

/-- The two states agree on everything the command `i` reads. The hidden registers are included, since a result carries
them through (log 7). -/
structure SameInputs (i : Instr) (s t : State) : Prop where
  operandA : t.operandA = s.operandA
  scratch : t.scratch = s.scratch
  operandB : ReadsB i → t.operandB = s.operandB
  key : ReadsKey i → t.key = s.key
  klen : ReadsKey i → t.klen = s.klen
  iv : ReadsIv i → t.iv = s.iv
  ivlen : ReadsIv i → t.ivlen = s.ivlen

/-- An operand fixes its declared length (R25). -/
theorem SameInputs.alen {i : Instr} {s t : State} (h : SameInputs i s t) : t.alen.toNat = s.alen.toNat := by
  rw [← operandA_length, ← operandA_length, h.operandA]

/-- An operand fixes its declared length (R26). -/
theorem SameInputs.blen {i : Instr} {s t : State} (h : SameInputs i s t) (hb : ReadsB i) :
    t.blen.toNat = s.blen.toNat := by
  rw [← operandB_length, ← operandB_length, h.operandB hb]

/-- A declared length of an operand that `i` reads does not fit its buffer (R236 (a), (b)). -/
def Oversized (i : Instr) (s : State) : Prop :=
  Config.bufBytes < s.alen.toNat ∨ (checksB i = true ∧ Config.bufBytes < s.blen.toNat)

theorem not_oversized {i : Instr} {s : State} (h : ¬ Oversized i s) :
    s.alen.toNat ≤ Config.bufBytes ∧ (checksB i = true → s.blen.toNat ≤ Config.bufBytes) := by
  simpa [Oversized] using h

theorem SameInputs.oversized {i : Instr} {s t : State} (h : SameInputs i s t) : Oversized i t ↔ Oversized i s := by
  have hB : checksB i = true → t.blen.toNat = s.blen.toNat := fun hi => h.blen ((checksB_iff i).1 hi)
  unfold Oversized
  rw [h.alen, and_congr_right fun hi => by rw [hB hi]]

/-- A command's own rule sees nothing but what it reads. -/
theorem commandBody_congr {i : Instr} {s t : State} (h : SameInputs i s t) : commandBody i t = commandBody i s := by
  have hA := h.operandA
  have hS := h.scratch
  cases i with
  | pad bs => simp only [commandBody, padBody, Result.bytes, hA, hS]
  | unpad bs => simp only [commandBody, unpadBody, Result.bytes, hA, hS]
  | padded bs => simp only [commandBody, paddedBody, Result.scalar, hA, hS]
  | xorkey =>
    have hB : ReadsB .xorkey := .inl rfl
    simp only [commandBody, xorkeyBody, Result.bytes, hA, hS, h.operandB hB, h.blen hB]
  | xorroll mode => simp only [commandBody, xorrollBody, Result.bytes, hA, hS]
  | xorctr start inc => simp only [commandBody, xorctrBody, Result.bytes, hA, hS]
  | ecbenc =>
    have hK : ReadsKey .ecbenc := .head _
    simp only [commandBody, ecbencBody, ecbencMessage, Message.result, hA, hS, h.key hK, h.klen hK]
  | ecbdec rp =>
    have hK := readsKey_ecbdec rp
    simp only [commandBody, ecbdecBody, ecbdecMessage, Message.result, hA, hS, h.alen, h.key hK, h.klen hK]
  | cbcenc =>
    have hV : ReadsIv .cbcenc := .head _
    have hK := readsKey_of_readsIv hV
    simp only [commandBody, cbcencBody, cbcencMessage, Message.result, hA, hS, h.key hK, h.klen hK, h.iv hV, h.ivlen hV]
  | cbcdec rp =>
    have hV := readsIv_cbcdec rp
    have hK := readsKey_of_readsIv hV
    simp only [commandBody, cbcdecBody, cbcdecMessage, Message.result, hA, hS, h.alen, h.key hK, h.klen hK, h.iv hV,
      h.ivlen hV]
  | hamming => simp only [commandBody, hammingBody, Result.scalar, hA, hS, h.operandB (.inr rfl)]
  | keysize min max => simp only [commandBody, keysizeBody, Result.scalar, hA, hS]
  | english => simp only [commandBody, englishBody, Result.scalar, hA, hS]
  | solve1 => simp only [commandBody, solve1Body, Result.bytes, hA, hS]

/-- A rule that yields a result has passed its check. -/
theorem ok_of_check_ok {p : Prop} [Decidable p] {e : CmdError} {x : Except CmdError Result} {r : Result}
    (h : (if p then .error e else x) = .ok r) : x = .ok r := by
  split at h
  · cases h
  · exact h

/-- Only the block-mode commands call the primitive (R78). -/
theorem commandBody_calls_nil {i : Instr} {s : State} {r : Result} (hi : ¬ ReadsKey i)
    (h : commandBody i s = .ok r) : r.calls = [] := by
  cases i with
  | ecbenc => exact absurd (.head _) hi
  | ecbdec rp => exact absurd (readsKey_ecbdec rp) hi
  | cbcenc => exact absurd (readsKey_of_readsIv (.head _)) hi
  | cbcdec rp => exact absurd (readsKey_of_readsIv (readsIv_cbcdec rp)) hi
  | pad bs => cases ok_of_check_ok (ok_of_check_ok h); rfl
  | unpad bs => cases ok_of_check_ok h; rfl
  | padded bs => cases ok_of_check_ok h; rfl
  | xorkey => cases ok_of_check_ok h; rfl
  | keysize min max =>
    have hbest := ok_of_check_ok h
    split at hbest
    · cases hbest
    · cases hbest
      rfl
  | xorroll mode => cases h; rfl
  | xorctr start inc => cases h; rfl
  | hamming => cases h; rfl
  | english => cases h; rfl
  | solve1 => cases h; rfl

/-! ## The answer of a command (R104, R239) -/

/-- Error entry gives the same results in every state (R239). -/
theorem raise_sameResults (e : CmdError) (op : Byte) (s t : State) : SameResults (raise e op s) (raise e op t) :=
  ⟨rfl, rfl, rfl, rfl, rfl, fun i h => absurd h (Nat.not_lt_zero i)⟩

/-- The results of a completed command are those its rule yielded, whatever the state (R104). -/
theorem complete_sameResults (op : Byte) (r : Result) (s t : State) :
    SameResults (complete op r s) (complete op r t) := by
  refine ⟨rfl, rfl, rfl, rfl, rfl, fun i hi => ?_⟩
  have hi' : i < r.out.length := hi.trans_le (Nat.mod_le _ _)
  rw [byte_complete_obuf, byte_complete_obuf, dif_pos hi', dif_pos hi']

/-- A command answers alike in two states that agree on what it reads: the same results, and the same calls after those
already made. -/
theorem exec_congr {i : Instr} {s₁ s₂ t₁ t₂ : State} (h : SameInputs i s₁ s₂) (h₁ : exec i s₁ = .next t₁)
    (h₂ : exec i s₂ = .next t₂) : SameResults t₁ t₂ ∧ ∃ d, t₁.trace = s₁.trace ++ d ∧ t₂.trace = s₂.trace ++ d := by
  by_cases hc : Oversized i s₁
  · cases (exec_capacityExceeded hc).symm.trans h₁
    cases (exec_capacityExceeded (h.oversized.2 hc)).symm.trans h₂
    exact ⟨raise_sameResults _ _ _ _, [], by simp, by simp⟩
  · obtain ⟨ha₁, hb₁⟩ := not_oversized hc
    obtain ⟨ha₂, hb₂⟩ := not_oversized (mt h.oversized.1 hc)
    cases hbody : commandBody i s₁ with
    | error e =>
      cases (exec_error ha₁ hb₁ hbody).symm.trans h₁
      cases (exec_error ha₂ hb₂ ((commandBody_congr h).trans hbody)).symm.trans h₂
      exact ⟨raise_sameResults _ _ _ _, [], by simp, by simp⟩
    | ok r =>
      cases (exec_ok ha₁ hb₁ hbody).symm.trans h₁
      cases (exec_ok ha₂ hb₂ ((commandBody_congr h).trans hbody)).symm.trans h₂
      exact ⟨complete_sameResults _ _ _ _, r.calls, rfl, rfl⟩

/-- The same, for two states in which the same calls have been made. -/
theorem exec_congr_of_trace_eq {i : Instr} {s₁ s₂ t₁ t₂ : State} (h : SameInputs i s₁ s₂)
    (h₁ : exec i s₁ = .next t₁) (h₂ : exec i s₂ = .next t₂) (htrace : s₂.trace = s₁.trace) :
    SameResults t₁ t₂ ∧ t₁.trace = t₂.trace := by
  obtain ⟨hres, d, hd₁, hd₂⟩ := exec_congr h h₁ h₂
  exact ⟨hres, by rw [hd₁, hd₂, htrace]⟩

/-- A command outside the block modes leaves the trace as it was (R78). -/
theorem exec_trace_of_not_readsKey {i : Instr} {s t : State} (hi : ¬ ReadsKey i) (h : exec i s = .next t) :
    t.trace = s.trace := by
  rcases exec_cases h with ⟨e, rfl⟩ | ⟨r, hr, -, rfl⟩
  · rfl
  · rw [complete_trace, commandBody_calls_nil hi hr, List.append_nil]

/-- Settles O35: each group of fields that the statement changes lies outside what the command reads (`SameInputs`). -/
theorem unreadOperandsDoNotMatter : Obligations.UnreadOperandsDoNotMatter := by
  intro s t₁ t₂ k0 k1 k2 k3 v0 v1 v2 v3 kl ivl bl m
  refine ⟨fun i hi h₁ h₂ => ?keyAndIv, fun i hi h₁ h₂ => ?ivAndB, fun i hi h₁ h₂ => ?operandB⟩
  case keyAndIv =>
    have hK : ¬ ReadsKey i := hi
    have hV : ¬ ReadsIv i := fun hv => hK (readsKey_of_readsIv hv)
    have hcalls := exec_trace_of_not_readsKey hK h₂
    refine ⟨(exec_congr ?_ h₁ h₂).1, exec_trace_of_not_readsKey hK h₁, hcalls⟩
    exact
      { operandA := rfl
        scratch := rfl
        operandB := fun _ => rfl
        key := fun h => absurd h hK
        klen := fun h => absurd h hK
        iv := fun h => absurd h hV
        ivlen := fun h => absurd h hV }
  case ivAndB =>
    have hV : ¬ ReadsIv i := not_readsIv_of_ecb hi
    have hB : ¬ ReadsB i := not_readsB_of_readsKey (readsKey_of_ecb hi)
    refine exec_congr_of_trace_eq ?_ h₁ h₂ rfl
    exact
      { operandA := rfl
        scratch := rfl
        operandB := fun h => absurd h hB
        key := fun _ => rfl
        klen := fun _ => rfl
        iv := fun h => absurd h hV
        ivlen := fun h => absurd h hV }
  case operandB =>
    refine exec_congr_of_trace_eq ?_ h₁ h₂ rfl
    exact
      { operandA := rfl
        scratch := rfl
        operandB := fun h => absurd h hi
        key := fun _ => rfl
        klen := fun _ => rfl
        iv := fun _ => rfl
        ivlen := fun _ => rfl }

end Sys2Proof.Machine

/-! PROOFS. The state and what every command and every step keeps (R20 to R46, R104, R239): the shapes of result, the
invariant of the machine, and reset. -/

namespace Sys2Proof.Machine

/-! ## What a command's own rule can yield (R29 to R32, R37 to R39) -/

theorem check_ok_iff {p : Prop} [Decidable p] {e : CmdError} {x : Except CmdError Result} {r : Result} :
    (if p then .error e else x) = .ok r ↔ ¬ p ∧ x = .ok r := by
  by_cases h : p <;> simp [h]

/-- The shapes of result that the rules yield in the state `s`: bytes, one number, the three numbers of KEYSIZE, the two
commands that evaluate the classifier, and a processed message. Whatever is written to OBUF fits it. -/
inductive Yields (s : State) : Instr → Result → Prop
  | bytes {i : Instr} {out : List Byte} (fits : out.length ≤ Config.bufBytes) : Yields s i (Result.bytes s out)
  | scalar {i : Instr} (n : Nat) : Yields s i (Result.scalar s n)
  | score {min max : Byte} (best : Candidate) :
      Yields s (.keysize min max) { Result.scalar s best.size with res1 := best.sum, res2 := best.den }
  | english (n : Nat) (counts : Counts) :
      Yields s .english { Result.scalar s n with scratch := { s.scratch with counts := counts } }
  | solve1 {out : List Byte} (n : Nat) (counts : Counts) (fits : out.length ≤ Config.bufBytes) :
      Yields s .solve1 { Result.bytes s out with res0 := n, scratch := { s.scratch with counts := counts } }
  | message {i : Instr} {out : List Byte} (reads : ReadsKey i) (m : Message) (fits : out.length ≤ Config.bufBytes) :
      Yields s i (m.result s out)

/-- Whole blocks of a padded message that fits still fit, since `BUF_BYTES` is a multiple of 16 (R5, R160). -/
theorem paddedMessage_fits {s : State} (each : Block → Block → BlockStep) (p : Block)
    (ha : s.alen.toNat ≤ Config.bufBytes) :
    (bytesOfBlocks (runMessage each p (blocksOf (pad s.operandA 16))).out).length ≤ Config.bufBytes := by
  have hmod := Config.bufBytes_mod
  simp only [bytesOfBlocks_length, runMessage_out_length, blocksOf_length, pad16_length, operandA_length]
  omega

/-- What a decrypt command stores is no longer than its ciphertext (R163, R165, R167). -/
theorem plaintext_fits {s : State} (rp : Bool) (each : Block → Block → BlockStep) (p : Block)
    (ha : s.alen.toNat ≤ Config.bufBytes) :
    (plaintextOut rp (bytesOfBlocks (runMessage each p (blocksOf s.operandA)).out)).length ≤ Config.bufBytes := by
  refine (plaintextOut_length_le rp _).trans ?_
  simp only [bytesOfBlocks_length, runMessage_out_length, blocksOf_length, operandA_length]
  omega

/-- Every command whose operand fits yields one of these shapes. -/
theorem commandBody_yields {i : Instr} {s : State} {r : Result} (ha : s.alen.toNat ≤ Config.bufBytes)
    (h : commandBody i s = .ok r) : Yields s i r := by
  have hA : s.operandA.length ≤ Config.bufBytes := by rwa [operandA_length]
  cases i with
  | pad bs =>
    obtain ⟨-, h⟩ := check_ok_iff.1 h
    obtain ⟨hfits, h⟩ := check_ok_iff.1 h
    cases h
    exact .bytes (not_lt.1 hfits)
  | unpad bs =>
    cases ok_of_check_ok h
    exact .bytes ((unpad_length_le _ _).trans hA)
  | padded bs =>
    cases ok_of_check_ok h
    exact .scalar _
  | xorkey =>
    cases ok_of_check_ok h
    exact .bytes (by rwa [xorWithKey_length])
  | xorroll mode =>
    cases h
    exact .bytes (by rwa [xorRolling_length])
  | xorctr start inc =>
    cases h
    exact .bytes (by rwa [xorCounter_length])
  | ecbenc =>
    cases ok_of_check_ok h
    exact .message (.head _) _ (paddedMessage_fits _ _ ha)
  | ecbdec rp =>
    cases ok_of_check_ok (ok_of_check_ok h)
    exact .message (readsKey_ecbdec rp) _ (plaintext_fits rp _ _ ha)
  | cbcenc =>
    cases ok_of_check_ok (ok_of_check_ok h)
    exact .message (readsKey_of_readsIv (.head _)) _ (paddedMessage_fits _ _ ha)
  | cbcdec rp =>
    cases ok_of_check_ok (ok_of_check_ok (ok_of_check_ok h))
    exact .message (readsKey_of_readsIv (readsIv_cbcdec rp)) _ (plaintext_fits rp _ _ ha)
  | hamming =>
    cases h
    exact .scalar _
  | keysize min max =>
    have hbest := ok_of_check_ok h
    split at hbest
    · cases hbest
    · cases hbest
      exact .score _
  | english =>
    cases h
    exact .english _ _
  | solve1 =>
    cases h
    exact .solve1 _ _ (Config.le_bufBytes (solveSingleByteXor_length _))

/-- What a command writes to OBUF fits it (R29, R35). -/
theorem Yields.out_fits {i : Instr} {s : State} {r : Result} (h : Yields s i r) : r.out.length ≤ Config.bufBytes := by
  cases h with
  | bytes fits => exact fits
  | scalar n => exact Nat.zero_le _
  | score best => exact Nat.zero_le _
  | english n counts => exact Nat.zero_le _
  | solve1 n counts fits => exact fits
  | message reads m fits => exact fits

/-- Only KEYSIZE gives RES1 and RES2 (R31, R32). -/
theorem Yields.score_zero {i : Instr} {s : State} {r : Result} (h : Yields s i r) (hi : i.opcode ≠ 0x31) :
    r.res1 = 0 ∧ r.res2 = 0 := by
  cases h with
  | score best => exact absurd rfl hi
  | bytes fits => exact ⟨rfl, rfl⟩
  | scalar n => exact ⟨rfl, rfl⟩
  | english n counts => exact ⟨rfl, rfl⟩
  | solve1 n counts fits => exact ⟨rfl, rfl⟩
  | message reads m fits => exact ⟨rfl, rfl⟩

/-! ## STATUS (R28, R230) -/

/-- The codes of R230 are 1 to 6. -/
theorem CmdError.code_bounds (e : CmdError) : 1 ≤ e.code.toNat ∧ e.code.toNat ≤ 6 := by
  cases e <;> decide

theorem CmdError.code_ne (e : CmdError) : e.code ≠ 0 ∧ e.code ≠ 7 := by
  cases e <;> decide

/-! ## The invariant (R28 to R35, R230, R239; log 6) -/

/-- Settles O53: every register is 0 and no byte is listed. -/
theorem invariantAtReset : Obligations.InvariantAtReset where
  reserved_zero := rfl
  no_code_without_error := fun _ => rfl
  error_has_code := fun h => absurd h (by decide)
  error_done := fun h => absurd h (by decide)
  error_empty := fun _ => ⟨rfl, rfl, rfl, rfl⟩
  fresh_zero := fun _ => ⟨rfl, rfl, rfl, rfl, rfl⟩
  output_fits := Nat.zero_le _
  score_only_keysize := fun _ => ⟨rfl, rfl⟩
  abuf_wf := reset_memories_wf.1
  bbuf_wf := reset_memories_wf.2.1
  obuf_wf := reset_memories_wf.2.2
  abuf_below := rfl
  bbuf_below := rfl
  obuf_below := rfl

/-- The reset event restores what the invariant speaks of (R260). -/
theorem inv_resetEvent (s : State) : (resetEvent s).Inv :=
  { invariantAtReset with }

/-- What is still to be presented is outside the invariant. -/
theorem inv_taking {s : State} (h : s.Inv) (rest : List HostEvent) : (s.taking rest).Inv :=
  { h with }

/-- What has been answered is outside the invariant. -/
theorem inv_respond {s : State} (h : s.Inv) (r : Response) : (s.respond r).Inv :=
  { h with }

/-- Error entry keeps the invariant, with any error and any byte as LASTOP (R239). -/
theorem inv_raise {s : State} (h : s.Inv) (e : CmdError) (op : Byte) : (raise e op s).Inv := by
  obtain ⟨herr, hdone, -, hreserved, hcode⟩ := statusErr_fields e op
  exact
    { h with
      reserved_zero := hreserved
      no_code_without_error := fun h0 => by simp [herr] at h0
      error_has_code := fun _ => by rw [raise_status, hcode]; exact e.code_ne
      error_done := fun _ => hdone
      error_empty := fun _ => ⟨rfl, rfl, rfl, rfl⟩
      fresh_zero := fun h0 => by simp [hdone] at h0
      output_fits := Nat.zero_le _
      score_only_keysize := fun _ => ⟨rfl, rfl⟩ }

/-- Completion of a command that yielded a result keeps the invariant (R104). -/
theorem inv_complete {i : Instr} {s : State} {r : Result} (h : s.Inv) (hr : Yields s i r) :
    (complete i.opcode r s).Inv := by
  obtain ⟨herr, hdone, hop, hreserved, hcode⟩ := statusOk_fields i.opcode
  exact
    { h with
      reserved_zero := hreserved
      no_code_without_error := fun _ => hcode
      error_has_code := fun h0 => by simp [herr] at h0
      error_done := fun h0 => by simp [herr] at h0
      error_empty := fun h0 => by simp [herr] at h0
      fresh_zero := fun h0 => by simp [hdone] at h0
      output_fits := (Nat.mod_le _ _).trans hr.out_fits
      score_only_keysize := fun h0 => by
        rw [complete_status, hop] at h0
        obtain ⟨h1, h2⟩ := hr.score_zero h0
        simp [h1, h2]
      obuf_wf := Memory.wf_fill _ _ h.obuf_wf
      obuf_below := Memory.below_fill _ _ _ h.obuf_below hr.out_fits }

/-- Every command word, legal or not, keeps the invariant (R103). -/
theorem inv_execCommand {w : Word} {s t : State} (h : s.Inv) (ht : execCommand w s = .next t) : t.Inv := by
  rcases execCommand_cases w s with ⟨e, -, he⟩ | ⟨i, e, -, he⟩ | ⟨i, r, -, hr, ha, he⟩
  · cases he.symm.trans ht
    exact inv_raise h _ _
  · cases he.symm.trans ht
    exact inv_raise h _ _
  · cases he.symm.trans ht
    exact inv_complete h (commandBody_yields ha hr)

/-- Declared lengths, key and IV are free; the registers that the invariant constrains ignore writes (R65). -/
theorem inv_writeReg {s : State} (h : s.Inv) (r : Reg) (v : Word) : (writeReg r v s).Inv := by
  cases r <;> exact { h with }

/-- A window write inside the buffer keeps its memory canonical and within the buffer (R66, R67). -/
theorem inv_writeWindow {s : State} (h : s.Inv) (buffer : Buf) {index : Nat} (v : Word)
    (hindex : index + 4 ≤ Config.bufBytes) : (writeWindow buffer index v s).Inv := by
  have hlen : index + (bytesOfWord v).length ≤ Config.bufBytes := by rwa [bytesOfWord_length]
  cases buffer with
  | abuf =>
    exact
      { h with
        abuf_wf := Memory.wf_writeBytes _ _ _ h.abuf_wf
        abuf_below := Memory.below_writeBytes _ _ _ _ h.abuf_below hlen }
  | bbuf =>
    exact
      { h with
        bbuf_wf := Memory.wf_writeBytes _ _ _ h.bbuf_wf
        bbuf_below := Memory.below_writeBytes _ _ _ _ h.bbuf_below hlen }
  | obuf => exact h

/-- A legal write of a location other than CMD keeps the invariant (R65, R69). -/
theorem inv_writeLoc {s : State} (h : s.Inv) {addr : Address} {be : BitVec 4} {l : Loc} (v : Word)
    (hl : target Config.params.bufBytes addr be = some l) : (writeLoc l v s).Inv := by
  cases l with
  | reg r => exact inv_writeReg h r v
  | window buffer index =>
    rw [Config.params_bufBytes] at hl
    exact inv_writeWindow h buffer v (target_window_index Config.bufBytes_mod hl).2

/-! ## Everything a step can do (R9, R61 to R71, R260, R262) -/

/-- Everything a transaction can do: answer and change nothing, write a location, or run a command. -/
theorem transact_cases {tr : Transaction} {s t : State} (h : transact tr s = .next t) :
    (∃ r, t = s.respond r)
    ∨ (∃ addr be l v, target Config.params.bufBytes addr be = some l ∧ t = (writeLoc l v s).respond writeDone)
    ∨ ∃ w u, execCommand w s = .next u ∧ t = u.respond writeDone := by
  cases tr with
  | read addr be =>
    unfold transact at h
    dsimp only at h
    split at h
    · cases h
      exact .inl ⟨_, rfl⟩
    · cases h
      exact .inl ⟨_, rfl⟩
  | write addr be v =>
    unfold transact at h
    dsimp only at h
    split at h
    · cases h
      exact .inl ⟨_, rfl⟩
    · cases hu : execCommand v s with
      | next u =>
        rw [hu] at h
        cases h
        exact .inr (.inr ⟨v, u, hu, rfl⟩)
      | fault f => cases f
      | refused q =>
        rw [hu] at h
        cases h
    · next l _ hl =>
      cases h
      exact .inr (.inl ⟨addr, be, l, v, hl, rfl⟩)

/-- Everything a step can do: nothing, a transaction, or a reset. -/
theorem step_cases {s t : State} (h : step s = .next t) :
    (s.host = [] ∧ t = s)
    ∨ (∃ tr rest, s.host = .transaction tr :: rest ∧ transact tr (s.taking rest) = .next t)
    ∨ ∃ u, t = resetEvent u := by
  unfold step at h
  split at h
  · next hhost =>
    cases h
    exact .inl ⟨hhost, rfl⟩
  · next e rest hhost =>
    cases e with
    | transaction tr => exact .inr (.inl ⟨tr, rest, hhost, h⟩)
    | rst =>
      cases h
      exact .inr (.inr ⟨_, rfl⟩)
    | rstDuring w =>
      cases h
      exact .inr (.inr ⟨_, rfl⟩)

theorem inv_transact {tr : Transaction} {s t : State} (h : s.Inv) (ht : transact tr s = .next t) : t.Inv := by
  rcases transact_cases ht with ⟨r, rfl⟩ | ⟨addr, be, l, v, hl, rfl⟩ | ⟨w, u, hu, rfl⟩
  · exact inv_respond h r
  · exact inv_respond (inv_writeLoc h v hl) _
  · exact inv_respond (inv_execCommand h hu) _

/-- Settles O54, by what a step can do: a transaction keeps the invariant and a reset restores it. -/
theorem stepKeepsInvariant : Obligations.StepKeepsInvariant := by
  intro s t h ht
  rcases step_cases ht with ⟨-, rfl⟩ | ⟨tr, rest, -, htr⟩ | ⟨u, rfl⟩
  · exact h
  · exact inv_transact (inv_taking h rest) htr
  · exact inv_resetEvent u

/-! ## STATUS after a command and the values of reset (R28, R43) -/

/-- A word whose DONE bit is set is not 0 (R261). -/
theorem ne_zero_of_statusDone {w : Word} (h : statusDone w = true) : w ≠ 0 := by
  rintro rfl
  cases h

/-- Settles O32, by the two ends of a command. -/
theorem statusAfterCommand : Obligations.StatusAfterCommand := by
  intro i s t h
  rcases exec_cases h with ⟨e, rfl⟩ | ⟨r, -, -, rfl⟩
  case inl =>
    obtain ⟨herr, hdone, hop, hreserved, hcode⟩ := statusErr_fields e i.opcode
    refine ⟨hdone, hop, hreserved, ne_zero_of_statusDone hdone, fun h0 => ?_, fun _ => ?_⟩
    · simp [herr] at h0
    · rw [raise_status, hcode]
      exact e.code_bounds
  case inr =>
    obtain ⟨herr, hdone, hop, hreserved, hcode⟩ := statusOk_fields i.opcode
    refine ⟨hdone, hop, hreserved, ne_zero_of_statusDone hdone, fun _ => hcode, fun h0 => ?_⟩
    simp [herr] at h0

/-- The block-mode commands check KLEN before anything else of their own (R161). -/
theorem commandBody_invalidKeyLength {i : Instr} {s : State} (hi : ReadsKey i) (hk : s.klen ≠ 16) :
    commandBody i s = .error .invalidKeyLength := by
  simp only [ReadsKey, List.mem_cons, List.not_mem_nil, or_false] at hi
  rcases hi with rfl | rfl | rfl | rfl | rfl | rfl <;> exact if_pos hk

/-- Settles O50. -/
theorem resetValues : Obligations.ResetValues := by
  refine ⟨by simp [State.reset], rfl, fun i hi s hklen ha => ?_⟩
  have hkey : ReadsKey i := by
    simp only [ReadsKey, List.mem_cons, List.not_mem_nil, or_false] at hi ⊢
    tauto
  have hk : s.klen ≠ 16 := by
    rw [hklen]
    decide
  have hb : checksB i = true → s.blen.toNat ≤ Config.bufBytes :=
    fun h => absurd ((checksB_iff i).1 h) (not_readsB_of_readsKey hkey)
  rw [exec_error ha hb (commandBody_invalidKeyLength hkey hk), raise_eq_errorState]
  rfl

/-! ## The bytes of the key and of the IV (R21, R22, R68) -/

theorem bytesOfBlock_getElem? {x : Block} {k : Nat} (hk : k < 16) : (bytesOfBlock x)[k]? = some (blockByte x k) := by
  have h : k < (bytesOfBlock x).length := by rwa [bytesOfBlock_length]
  rw [List.getElem?_eq_getElem h, bytesOfBlock_getElem]
  rfl

theorem bytesOfWord_getElem? {w : Word} {i : Nat} (hi : i < 4) :
    (bytesOfWord w)[i]? = some (w.extractLsb' (8 * i) 8) := by
  have h : i < (bytesOfWord w).length := by rwa [bytesOfWord_length]
  rw [List.getElem?_eq_getElem h, bytesOfWord_getElem]

/-- Byte `k` of the key, found in the four words one after another. -/
theorem blockByte_key_iff (s : State) {k : Nat} (hk : k < 16) {x : Byte} : blockByte s.key k = x ↔
    (bytesOfWord s.key0 ++ bytesOfWord s.key1 ++ bytesOfWord s.key2 ++ bytesOfWord s.key3)[k]? = some x := by
  rw [← key_bytes, bytesOfBlock_getElem? hk, Option.some_inj]

theorem blockByte_key (s : State) {i : Nat} (hi : i < 4) :
    blockByte s.key i = s.key0.extractLsb' (8 * i) 8
    ∧ blockByte s.key (4 + i) = s.key1.extractLsb' (8 * i) 8
    ∧ blockByte s.key (8 + i) = s.key2.extractLsb' (8 * i) 8
    ∧ blockByte s.key (12 + i) = s.key3.extractLsb' (8 * i) 8 := by
  refine ⟨(blockByte_key_iff s (by omega)).2 ?_, (blockByte_key_iff s (by omega)).2 ?_,
    (blockByte_key_iff s (by omega)).2 ?_, (blockByte_key_iff s (by omega)).2 ?_⟩
  · rw [List.append_assoc, List.append_assoc, List.getElem?_append_left (by simpa using hi), bytesOfWord_getElem? hi]
  · rw [List.append_assoc, List.append_assoc, List.getElem?_append_right (by simp),
      List.getElem?_append_left (by simpa using hi), bytesOfWord_length, Nat.add_sub_cancel_left,
      bytesOfWord_getElem? hi]
  · rw [List.append_assoc, List.getElem?_append_right (by simp), List.getElem?_append_left (by simpa using hi),
      List.length_append, bytesOfWord_length, bytesOfWord_length, Nat.add_sub_cancel_left, bytesOfWord_getElem? hi]
  · rw [List.getElem?_append_right (by simp), List.length_append, List.length_append, bytesOfWord_length,
      bytesOfWord_length, bytesOfWord_length, Nat.add_sub_cancel_left, bytesOfWord_getElem? hi]

/-- Settles O46. The IV is made of its four words as the key is of its own: it is the key of a state that holds them as
KEY0..KEY3. -/
theorem keyAndIvByteOrder : Obligations.KeyAndIvByteOrder := by
  intro s i hi
  obtain ⟨k0, k1, k2, k3⟩ := blockByte_key s hi
  have hiv := blockByte_key { s with key0 := s.iv0, key1 := s.iv1, key2 := s.iv2, key3 := s.iv3 } hi
  exact ⟨k0, k1, k2, k3, hiv⟩

/-! ## Messages, as far as their hidden registers go (R160, R169) -/

theorem zipWith_prevs_const {α : Type} (each : Block → Block → BlockStep) (f : Block → α) (xs : List Block) : ∀ p,
    List.zipWith (fun _ x => f x) (prevs each p xs) xs = xs.map f := by
  induction xs with
  | nil => intro p; rfl
  | cons x xs ih => intro p; simp [prevs, ih]

/-- Without chaining, each block is emitted by itself. -/
theorem runMessage_out_eq_map {each : Block → Block → BlockStep} {f : Block → Block}
    (h : ∀ q x, (each q x).out = f x) (p : Block) (xs : List Block) : (runMessage each p xs).out = xs.map f := by
  simp only [runMessage_out, h, zipWith_prevs_const]

theorem runMessage_calls_eq_map {each : Block → Block → BlockStep} {f : Block → PrimCall}
    (h : ∀ q x, (each q x).call = f x) (p : Block) (xs : List Block) : (runMessage each p xs).calls = xs.map f := by
  simp only [runMessage_calls, h, zipWith_prevs_const]

/-- An engine step that keeps `prev` keeps it through the message (R164, R165). -/
theorem Message.run_prev_of_kept {each : Block → Block → BlockStep} (h : ∀ q x, (each q x).prev = q) (n : Nat)
    (xs : List Block) : ∀ m, (Message.run each n xs m).prev = m.prev := by
  induction xs with
  | nil => intro m; rfl
  | cons x xs ih => intro m; rw [Message.run, ih, h]

/-- An engine step that takes its input block as `prev` leaves the last input block (R167). -/
theorem Message.run_prev_of_input {each : Block → Block → BlockStep} (h : ∀ q x, (each q x).prev = x) (n : Nat)
    (xs : List Block) : ∀ m, (Message.run each n xs m).prev = xs.getLast?.getD m.prev := by
  induction xs with
  | nil => intro m; rfl
  | cons x xs ih => intro m; rw [Message.run, ih, h, List.getLast?_cons, Option.getD_some]

/-- An engine step that takes the block it emits as `prev` leaves the last block emitted (R166). -/
theorem Message.run_prev_of_output {each : Block → Block → BlockStep} (h : ∀ q x, (each q x).prev = (each q x).out)
    (n : Nat) (p : Block) (xs : List Block) : ∀ m, m.prev = m.out.getLast?.getD p →
    (Message.run each n xs m).prev = (Message.run each n xs m).out.getLast?.getD p := by
  induction xs with
  | nil => intro m hm; exact hm
  | cons x xs ih =>
    intro m _
    refine ih _ ?_
    rw [List.getLast?_concat, h]
    rfl

theorem runMessage_prev_of_kept {each : Block → Block → BlockStep} (h : ∀ q x, (each q x).prev = q) (p : Block)
    (xs : List Block) : (runMessage each p xs).prev = p :=
  Message.run_prev_of_kept h _ _ _

theorem runMessage_prev_of_input {each : Block → Block → BlockStep} (h : ∀ q x, (each q x).prev = x) (p : Block)
    (xs : List Block) : (runMessage each p xs).prev = xs.getLast?.getD p :=
  Message.run_prev_of_input h _ _ _

theorem runMessage_prev_of_output {each : Block → Block → BlockStep} (h : ∀ q x, (each q x).prev = (each q x).out)
    (p : Block) (xs : List Block) : (runMessage each p xs).prev = (runMessage each p xs).out.getLast?.getD p :=
  Message.run_prev_of_output h _ p _ _ rfl

/-! ECB does not chain: each block is processed by itself and `prev` stays (R164, R165). -/

theorem ecbencMessage_prev (c : Params) (s : State) : (ecbencMessage c s).prev = s.scratch.prev :=
  runMessage_prev_of_kept (fun _ _ => rfl) _ _

theorem ecbencMessage_out (c : Params) (s : State) :
    (ecbencMessage c s).out = (blocksOf (pad s.operandA 16)).map (fun x => c.enc x s.key) :=
  runMessage_out_eq_map (each := ecbEncBlock c s.key) (fun _ _ => rfl) _ _

theorem ecbencMessage_calls (c : Params) (s : State) :
    (ecbencMessage c s).calls = (blocksOf (pad s.operandA 16)).map (fun x => ⟨false, x, s.key⟩) :=
  runMessage_calls_eq_map (each := ecbEncBlock c s.key) (fun _ _ => rfl) _ _

theorem ecbdecMessage_prev (c : Params) (s : State) : (ecbdecMessage c s).prev = s.scratch.prev :=
  runMessage_prev_of_kept (fun _ _ => rfl) _ _

theorem ecbdecMessage_out (c : Params) (s : State) :
    (ecbdecMessage c s).out = (blocksOf s.operandA).map (fun x => c.dec x s.key) :=
  runMessage_out_eq_map (each := ecbDecBlock c s.key) (fun _ _ => rfl) _ _

theorem ecbdecMessage_calls (c : Params) (s : State) :
    (ecbdecMessage c s).calls = (blocksOf s.operandA).map (fun x => ⟨true, x, s.key⟩) :=
  runMessage_calls_eq_map (each := ecbDecBlock c s.key) (fun _ _ => rfl) _ _

/-- The number of blocks of the padded plaintext (R160, R162). -/
theorem blocksOf_pad_length (s : State) : (blocksOf (pad s.operandA 16)).length = paddedBlocks s := by
  rw [blocksOf_length, pad16_length, operandA_length, Nat.mul_div_cancel_left _ (by decide)]
  rfl

/-- The block before block `n` of a sequence, IV where there is none (R166, R167). -/
theorem getLast_blockAt (s : State) (get : Nat → Byte) (n : Nat) :
    ((List.range n).map (blockAt get)).getLast?.getD s.iv = cbcPrev s get n := by
  cases n with
  | zero => rfl
  | succ n => simp [List.range_succ, cbcPrev]

/-! ## The hidden registers after a command (R37 to R39; log 7) -/

theorem opcode_of_readsKey {i : Instr} (h : ReadsKey i) : i.opcode ∈ ([0x20, 0x21, 0x22, 0x23] : List Byte) := by
  simp only [ReadsKey, List.mem_cons, List.not_mem_nil, or_false] at h
  rcases h with rfl | rfl | rfl | rfl | rfl | rfl <;> decide

/-- The commands without hidden registers of their own. -/
theorem Yields.scratch_kept {i : Instr} {s : State} {r : Result} (h : Yields s i r)
    (hi : i.opcode ∉ ([0x20, 0x21, 0x22, 0x23, 0x32, 0x33] : List Byte)) : r.scratch = s.scratch := by
  cases h with
  | bytes fits => rfl
  | scalar n => rfl
  | score best => rfl
  | english n counts => exact absurd (by decide) hi
  | solve1 n counts fits => exact absurd (by decide) hi
  | message reads m fits => exact absurd (List.mem_append_left [0x32, 0x33] (opcode_of_readsKey reads)) hi

/-- The two commands that evaluate the classifier. -/
theorem commandBody_scratch_counts {i : Instr} {s : State} {r : Result} (hi : i = .english ∨ i = .solve1)
    (h : commandBody i s = .ok r) : r.scratch = { s.scratch with counts := r.scratch.counts } := by
  rcases hi with rfl | rfl <;> cases h <;> rfl

theorem ecbenc_scratch {s : State} {r : Result} (h : commandBody .ecbenc s = .ok r) :
    r.scratch = { s.scratch with phase := .done, blk := paddedBlocks s } := by
  cases ok_of_check_ok h
  simp only [Message.result, ecbencMessage_prev]
  simp only [ecbencMessage, runMessage_phase, runMessage_blk, blocksOf_pad_length]

theorem ecbdec_scratch {rp : Bool} {s : State} {r : Result} (h : commandBody (.ecbdec rp) s = .ok r) :
    r.scratch = { s.scratch with phase := .done, blk := s.alen.toNat / 16 } := by
  cases ok_of_check_ok (ok_of_check_ok h)
  simp only [Message.result, ecbdecMessage_prev]
  simp only [ecbdecMessage, runMessage_phase, runMessage_blk, blocksOf_length, operandA_length]

/-- `prev` is then the last ciphertext block, in the bytes stored. -/
theorem cbcenc_scratch {s : State} {r : Result} {get : Nat → Byte} (h : commandBody .cbcenc s = .ok r)
    (hget : ∀ k, k < r.out.length → r.out[k]? = some (get k)) : r.scratch =
      { s.scratch with prev := cbcPrev s get (paddedBlocks s), phase := .done, blk := paddedBlocks s } := by
  cases ok_of_check_ok (ok_of_check_ok h)
  have hlen : (cbcencMessage Config.params s).out.length = paddedBlocks s := by
    rw [cbcencMessage, runMessage_out_length, blocksOf_pad_length]
  have hout : (cbcencMessage Config.params s).out = (List.range (paddedBlocks s)).map (blockAt get) := by
    have hblocks := blocksOf_eq_blockAt _ get hget
    rwa [messageResult_out, blocksOf_bytesOfBlocks, bytesOfBlocks_length, hlen,
      Nat.mul_div_cancel_left _ (by decide)] at hblocks
  have hprev : (cbcencMessage Config.params s).prev = cbcPrev s get (paddedBlocks s) := by
    rw [← getLast_blockAt, ← hout]
    exact runMessage_prev_of_output (fun _ _ => rfl) _ _
  simp only [Message.result, hprev]
  simp only [cbcencMessage, runMessage_phase, runMessage_blk, blocksOf_pad_length]

/-- `prev` is then the last ciphertext block, in operand `A`. -/
theorem cbcdec_scratch {rp : Bool} {s : State} {r : Result} (h : commandBody (.cbcdec rp) s = .ok r) : r.scratch =
    { s.scratch with
      prev := cbcPrev s (s.byte .abuf) (s.alen.toNat / 16), phase := .done, blk := s.alen.toNat / 16 } := by
  cases ok_of_check_ok (ok_of_check_ok (ok_of_check_ok h))
  have hblocks : blocksOf s.operandA = (List.range (s.alen.toNat / 16)).map (blockAt (s.byte .abuf)) := by
    rw [blocksOf_eq_blockAt s.operandA (s.byte .abuf), operandA_length]
    intro k hk
    exact operandA_getElem? s k (by rwa [operandA_length] at hk)
  have hprev : (cbcdecMessage Config.params s).prev = cbcPrev s (s.byte .abuf) (s.alen.toNat / 16) := by
    rw [← getLast_blockAt, ← hblocks]
    exact runMessage_prev_of_input (fun _ _ => rfl) _ _
  simp only [Message.result, hprev]
  simp only [cbcdecMessage, runMessage_phase, runMessage_blk, blocksOf_length, operandA_length]

/-- The bytes of OBUF after completion are those the rule yielded (R35, R104). -/
theorem out_getElem?_complete (op : Byte) (r : Result) (s : State) {k : Nat} (hk : k < r.out.length) :
    r.out[k]? = some ((complete op r s).byte .obuf k) := by
  rw [byte_complete_obuf, dif_pos hk, List.getElem?_eq_getElem hk]

/-- Settles O36: error entry leaves the hidden registers, and a completed command has those of its result. -/
theorem hiddenRegistersAfterCommand : Obligations.HiddenRegistersAfterCommand := by
  intro i s t h
  rcases exec_cases h with ⟨e, rfl⟩ | ⟨r, hr, ha, rfl⟩
  case inl =>
    have herr : statusErrFlag (raise e i.opcode s).status = true := (statusErr_fields e i.opcode).1
    exact ⟨fun _ => rfl, fun h0 => absurd (herr.symm.trans h0) (by decide)⟩
  case inr =>
    have hok : statusErrFlag (complete i.opcode r s).status = false := (statusOk_fields i.opcode).1
    refine ⟨fun h0 => absurd (hok.symm.trans h0) (by decide), fun _ =>
      ⟨?ecbenc, ?ecbdec, ?cbcenc, ?cbcdec, ?classifier, ?other⟩⟩
    case ecbenc =>
      rintro rfl
      exact ecbenc_scratch hr
    case ecbdec =>
      rintro (rfl | rfl)
      · exact ecbdec_scratch hr
      · exact ecbdec_scratch hr
    case cbcenc =>
      rintro rfl
      exact cbcenc_scratch hr fun k hk => out_getElem?_complete _ r s hk
    case cbcdec =>
      rintro (rfl | rfl)
      · exact cbcdec_scratch hr
      · exact cbcdec_scratch hr
    case classifier => exact fun hi => commandBody_scratch_counts hi hr
    case other => exact (commandBody_yields ha hr).scratch_kept

/-! ## The hidden registers do not matter (R41, R46) -/

/-- The state with other hidden registers. -/
def State.withScratch (s : State) (x : Scratch) : State := { s with scratch := x }

@[simp] theorem operandA_withScratch (s : State) (x : Scratch) : (s.withScratch x).operandA = s.operandA := rfl

/-- The result with other hidden registers. -/
def Result.withScratch (r : Result) (x : Scratch) : Result := { r with scratch := x }

theorem map_check {p : Prop} [Decidable p] {f : Result → Result} {e : CmdError} {x : Except CmdError Result} :
    (if p then .error e else x).map f = if p then .error e else x.map f := by
  split <;> rfl

/-- With other hidden registers a command's own rule yields the same, but for the hidden registers. -/
theorem commandBody_withScratch (i : Instr) (s : State) (x : Scratch) :
    ∃ y, commandBody i (s.withScratch x) = (commandBody i s).map (Result.withScratch · y) := by
  cases i with
  | pad bs => exact ⟨x, by simp only [commandBody, padBody, map_check]; rfl⟩
  | unpad bs => exact ⟨x, by simp only [commandBody, unpadBody, map_check]; rfl⟩
  | padded bs => exact ⟨x, by simp only [commandBody, paddedBody, map_check]; rfl⟩
  | xorkey => exact ⟨x, by simp only [commandBody, xorkeyBody, map_check]; rfl⟩
  | xorroll mode => exact ⟨x, rfl⟩
  | xorctr start inc => exact ⟨x, rfl⟩
  | ecbenc =>
    refine ⟨((ecbencMessage Config.params (s.withScratch x)).result (s.withScratch x) []).scratch, ?_⟩
    simp only [commandBody, ecbencBody, map_check, Message.result, ecbencMessage_out, ecbencMessage_calls]
    rfl
  | ecbdec rp =>
    refine ⟨((ecbdecMessage Config.params (s.withScratch x)).result (s.withScratch x) []).scratch, ?_⟩
    simp only [commandBody, ecbdecBody, map_check, Message.result, ecbdecMessage_out, ecbdecMessage_calls]
    rfl
  | cbcenc =>
    refine ⟨((cbcencMessage Config.params s).result (s.withScratch x) []).scratch, ?_⟩
    simp only [commandBody, cbcencBody, map_check]
    rfl
  | cbcdec rp =>
    refine ⟨((cbcdecMessage Config.params s).result (s.withScratch x) []).scratch, ?_⟩
    simp only [commandBody, cbcdecBody, map_check]
    rfl
  | hamming => exact ⟨x, rfl⟩
  | keysize min max =>
    refine ⟨x, ?_⟩
    simp only [commandBody, keysizeBody, map_check, operandA_withScratch]
    cases findKeysize s.operandA min.toNat max.toNat <;> rfl
  | english => exact ⟨{ x with counts := englishCounts s.operandA }, rfl⟩
  | solve1 => exact ⟨{ x with counts := englishCounts (trial s.operandA 255) }, rfl⟩

/-- With other hidden registers a command does the same, but for the hidden registers. -/
theorem exec_withScratch {i : Instr} {s t : State} (x : Scratch) (h : exec i s = .next t) :
    ∃ y, exec i (s.withScratch x) = .next (t.withScratch y) := by
  by_cases hc : Oversized i s
  · cases (exec_capacityExceeded hc).symm.trans h
    exact ⟨x, exec_capacityExceeded (s := s.withScratch x) hc⟩
  · obtain ⟨ha, hb⟩ := not_oversized hc
    obtain ⟨y, hy⟩ := commandBody_withScratch i s x
    cases hbody : commandBody i s with
    | error e =>
      cases (exec_error ha hb hbody).symm.trans h
      rw [hbody] at hy
      exact ⟨x, exec_error (s := s.withScratch x) ha hb hy⟩
    | ok r =>
      cases (exec_ok ha hb hbody).symm.trans h
      rw [hbody] at hy
      exact ⟨y, exec_ok (s := s.withScratch x) ha hb hy⟩

/-! ## Operands (R42, R46) -/

theorem bytes_congr {s t : State} {buffer : Buf} {n : Nat} (h : ∀ i, i < n → t.byte buffer i = s.byte buffer i) :
    t.bytes buffer n = s.bytes buffer n :=
  List.map_congr_left fun i hi => h i (List.mem_range.1 hi)

/-- States with the same operands agree on everything a command reads, once their hidden registers agree. -/
theorem SameOperands.sameInputs {s t : State} (h : SameOperands s t) (i : Instr) :
    SameInputs i (s.withScratch t.scratch) t := by
  obtain ⟨hk0, hk1, hk2, hk3, hv0, hv1, hv2, hv3, hklen, hivlen, halen, hblen, hA, hB⟩ := h
  exact
    { operandA := by
        change t.bytes .abuf t.alen.toNat = s.bytes .abuf s.alen.toNat
        rw [halen, bytes_congr hA]
      scratch := rfl
      operandB := fun _ => by
        change t.bytes .bbuf t.blen.toNat = s.bytes .bbuf s.blen.toNat
        rw [hblen, bytes_congr hB]
      key := fun _ => by
        change t.key3 ++ t.key2 ++ t.key1 ++ t.key0 = s.key3 ++ s.key2 ++ s.key1 ++ s.key0
        rw [hk0, hk1, hk2, hk3]
      klen := fun _ => hklen
      iv := fun _ => by
        change t.iv3 ++ t.iv2 ++ t.iv1 ++ t.iv0 = s.iv3 ++ s.iv2 ++ s.iv1 ++ s.iv0
        rw [hv0, hv1, hv2, hv3]
      ivlen := fun _ => hivlen }

/-- Settles O34: give the first state the hidden registers of the second, which changes nothing of the answer; the two
then agree on all inputs of the command. -/
theorem resultsDependOnOperandsOnly : Obligations.ResultsDependOnOperandsOnly := by
  intro i s₁ s₂ t₁ t₂ hsame h₁ h₂
  obtain ⟨y, h₁'⟩ := exec_withScratch s₂.scratch h₁
  have hanswer := exec_congr (hsame.sameInputs i) h₁' h₂
  exact hanswer

theorem KeepsOperands.sameOperands {s t : State} (h : KeepsOperands s t) : SameOperands s t := by
  obtain ⟨hk0, hk1, hk2, hk3, hv0, hv1, hv2, hv3, hklen, hivlen, halen, hblen, hA, hB⟩ := h
  exact ⟨hk0, hk1, hk2, hk3, hv0, hv1, hv2, hv3, hklen, hivlen, halen, hblen, fun k _ => hA k, fun k _ => hB k⟩

/-- The frame of every command: no operand, nothing outside HBCE and no byte of OBUF from OLEN up changes (R35, R42). -/
theorem exec_frame {i : Instr} {s t : State} (h : exec i s = .next t) :
    KeepsOperands s t ∧ KeepsWorld s t ∧ KeepsOutputFrom t.olen.toNat s t := by
  rcases exec_cases h with ⟨e, rfl⟩ | ⟨r, hr, ha, rfl⟩
  case inl =>
    exact ⟨⟨rfl, rfl, rfl, rfl, rfl, rfl, rfl, rfl, rfl, rfl, rfl, rfl, fun _ => rfl, fun _ => rfl⟩,
      ⟨rfl, rfl, rfl⟩, fun _ _ => rfl⟩
  case inr =>
    have hlen : r.out.length < 2 ^ 32 := by
      have hfits := (commandBody_yields ha hr).out_fits
      have hbuf := Config.bufBytes_le
      omega
    obtain ⟨-, holen, hoperands, hworld, hout⟩ := complete_completes i.opcode r s hlen
    exact ⟨hoperands, hworld, by rwa [holen]⟩

/-- Settles O33: what a command leaves has the operands it started from, so the second time its answer is the same. -/
theorem operandsNeverModified : Obligations.OperandsNeverModified := by
  intro i s t h
  obtain ⟨hoperands, hworld, hout⟩ := exec_frame h
  have hu := exec_eq_runCommand i t
  obtain ⟨hres, d, hd, hd'⟩ := resultsDependOnOperandsOnly i s t _ _ hoperands.sameOperands h hu
  exact ⟨hoperands, hworld, hout, _, d, hu, hres, hd, hd'⟩

end Sys2Proof.Machine

/-! PROOFS. The host bus and the memory it reaches (R61 to R71): what a transaction answers and keeps, the address map as
legality sees it, register and window accesses, and the words of the buffer windows. -/

namespace Sys2Proof.Machine

/-! ## Taking an event and answering it (R9, R61) -/

theorem respond_taking (s : State) (rest : List HostEvent) (r : Response) :
    (s.taking rest).respond r = s.answered rest r := rfl

@[simp] theorem byte_taking (s : State) (rest : List HostEvent) (buffer : Buf) (i : Nat) :
    (s.taking rest).byte buffer i = s.byte buffer i := by
  cases buffer <;> rfl

/-- What is still to be presented plays no part in a read (R64). -/
theorem readLoc_taking (l : Loc) (s : State) (rest : List HostEvent) : readLoc l (s.taking rest) = readLoc l s := by
  cases l with
  | reg r => cases r <;> rfl
  | window buffer index => simp only [readLoc, readWindow, byte_taking]

/-- What is still to be presented plays no part in a write (R65). -/
theorem writeLoc_taking (l : Loc) (v : Word) (s : State) (rest : List HostEvent) :
    writeLoc l v (s.taking rest) = (writeLoc l v s).taking rest := by
  cases l with
  | reg r => cases r <;> rfl
  | window buffer index => cases buffer <;> rfl

/-- The step that takes a transaction (R9). -/
theorem step_transaction {s : State} {tr : Transaction} {rest : List HostEvent}
    (h : s.host = .transaction tr :: rest) : step s = transact tr (s.taking rest) := by
  unfold step
  rw [h]
  rfl

/-- The step that takes a legal read answers the location's value and changes nothing else (R64, R71). -/
theorem step_readLoc {s : State} {addr : Address} {be : BitVec 4} {rest : List HostEvent} {l : Loc}
    (h : s.host = .transaction (.read addr be) :: rest) (hl : target Config.params.bufBytes addr be = some l) :
    step s = .next (s.answered rest (readDone (readLoc l s))) := by
  rw [step_read h hl, readLoc_taking, respond_taking]

/-- The step that takes a legal write of a location other than CMD writes it and changes nothing else (R65). -/
theorem step_writeLoc {s : State} {addr : Address} {be : BitVec 4} {v : Word} {rest : List HostEvent} {l : Loc}
    (h : s.host = .transaction (.write addr be v) :: rest) (hl : target Config.params.bufBytes addr be = some l)
    (hc : l ≠ .reg .cmd) : step s = .next ((writeLoc l v s).answered rest writeDone) := by
  rw [step_write h hl hc, writeLoc_taking, respond_taking]

/-! ## What a transaction answers and keeps (R62, R64, R65, R70, R103) -/

/-- The location a transaction accesses, if it is legal (R62). -/
def Transaction.loc : Transaction → Option Loc
  | .read addr be => target Config.params.bufBytes addr be
  | .write addr be _ => target Config.params.bufBytes addr be

/-- An illegal transaction, read or write, at CMD or elsewhere (R62, R70). -/
theorem transact_of_loc_none {tr : Transaction} (h : tr.loc = none) (s : State) :
    transact tr s = .next (s.respond busError) := by
  cases tr with
  | read addr be =>
    simp only [Transaction.loc] at h
    simp only [transact, h]
  | write addr be v =>
    simp only [Transaction.loc] at h
    simp only [transact, h]

/-- A write touches nothing outside HBCE. -/
theorem writeLoc_keepsWorld (l : Loc) (v : Word) (s : State) : KeepsWorld s (writeLoc l v s) := by
  cases l with
  | reg r => cases r <;> exact ⟨rfl, rfl, rfl⟩
  | window buffer index => cases buffer <;> exact ⟨rfl, rfl, rfl⟩

/-- Every command word, legal or not, has a next state, and touches nothing outside HBCE (R103, R248). -/
theorem execCommand_keepsWorld (w : Word) (s : State) : ∃ u, execCommand w s = .next u ∧ KeepsWorld s u := by
  rcases execCommand_cases w s with ⟨e, -, he⟩ | ⟨i, e, -, he⟩ | ⟨i, r, -, -, -, he⟩
  · exact ⟨_, he, rfl, rfl, rfl⟩
  · exact ⟨_, he, rfl, rfl, rfl⟩
  · exact ⟨_, he, rfl, rfl, rfl⟩

/-- A legal transaction is answered once, without a bus error (R64, R65, R103). -/
theorem transact_of_loc_some {tr : Transaction} {l : Loc} (h : tr.loc = some l) (s : State) :
    ∃ u r, transact tr s = .next (u.respond r) ∧ KeepsWorld s u ∧ r.err = false := by
  cases tr with
  | read addr be =>
    simp only [Transaction.loc] at h
    simp only [transact, h]
    exact ⟨s, _, rfl, ⟨rfl, rfl, rfl⟩, rfl⟩
  | write addr be v =>
    simp only [Transaction.loc] at h
    simp only [transact, h]
    split
    · next hnone => cases hnone
    · obtain ⟨u, hu, hworld⟩ := execCommand_keepsWorld v s
      rw [hu]
      exact ⟨u, _, rfl, hworld, rfl⟩
    · exact ⟨_, _, rfl, writeLoc_keepsWorld _ v s, rfl⟩

/-! ## Legality and the address map (R62, R63, R69) -/

theorem regMap_lookup_eq_none_iff (a : Nat) : regMap.lookup a = none ↔ a ∉ regMap.map Prod.fst := by
  simp only [List.lookup_eq_none_iff, bne_iff_ne, List.mem_map, not_exists, not_and, ne_comm, ne_eq]

/-- The windows do not overlap: each is at most 0x10000 bytes long (R5, R63). -/
theorem windowAt_eq_none_iff {cap : Nat} (hcap : cap ≤ 65536) (a : Nat) : windowAt cap a = none ↔
    ¬ ((0x10000 ≤ a ∧ a < 0x10000 + cap) ∨ (0x20000 ≤ a ∧ a < 0x20000 + cap)
      ∨ (0x30000 ≤ a ∧ a < 0x30000 + cap)) := by
  unfold windowAt
  split_ifs <;> simp only [true_iff, false_iff] <;> omega

/-- An offset names no location exactly when R63 maps none there. -/
theorem locate_eq_none_iff {cap : Nat} (hcap : cap ≤ 65536) (a : Nat) : locate cap a = none ↔ ¬ Mapped cap a := by
  have hregs := regMap_lookup_eq_none_iff a
  unfold Mapped
  rw [not_or, ← windowAt_eq_none_iff hcap]
  unfold locate
  cases hr : regMap.lookup a with
  | none => exact ⟨fun h => ⟨hregs.1 hr, h⟩, And.right⟩
  | some r => exact ⟨nofun, fun h => absurd (hregs.2 h.1) (by simp [hr])⟩

/-- A transaction has no location exactly when it is illegal (R62). -/
theorem target_eq_none_iff (addr : Address) (be : BitVec 4) :
    target Config.params.bufBytes addr be = none ↔ ¬ Legal Config.bufBytes addr be := by
  unfold target Legal
  rw [Config.params_bufBytes, ← and_assoc]
  by_cases h : addr.toNat % 4 = 0 ∧ be = 0xF
  · rw [if_pos h, locate_eq_none_iff Config.bufBytes_le]
    exact not_congr (and_iff_right h).symm
  · rw [if_neg h]
    exact iff_of_true rfl fun hl => h hl.1

/-- Settles O47: an illegal transaction is one without a location. -/
theorem illegalTransactionsChangeNothing : Obligations.IllegalTransactionsChangeNothing := by
  intro s addr be v rest hhost
  obtain ⟨tr, htr, hloc⟩ : ∃ tr, s.host = .transaction tr :: rest
      ∧ tr.loc = target Config.params.bufBytes addr be := by
    rcases hhost with h | h
    · exact ⟨_, h, rfl⟩
    · exact ⟨_, h, rfl⟩
  rw [step_transaction htr]
  refine ⟨fun hillegal => ?_, fun hlegal => ?_⟩
  · rw [transact_of_loc_none (hloc.trans ((target_eq_none_iff addr be).2 hillegal)), respond_taking]
    rfl
  · obtain ⟨l, hl⟩ := Option.ne_none_iff_exists'.1 (mt (target_eq_none_iff addr be).1 (not_not_intro hlegal))
    obtain ⟨u, r, hu, ⟨hrest, hresponses, -⟩, hr⟩ := transact_of_loc_some (hloc.trans hl) (s.taking rest)
    exact ⟨_, r, hu, hr, hrest, congrArg (· ++ [r]) hresponses⟩

/-! ## Register accesses (R27, R63 to R65, R71) -/

/-- A legal access to each register of the address map (R62, R63). -/
theorem target_of_mem_regMap {a : Nat} {r : Reg} (h : (a, r) ∈ regMap) (cap : Nat) :
    target cap (BitVec.ofNat 18 a) 0xF = some (.reg r) := by
  have hmap : ∀ p ∈ regMap,
      regMap.lookup p.1 = some p.2 ∧ (BitVec.ofNat 18 p.1).toNat = p.1 ∧ p.1 % 4 = 0 := by decide
  obtain ⟨hlookup, hfits, haligned⟩ := hmap _ h
  exact target_register cap hlookup hfits haligned

theorem registerValues_eq_map (s : State) : registerValues s = regMap.map fun p => (p.1, readReg p.2 s) := rfl

/-- A read of whatever address and enables changes nothing but what has been answered (R64, R70, R71). -/
theorem transact_read (addr : Address) (be : BitVec 4) (s : State) :
    ∃ r, transact (.read addr be) s = .next (s.respond r) := by
  unfold transact
  dsimp only
  split
  · exact ⟨_, rfl⟩
  · exact ⟨_, rfl⟩

/-- Settles O40: the listed values are what `readReg` gives at each offset of the address map. -/
theorem readsReturnRegisters : Obligations.ReadsReturnRegisters := by
  intro s rest
  refine ⟨fun a v hv hhost => ?_, fun addr be hhost => ?_⟩
  · rw [registerValues_eq_map, List.mem_map] at hv
    obtain ⟨⟨a, r⟩, hr, ⟨⟩⟩ := hv
    exact step_readLoc hhost (target_of_mem_regMap hr _)
  · rw [step_transaction hhost]
    exact transact_read addr be (s.taking rest)

/-- The registers that ignore a write (R28 to R32, R65). -/
def Reg.readOnly (r : Reg) : Bool := r ∈ [.status, .olen, .res0, .res1, .res2]

/-- The registers that take a written value (R21 to R26, R65): not CMD, which holds none. -/
def Reg.readWrite (r : Reg) : Bool := r ≠ .cmd ∧ r.readOnly = false

theorem registerWrites_eq_map (s : State) (v : Word) : registerWrites s v =
    (regMap.filter (fun p => p.2.readWrite) ++ regMap.filter (fun p => p.2.readOnly)).map
      fun p => (p.1, writeReg p.2 v s) := rfl

theorem ne_cmd_of_readWrite_or_readOnly {r : Reg} (h : r.readWrite = true ∨ r.readOnly = true) : r ≠ .cmd := by
  rintro rfl
  revert h
  decide

/-- Each listed write is `writeReg` at an offset of the address map that is not CMD's. -/
theorem mem_registerWrites {s t : State} {v : Word} {a : Nat} (h : (a, t) ∈ registerWrites s v) :
    ∃ r, (a, r) ∈ regMap ∧ r ≠ .cmd ∧ t = writeReg r v s := by
  rw [registerWrites_eq_map, List.mem_map] at h
  obtain ⟨⟨a, r⟩, hr, ⟨⟩⟩ := h
  rw [List.mem_append, List.mem_filter, List.mem_filter, ← and_or_left] at hr
  obtain ⟨hmem, hkind⟩ := hr
  exact ⟨r, hmem, ne_cmd_of_readWrite_or_readOnly hkind, rfl⟩

/-- Settles O41: a register offset, a word of the OBUF window, which ignores the write, and CMD. -/
theorem writesReachRegisters : Obligations.WritesReachRegisters := by
  intro s v rest
  refine ⟨fun a t ht hhost => ?register, fun w hw hhost => ?obuf, fun hhost => ?cmd⟩
  case register =>
    obtain ⟨r, hr, hcmd, rfl⟩ := mem_registerWrites ht
    exact ⟨writeDone, rfl, step_writeLoc hhost (target_of_mem_regMap hr _) (by simpa using hcmd)⟩
  case obuf => exact ⟨writeDone, rfl, step_writeLoc hhost (target_window .obuf w hw) nofun⟩
  case cmd => exact ⟨writeDone, rfl, step_write_cmd hhost⟩

/-! ## The words of the buffer windows (R63, R66, R67) -/

theorem wordOfBytes_four (x0 x1 x2 x3 : Byte) : wordOfBytes [x0, x1, x2, x3] = littleEndianWord x0 x1 x2 x3 := by
  unfold wordOfBytes littleEndianWord
  congr 1
  simp only [leNat]
  omega

/-- A window word is the four bytes of its buffer, little-endian (R66). -/
theorem readWindow_eq (buffer : Buf) (index : Nat) (s : State) : readWindow buffer index s =
    littleEndianWord (s.byte buffer index) (s.byte buffer (index + 1)) (s.byte buffer (index + 2))
      (s.byte buffer (index + 3)) :=
  wordOfBytes_four _ _ _ _

/-- Byte `i` of a buffer whose byte there was `x`, once `v` has been stored at the four indices from `index` up. -/
theorem stored_byte_eq (v : Word) (index i : Nat) (x : Byte) :
    (if index ≤ i then ((bytesOfWord v)[i - index]?).getD x else x) =
      if index ≤ i ∧ i < index + 4 then v.extractLsb' (8 * (i - index)) 8 else x := by
  by_cases hlo : index ≤ i
  · rw [if_pos hlo]
    by_cases hhi : i < index + 4
    · rw [if_pos ⟨hlo, hhi⟩, bytesOfWord_getElem? (by omega), Option.getD_some]
    · have hend : (bytesOfWord v).length ≤ i - index := by
        rw [bytesOfWord_length]
        omega
      rw [if_neg fun h => hhi h.2, List.getElem?_eq_none hend, Option.getD_none]
  · rw [if_neg hlo, if_neg fun h => hlo h.1]

/-- Settles O42: an access to word `w` of a window is a legal one, at the four bytes from `4w` up. -/
theorem windowWordsAreLittleEndian : Obligations.WindowWordsAreLittleEndian := by
  intro s v w rest hw
  refine ⟨fun base buffer hbase hhost => ?read, fun hhost => ?abuf, fun hhost => ?bbuf⟩
  case read =>
    have hmap : (base, buffer) ∈ [Buf.abuf, .bbuf, .obuf].map fun b => (b.base, b) := hbase
    obtain ⟨_, -, ⟨⟩⟩ := List.mem_map.1 hmap
    rw [step_readLoc hhost (target_window buffer w hw), ← readWindow_eq]
    rfl
  case abuf =>
    exact ⟨s.abuf.writeBytes (4 * w) (bytesOfWord v), writeDone, rfl,
      step_writeLoc hhost (target_window .abuf w hw) nofun,
      fun i => (byte_writeWindow_abuf (4 * w) v s i).trans (stored_byte_eq v (4 * w) i _)⟩
  case bbuf =>
    exact ⟨s.bbuf.writeBytes (4 * w) (bytesOfWord v), writeDone, rfl,
      step_writeLoc hhost (target_window .bbuf w hw) nofun,
      fun i => (byte_writeWindow_bbuf (4 * w) v s i).trans (stored_byte_eq v (4 * w) i _)⟩

end Sys2Proof.Machine

/-! PROOFS. Command words (R91 to R102): the row of every command, what decoding a word can answer, the word of a command
as a number, and an illegal word's effect (R99). -/

namespace Sys2Proof

/-! ## The row of a command (R97) -/

/-- A command's format says which of its fields its word carries (R92 to R95): the others are zero. -/
theorem Instr.flag_eq_false {i : Instr} (h : i.format ≠ .F) : i.flag = false := by
  cases i with
  | xorroll | ecbdec | cbcdec => exact absurd rfl h
  | _ => rfl

theorem Instr.immA_eq_zero {i : Instr} (hA : i.format ≠ .A) (hAB : i.format ≠ .AB) : i.immA = 0 := by
  cases i with
  | pad | unpad | padded => exact absurd rfl hA
  | xorctr | keysize => exact absurd rfl hAB
  | _ => rfl

theorem Instr.immB_eq_zero {i : Instr} (h : i.format ≠ .AB) : i.immB = 0 := by
  cases i with
  | xorctr | keysize => exact absurd rfl h
  | _ => rfl

theorem RollMode.flag_ofFlag (f : Bool) : (RollMode.ofFlag f).flag = f := by
  cases f <;> rfl

theorem RollMode.ofFlag_flag (mode : RollMode) : RollMode.ofFlag mode.flag = mode := by
  cases mode <;> rfl

/-- Every command stands in the table, in a row that makes it from its own fields. -/
theorem exists_row (i : Instr) : ∃ r ∈ opcodeTable,
    r.op = i.opcode ∧ r.format = i.format ∧ r.build i.flag i.immA i.immB = i := by
  cases i with
  | pad bs => exact ⟨opcodeTable[0], List.getElem_mem _, rfl, rfl, rfl⟩
  | unpad bs => exact ⟨opcodeTable[1], List.getElem_mem _, rfl, rfl, rfl⟩
  | padded bs => exact ⟨opcodeTable[2], List.getElem_mem _, rfl, rfl, rfl⟩
  | xorkey => exact ⟨opcodeTable[3], List.getElem_mem _, rfl, rfl, rfl⟩
  | xorroll mode => exact ⟨opcodeTable[4], List.getElem_mem _, rfl, rfl, congrArg _ mode.ofFlag_flag⟩
  | xorctr start inc => exact ⟨opcodeTable[5], List.getElem_mem _, rfl, rfl, rfl⟩
  | ecbenc => exact ⟨opcodeTable[6], List.getElem_mem _, rfl, rfl, rfl⟩
  | ecbdec rp => exact ⟨opcodeTable[7], List.getElem_mem _, rfl, rfl, rfl⟩
  | cbcenc => exact ⟨opcodeTable[8], List.getElem_mem _, rfl, rfl, rfl⟩
  | cbcdec rp => exact ⟨opcodeTable[9], List.getElem_mem _, rfl, rfl, rfl⟩
  | hamming => exact ⟨opcodeTable[10], List.getElem_mem _, rfl, rfl, rfl⟩
  | keysize min max => exact ⟨opcodeTable[11], List.getElem_mem _, rfl, rfl, rfl⟩
  | english => exact ⟨opcodeTable[12], List.getElem_mem _, rfl, rfl, rfl⟩
  | solve1 => exact ⟨opcodeTable[13], List.getElem_mem _, rfl, rfl, rfl⟩

/-- The word of a command selects the command's row, since the fields that the row does not use are zero. -/
theorem selects_encode {r : Row} {i : Instr} (hop : r.op = i.opcode) (hformat : r.format = i.format) :
    r.selects (encode i) = true := by
  rw [selects_iff, hop, hformat]
  exact ⟨encode_op i, encode_unused i, fun hF => (encode_f i).trans (Instr.flag_eq_false hF),
    fun hA hAB => (encode_a i).trans (Instr.immA_eq_zero hA hAB),
    fun hAB => (encode_b i).trans (Instr.immB_eq_zero hAB)⟩

/-- Settles O1: the word of a command selects the command's row, and its fields are the command's own. -/
theorem decodeInvertsEncode : Obligations.DecodeInvertsEncode := by
  intro i
  obtain ⟨r, hr, hop, hformat, hbuild⟩ := exists_row i
  rw [decode_of_selects hr (selects_encode hop hformat), encode_f, encode_a, encode_b, hbuild]

/-! ## What decoding a word can answer (R98) -/

/-- The command of a selected row, or illegal because the word selects none. -/
theorem decode_cases (w : Word) :
    (∃ r ∈ opcodeTable, r.selects w = true ∧ decode w = .ok (r.build (fField w) (aField w) (bField w)))
    ∨ (∀ r ∈ opcodeTable, ¬ r.selects w = true) ∧ ∃ e, decode w = .error e := by
  by_cases h : ∃ r ∈ opcodeTable, r.selects w = true
  · obtain ⟨r, hr, hsel⟩ := h
    exact .inl ⟨r, hr, hsel, decode_of_selects hr hsel⟩
  · have hnone : ∀ r ∈ opcodeTable, ¬ r.selects w = true := fun r hr hsel => h ⟨r, hr, hsel⟩
    refine .inr ⟨hnone, ?_⟩
    unfold decode
    rw [List.find?_eq_none.2 hnone]
    exact ⟨_, rfl⟩

theorem decode_eq_ok_iff {w : Word} {i : Instr} : decode w = .ok i ↔
    ∃ r ∈ opcodeTable, r.selects w = true ∧ r.build (fField w) (aField w) (bField w) = i := by
  refine ⟨fun h => ?_, fun ⟨r, hr, hsel, hbuild⟩ => hbuild ▸ decode_of_selects hr hsel⟩
  rcases decode_cases w with ⟨r, hr, hsel, hok⟩ | ⟨-, e, he⟩
  · cases hok.symm.trans h
    exact ⟨r, hr, hsel, rfl⟩
  · cases he.symm.trans h

theorem decode_eq_error_iff {w : Word} :
    (∃ e, decode w = .error e) ↔ ∀ r ∈ opcodeTable, ¬ r.selects w = true := by
  refine ⟨fun ⟨e, he⟩ r hr hsel => ?_, fun h => ?_⟩
  · cases he.symm.trans (decode_of_selects hr hsel)
  · rcases decode_cases w with ⟨r, hr, hsel, -⟩ | ⟨-, he⟩
    · exact absurd hsel (h r hr)
    · exact he

/-- The fields of the command that a row makes: those its format has, and zero for the others. -/
theorem build_fields {r : Row} (hr : r ∈ opcodeTable) (f : Bool) (a b : Byte) :
    (r.build f a b).opcode = r.op
    ∧ (r.build f a b).flag = (if r.format = .F then f else false)
    ∧ (r.build f a b).immA = (if r.format = .A ∨ r.format = .AB then a else 0)
    ∧ (r.build f a b).immB = (if r.format = .AB then b else 0) := by
  simp only [opcodeTable, List.mem_cons, List.not_mem_nil, or_false] at hr
  rcases hr with rfl | rfl | rfl | rfl | rfl | rfl | rfl | rfl | rfl | rfl | rfl | rfl | rfl | rfl
  case inr.inr.inr.inr.inl => exact ⟨rfl, RollMode.flag_ofFlag f, rfl, rfl⟩
  all_goals exact ⟨rfl, rfl, rfl, rfl⟩

/-- The command that a selected row makes from a word's fields has that word. -/
theorem encode_build {r : Row} {w : Word} (hr : r ∈ opcodeTable) (hsel : r.selects w = true) :
    encode (r.build (fField w) (aField w) (bField w)) = w := by
  obtain ⟨hop, hflag, himmA, himmB⟩ := build_fields hr (fField w) (aField w) (bField w)
  obtain ⟨hopw, hunused, hF, hA, hAB⟩ := (selects_iff r w).1 hsel
  conv_rhs => rw [word_eq_joined w]
  refine joined_inj.2 ⟨?b, ?a, hunused.symm, ?f, hop.trans hopw.symm⟩
  case b =>
    rw [himmB]
    split
    · rfl
    · next h => exact (hAB h).symm
  case a =>
    rw [himmA]
    split
    · rfl
    · next h => exact (hA (h ∘ .inl) (h ∘ .inr)).symm
  case f =>
    rw [hflag]
    split
    · rfl
    · next h => exact (hF h).symm

/-- Settles O2. -/
theorem legalWordIsItsEncoding : Obligations.LegalWordIsItsEncoding := by
  intro w i h
  obtain ⟨r, hr, hsel, rfl⟩ := decode_eq_ok_iff.1 h
  exact encode_build hr hsel

/-- No word selects two rows, since their opcodes differ. -/
theorem row_eq_of_selects {r q : Row} {w : Word} (hr : r ∈ opcodeTable) (hq : q ∈ opcodeTable)
    (hrw : r.selects w = true) (hqw : q.selects w = true) : r = q :=
  opcodeTable_op_inj r hr q hq (((selects_iff r w).1 hrw).1.symm.trans ((selects_iff q w).1 hqw).1)

/-- A word does not select a row exactly when, if it has the row's opcode, some bit outside the row's fields is 1. -/
theorem not_selects_iff (r : Row) (w : Word) : ¬ r.selects w = true ↔
    (r.op = w.extractLsb' 0 8 →
      (w.extractLsb' 9 7 ≠ 0 ∨ (r.format ≠ .F ∧ w.getLsbD 8 = true)
        ∨ (r.format ≠ .A ∧ r.format ≠ .AB ∧ w.extractLsb' 16 8 ≠ 0)
        ∨ (r.format ≠ .AB ∧ w.extractLsb' 24 8 ≠ 0))) := by
  rw [selects_iff, eq_comm (a := r.op), ← Bool.not_eq_true]
  tauto

/-- Settles O3, row by row of the table. -/
theorem decodeFollowsOpcodeTable : Obligations.DecodeFollowsOpcodeTable := by
  intro w
  refine ⟨fun r hr q hq hrw hqw => row_eq_of_selects hr hq hrw hqw, fun r hr hsel => decode_of_selects hr hsel, ?_⟩
  rw [decode_eq_error_iff]
  exact forall₂_congr fun r _ => not_selects_iff r w

/-! ## The word of a command as a number (R101, R102) -/

/-- Two words one above the other, as a number. -/
theorem append_toNat {m n : Nat} (x : BitVec m) (y : BitVec n) : (x ++ y).toNat = 2 ^ n * x.toNat + y.toNat := by
  rw [BitVec.toNat_append, ← Nat.shiftLeft_add_eq_or_of_lt y.isLt, Nat.shiftLeft_eq, mul_comm]

theorem encode_toNat (i : Instr) : (encode i).toNat
    = i.opcode.toNat + 2 ^ 8 * i.flag.toNat + 2 ^ 16 * i.immA.toNat + 2 ^ 24 * i.immB.toNat := by
  unfold encode
  rw [append_toNat, append_toNat, append_toNat, append_toNat, BitVec.toNat_ofBool, BitVec.toNat_zero]
  ring

/-- The line of `XORCTR` with both operands written out. -/
theorem assemble_xorctr {x : Nat} {n : Int} (hx : x < 256) (hlo : -128 ≤ n) (hhi : n ≤ 255) :
    (AsmLine.xorctr (some x) (some n)).assemble = some (.xorctr (BitVec.ofNat 8 x) (BitVec.ofInt 8 n)) := by
  have hwf : (AsmLine.xorctr (some x) (some n)).wellFormed = true := by
    simp [AsmLine.wellFormed, fitsByteOpt, fitsByte, fitsIncrement, hx, hlo, hhi]
  exact if_pos hwf

/-- Settles O5. -/
theorem encodingIsSumOfFields : Obligations.EncodingIsSumOfFields := by
  refine ⟨encode_toNat, fun x n hx hlo hhi => ⟨_, assemble_xorctr hx hlo hhi, ?_⟩⟩
  rw [encode_toNat]
  have hstart : (BitVec.ofNat 8 x).toNat = x := Nat.mod_eq_of_lt hx
  have hinc : (BitVec.ofInt 8 n).toNat = (n % 256).toNat := BitVec.toNat_ofInt n
  simp only [Instr.opcode, Instr.flag, Instr.immA, Instr.immB, hstart, hinc]
  rfl

/-- The host's table reads every command from the number of its word. -/
theorem decodeTableWord_encode (i : Instr) : decodeTableWord 32 (encode i).toNat = some i := by
  unfold decodeTableWord
  rw [Nat.mod_eq_of_lt (encode i).isLt, BitVec.ofNat_toNat, BitVec.setWidth_eq, decodeInvertsEncode i]

/-- Settles O4: the words written out are those of the fourteen commands. -/
theorem wordsOfOpcodeTableDecode : Obligations.WordsOfOpcodeTableDecode := by
  have hwords : [0x00100001, 0x00FF0002, 0x00000003, 0x00000010, 0x00000111, 0xFF010012, 0x00000020, 0x00000021,
      0x00000022, 0x00000123, 0x00000030, 0x28020031, 0x00000032, 0x00000033]
      = [Instr.pad 16, .unpad 255, .padded 0, .xorkey, .xorroll .outputDifferential, .xorctr 1 255, .ecbenc,
          .ecbdec false, .cbcenc, .cbcdec true, .hamming, .keysize 2 40, .english, .solve1].map
        fun i => (encode i).toNat := by decide
  unfold Obligations.WordsOfOpcodeTableDecode
  rw [hwords]
  simp only [List.map_cons, List.map_nil, decodeTableWord_encode]

/-- The line of `XORCTR` with the start key alone takes the increment 1 (R102). -/
theorem assemble_xorctr_start (x : Byte) :
    (AsmLine.xorctr (some x.toNat) none).assemble = some (.xorctr x 1) := by
  have hwf : (AsmLine.xorctr (some x.toNat) none).wellFormed = true := by
    simp [AsmLine.wellFormed, fitsByteOpt, fitsByte, x.isLt]
  have hx : BitVec.ofNat 8 x.toNat = x := by simp
  calc (AsmLine.xorctr (some x.toNat) none).assemble = some (.xorctr (BitVec.ofNat 8 x.toNat) 1) := if_pos hwf
    _ = some (.xorctr x 1) := by rw [hx]

/-- Settles O6: each line of the table, `XORCTR s` by its fields. -/
theorem assemblerDefaultsExpand : Obligations.AssemblerDefaultsExpand := by
  refine ⟨by decide, by decide, by decide, by decide, fun x => ?_, by decide, by decide, by decide⟩
  rw [assemble_xorctr_start, Option.map_some, Option.some_inj]
  have hx := x.isLt
  apply BitVec.eq_of_toNat_eq
  rw [encode_toNat, BitVec.toNat_ofNat, Nat.mod_eq_of_lt (by omega)]
  change 0x12 + 2 ^ 8 * 0 + 2 ^ 16 * x.toNat + 2 ^ 24 * 1 = _
  omega

/-- Settles O30: the word 0 is illegal since no row has the opcode 0. -/
theorem illegalWordRaisesIllegalCommand : Obligations.IllegalWordRaisesIllegalCommand := by
  refine ⟨fun w e s h => ?_, decode_eq_error_iff.2 fun r hr hsel => ?_⟩
  · unfold Machine.execCommand
    rw [h]
    exact congrArg _ (Machine.raise_eq_errorState .illegalCommand (opField w) s)
  · have hop : ∀ r ∈ opcodeTable, r.op ≠ 0 := by decide
    exact hop r hr ((selects_iff r 0).1 hsel).1.symm

end Sys2Proof

/-! PROOFS. Host scripts (R106): a run of transactions with its answers, the bytes that packed words hold, and the lines
LOAD A, LOAD B, LOADKEY, LOADIV and READ O. -/

namespace Sys2Proof.Machine

/-! ## A run of transactions (R9, R61) -/

/-- The machine of `s` with `rest` still to be presented and `past` answered so far. -/
def State.inWorld (s : State) (rest : List HostEvent) (past : List Response) : State :=
  { s with host := rest, responses := past }

theorem readLoc_inWorld (l : Loc) (s : State) (rest : List HostEvent) (past : List Response) :
    readLoc l (s.inWorld rest past) = readLoc l s := by
  cases l with
  | reg r => cases r <;> rfl
  | window buffer index => cases buffer <;> rfl

theorem writeLoc_inWorld (l : Loc) (v : Word) (s : State) (rest : List HostEvent) (past : List Response) :
    writeLoc l v (s.inWorld rest past) = (writeLoc l v s).inWorld rest past := by
  cases l with
  | reg r => cases r <;> rfl
  | window buffer index => cases buffer <;> rfl

theorem StepsTo.trans {m n : Nat} {s u t : State} (hsu : StepsTo m s u) (hut : StepsTo n u t) :
    StepsTo (m + n) s t := by
  induction m generalizing s with
  | zero =>
    cases hsu
    rwa [Nat.zero_add]
  | succ m ih =>
    obtain ⟨x, hx, hxu⟩ := hsu
    rw [Nat.add_right_comm]
    exact ⟨x, hx, ih hxu⟩

theorem StepsTo.one {s t : State} (h : step s = .next t) : StepsTo 1 s t :=
  ⟨t, h, rfl⟩

/-- The transactions `ts`, presented next, take the machine from `s` to `t` and are answered `rs`, whatever has been
answered before and whatever is presented after them. -/
def Serves (ts : List Transaction) (s t : State) (rs : List Response) : Prop :=
  ∀ rest past, StepsTo ts.length (s.inWorld (ts.map .transaction ++ rest) past) (t.inWorld rest (past ++ rs))

theorem Serves.nil (s : State) : Serves [] s s [] := by
  intro rest past
  rw [List.append_nil]
  rfl

theorem Serves.append {ts ts' : List Transaction} {s u t : State} {rs rs' : List Response} (h : Serves ts s u rs)
    (h' : Serves ts' u t rs') : Serves (ts ++ ts') s t (rs ++ rs') := by
  intro rest past
  rw [List.length_append, List.map_append, List.append_assoc, ← List.append_assoc past]
  exact (h _ past).trans (h' rest _)

/-- Transactions numbered from 0 up, each with its own effect and answer. -/
theorem Serves.range {tr : Nat → Transaction} {g : Nat → State} {r : Nat → Response} (n : Nat)
    (h : ∀ w, w < n → Serves [tr w] (g w) (g (w + 1)) [r w]) :
    Serves ((List.range n).map tr) (g 0) (g n) ((List.range n).map r) := by
  induction n with
  | zero => exact Serves.nil _
  | succ n ih =>
    rw [List.range_succ, List.map_append, List.map_append]
    exact (ih fun w hw => h w (hw.trans n.lt_succ_self)).append (h n n.lt_succ_self)

/-- A run in the words of claims. -/
theorem Serves.stepsTo_presenting {ts : List Transaction} {s t : State} {rs : List Response} (h : Serves ts s t rs) :
    StepsTo ts.length (s.presenting ts) (t.inWorld s.host (s.responses ++ rs)) :=
  h s.host s.responses

/-- A legal read answers the location's value and changes nothing (R64). -/
theorem serves_read {a : Nat} {l : Loc} (hl : target Config.params.bufBytes (BitVec.ofNat 18 a) 0xF = some l)
    (s : State) : Serves [rdAt a] s s [readDone (readLoc l s)] := by
  intro rest past
  refine StepsTo.one ((step_readLoc rfl hl).trans ?_)
  rw [readLoc_inWorld]
  rfl

/-- A legal write of a location other than CMD (R65). -/
theorem serves_write {a : Nat} {l : Loc} (hl : target Config.params.bufBytes (BitVec.ofNat 18 a) 0xF = some l)
    (hc : l ≠ .reg .cmd) (v : Word) (s : State) : Serves [wrAt a v] s (writeLoc l v s) [writeDone] := by
  intro rest past
  refine StepsTo.one ((step_writeLoc rfl hl hc).trans ?_)
  rw [writeLoc_inWorld]
  rfl

/-- A write of a register of the address map other than CMD (R63, R65). -/
theorem serves_writeReg {a : Nat} {r : Reg} (h : (a, r) ∈ regMap) (hr : r ≠ .cmd) (v : Word) (s : State) :
    Serves [wrAt a v] s (writeReg r v s) [writeDone] :=
  serves_write (target_of_mem_regMap h _) (by simpa using hr) v s

/-! ## The bytes of a packed word (R66, R106) -/

/-- Byte `i` of the number of a byte sequence, 0 beyond its end. -/
theorem leNat_byte (bs : List Byte) : ∀ i : Nat, BitVec.ofNat 8 (leNat bs / 256 ^ i) = bs.getD i 0 := by
  induction bs with
  | nil => intro i; simp [leNat]
  | cons x xs ih =>
    intro i
    have hx := x.isLt
    cases i with
    | zero =>
      apply BitVec.eq_of_toNat_eq
      simp only [leNat, pow_zero, Nat.div_one, BitVec.toNat_ofNat, List.getD_cons_zero]
      omega
    | succ i =>
      have hdiv : (x.toNat + 256 * leNat xs) / 256 = leNat xs := by omega
      rw [leNat, pow_succ', ← Nat.div_div_eq_div_mul, hdiv, ih, List.getD_cons_succ]

theorem wordOfBytes_toNat {bs : List Byte} (h : bs.length ≤ 4) : (wordOfBytes bs).toNat = leNat bs := by
  have hlt : leNat bs < 256 ^ 4 := (leNat_lt bs).trans_le (Nat.pow_le_pow_right (by decide) h)
  exact Nat.mod_eq_of_lt hlt

/-- Four bytes packed and unpacked. -/
theorem bytesOfWord_wordOfBytes {bs : List Byte} (h : bs.length = 4) : bytesOfWord (wordOfBytes bs) = bs := by
  unfold bytesOfWord
  rw [wordOfBytes_toNat h.le, ← h, leBytes_leNat]

/-- Byte `k` of packed word `w` is byte `4w + k` of the sequence, 00 beyond its end. -/
theorem bytesOfWord_packedWord (bytes : List Byte) (w : Nat) {k : Nat} (hk : k < 4) :
    (bytesOfWord (packedWord bytes w))[k]? = some (bytes.getD (4 * w + k) 0) := by
  have hlen : k < (bytesOfWord (packedWord bytes w)).length := by rwa [bytesOfWord_length]
  have hword : ((bytes.drop (4 * w)).take 4).length ≤ 4 := List.length_take_le _ _
  rw [List.getElem?_eq_getElem hlen, Option.some_inj]
  refine (leBytes_getElem 4 _ k hlen).trans ?_
  rw [packedWord, wordOfBytes_toNat hword, leNat_byte]
  simp [List.getD_eq_getElem?_getD, hk]

theorem packedWord_extract (bytes : List Byte) (w : Nat) {k : Nat} (hk : k < 4) :
    (packedWord bytes w).extractLsb' (8 * k) 8 = bytes.getD (4 * w + k) 0 :=
  Option.some_inj.1 ((bytesOfWord_getElem? hk).symm.trans (bytesOfWord_packedWord bytes w hk))

/-! ## LOAD A and LOAD B (R106) -/

/-- The memory once the first `n` packed words of a sequence have been written into it from index 0 up. -/
def Memory.storeWords (m : Memory) (bytes : List Byte) : Nat → Memory
  | 0 => m
  | n + 1 => (m.storeWords bytes n).writeBytes (4 * n) (bytesOfWord (packedWord bytes n))

theorem Memory.find_storeWords (m : Memory) (bytes : List Byte) (n i : Nat) :
    (m.storeWords bytes n).find i = if i < 4 * n then some (bytes.getD i 0) else m.find i := by
  induction n with
  | zero => rfl
  | succ n ih =>
    rw [Memory.storeWords, Memory.find_writeBytes, ih]
    by_cases hlo : 4 * n ≤ i
    · rw [if_pos hlo, if_neg (not_lt.2 hlo)]
      by_cases hhi : i < 4 * (n + 1)
      · have hbyte := bytesOfWord_packedWord bytes n (k := i - 4 * n) (by omega)
        rw [Nat.add_sub_cancel' hlo] at hbyte
        rw [if_pos hhi, hbyte, Option.some_or]
      · have hend : (bytesOfWord (packedWord bytes n)).length ≤ i - 4 * n := by
          rw [bytesOfWord_length]
          omega
        rw [if_neg hhi, List.getElem?_eq_none hend, Option.none_or]
    · rw [if_neg hlo, if_pos (by omega), if_pos (by omega)]

/-- The byte that a buffer then holds, if it held `x` there. -/
theorem Memory.storeWords_byte (m : Memory) (bytes : List Byte) (n i : Nat) (x : Byte) :
    ((m.storeWords bytes n).find i).getD x = if i < 4 * n then bytes.getD i 0 else (m.find i).getD x := by
  rw [Memory.find_storeWords]
  split <;> rfl

/-- The writes of a load line (R106): the window words, one after another, then the length register. The sequence of
states is given as `g`. -/
theorem serves_loadBuffer {buffer : Buf} {a : Nat} {r : Reg} (hreg : (a, r) ∈ regMap) (hr : r ≠ .cmd)
    {bytes : List Byte} (hfits : bytes.length ≤ Config.bufBytes) (g : Nat → State)
    (hg : ∀ w, writeWindow buffer (4 * w) (packedWord bytes w) (g w) = g (w + 1)) :
    Serves (loadBuffer buffer.base a bytes) (g 0)
      (writeReg r (BitVec.ofNat 32 bytes.length) (g ((bytes.length + 3) / 4)))
      (List.replicate ((bytes.length + 3) / 4 + 1) writeDone) := by
  have hanswers : ∀ n, List.replicate (n + 1) writeDone = (List.range n).map (fun _ => writeDone) ++ [writeDone] :=
    fun n => by rw [List.replicate_succ', List.map_const', List.length_range]
  rw [hanswers]
  refine (Serves.range _ fun w hw => ?_).append (serves_writeReg hreg hr _ _)
  rw [← hg w]
  exact serves_write (target_window buffer w (by omega)) nofun _ _

/-- A run of writes is answered without a bus error. -/
theorem err_of_mem_replicate_writeDone {n : Nat} {r : Response} (h : r ∈ List.replicate n writeDone) :
    r.err = false := by
  rw [List.eq_of_mem_replicate h]
  rfl

/-- Settles O43: the two lines store the same packed words, each in its own buffer. -/
theorem loadLinesWriteBuffers : Obligations.LoadLinesWriteBuffers := by
  intro s bytes hfits
  constructor
  case left =>
    have hrun := serves_loadBuffer (buffer := .abuf) (a := 0x00008) (r := .alen) (by decide) nofun hfits
      (fun n => { s with abuf := s.abuf.storeWords bytes n }) fun _ => rfl
    exact ⟨_, _, _, rfl, hrun.stepsTo_presenting, fun _ => err_of_mem_replicate_writeDone,
      fun i => s.abuf.storeWords_byte bytes _ i _⟩
  case right =>
    have hrun := serves_loadBuffer (buffer := .bbuf) (a := 0x0000C) (r := .blen) (by decide) nofun hfits
      (fun n => { s with bbuf := s.bbuf.storeWords bytes n }) fun _ => rfl
    exact ⟨_, _, _, rfl, hrun.stepsTo_presenting, fun _ => err_of_mem_replicate_writeDone,
      fun i => s.bbuf.storeWords_byte bytes _ i _⟩

/-! ## LOADKEY and LOADIV (R68, R106) -/

/-- A key made of the four packed words of sixteen bytes. -/
theorem blockByte_key_of_packed {s : State} {bytes : List Byte} (h0 : s.key0 = packedWord bytes 0)
    (h1 : s.key1 = packedWord bytes 1) (h2 : s.key2 = packedWord bytes 2) (h3 : s.key3 = packedWord bytes 3)
    {i : Nat} (hi : i < 16) : blockByte s.key i = bytes.getD i 0 := by
  have hk : i % 4 < 4 := Nat.mod_lt _ (by decide)
  obtain ⟨k0, k1, k2, k3⟩ := blockByte_key s hk
  have hword : i = 4 * 0 + i % 4 ∨ i = 4 * 1 + i % 4 ∨ i = 4 * 2 + i % 4 ∨ i = 4 * 3 + i % 4 := by omega
  rcases hword with h | h | h | h <;> rw [h]
  · rw [← packedWord_extract _ _ hk, ← h0, ← k0, Nat.mul_zero, Nat.zero_add]
  · rw [← packedWord_extract _ _ hk, ← h1, ← k1]
  · rw [← packedWord_extract _ _ hk, ← h2, ← k2]
  · rw [← packedWord_extract _ _ hk, ← h3, ← k3]

/-- Writes of registers of the address map other than CMD, one after another. -/
theorem serves_writeRegs (writes : List (Nat × Reg × Word)) (h : ∀ p ∈ writes, (p.1, p.2.1) ∈ regMap ∧ p.2.1 ≠ .cmd) :
    ∀ s : State, Serves (writes.map fun p => wrAt p.1 p.2.2) s (writes.foldl (fun s p => writeReg p.2.1 p.2.2 s) s)
      (List.replicate writes.length writeDone) := by
  induction writes with
  | nil => exact Serves.nil
  | cons p writes ih =>
    intro s
    obtain ⟨⟨hmem, hcmd⟩, hrest⟩ := List.forall_mem_cons.1 h
    exact (serves_writeReg hmem hcmd p.2.2 s).append (ih hrest _)

/-- Settles O44: four packed words and the declared length, written to five registers. The IV is made of its words as the
key is of its own. -/
theorem loadLinesWriteKeyAndIv : Obligations.LoadLinesWriteKeyAndIv := by
  intro s bytes
  refine ⟨fun hlen => ⟨if_neg hlen, if_neg hlen⟩, fun hlen => ⟨?key, ?iv⟩⟩
  case key =>
    have hrun := serves_writeRegs [(0x00040, .key0, packedWord bytes 0), (0x00044, .key1, packedWord bytes 1),
      (0x00048, .key2, packedWord bytes 2), (0x0004C, .key3, packedWord bytes 3), (0x00014, .klen, 16)]
      (by simp [regMap]) s
    exact ⟨_, _, _, _, _, _, if_pos hlen, hrun.stepsTo_presenting, fun _ => err_of_mem_replicate_writeDone,
      fun i hi => blockByte_key_of_packed rfl rfl rfl rfl hi⟩
  case iv =>
    have hrun := serves_writeRegs [(0x00050, .iv0, packedWord bytes 0), (0x00054, .iv1, packedWord bytes 1),
      (0x00058, .iv2, packedWord bytes 2), (0x0005C, .iv3, packedWord bytes 3), (0x00018, .ivlen, 16)]
      (by simp [regMap]) s
    exact ⟨_, _, _, _, _, _, if_pos hlen, hrun.stepsTo_presenting, fun _ => err_of_mem_replicate_writeDone,
      fun i hi => blockByte_key_of_packed (s := { s with
        key0 := packedWord bytes 0, key1 := packedWord bytes 1, key2 := packedWord bytes 2, key3 := packedWord bytes 3 })
        rfl rfl rfl rfl hi⟩

/-! ## READ O (R66, R106) -/

/-- The four bytes of a window word (R66). -/
theorem bytesOfWord_readWindow (buffer : Buf) (index : Nat) (s : State) : bytesOfWord (readWindow buffer index s) =
    [s.byte buffer index, s.byte buffer (index + 1), s.byte buffer (index + 2), s.byte buffer (index + 3)] :=
  bytesOfWord_wordOfBytes rfl

/-- The bytes of the first `n` words of a window are the first `4n` bytes of the buffer. -/
theorem flatMap_bytesOfWord_readWindow (buffer : Buf) (s : State) (n : Nat) :
    ((List.range n).map (fun w => readWindow buffer (4 * w) s)).flatMap bytesOfWord = s.bytes buffer (4 * n) := by
  induction n with
  | zero => rfl
  | succ n ih =>
    rw [List.range_succ, List.map_append, List.flatMap_append, ih, Nat.mul_succ]
    simp [State.bytes, List.range_succ, bytesOfWord_readWindow]

theorem take_bytes (s : State) (buffer : Buf) {k n : Nat} (h : k ≤ n) :
    (s.bytes buffer n).take k = s.bytes buffer k := by
  rw [State.bytes, ← List.map_take, List.take_range, min_eq_left h, State.bytes]

/-- Settles O45: no read changes the state, so each answers from `s` itself. -/
theorem readLineReadsOutput : Obligations.ReadLineReadsOutput := by
  intro s hfits
  have hlen : Serves [rdAt 0x00010] s s [readDone s.olen] :=
    serves_read (target_of_mem_regMap (r := .olen) (by decide) _) s
  have hwords := Serves.range (tr := fun w => rdAt (0x30000 + 4 * w)) (g := fun _ => s)
    (r := fun w => readDone (readWindow .obuf (4 * w) s)) ((s.olen.toNat + 3) / 4)
    fun w hw => serves_read (target_window .obuf w (by omega)) s
  have hrun := (hlen.append hwords).stepsTo_presenting
  refine ⟨_, (List.range ((s.olen.toNat + 3) / 4)).map (fun w => readWindow .obuf (4 * w) s), rfl, ?_, ?_⟩
  · rw [List.map_cons, List.map_map]
    exact hrun
  · rw [flatMap_bytesOfWord_readWindow, take_bytes s .obuf (by omega)]
    rfl

end Sys2Proof.Machine

/-! PROOFS. The Padding Module (R120 to R128): `pad`, `padded` and `unpad` as functions on byte sequences, and the
commands PAD, UNPAD and PADDED. -/

namespace Sys2Proof.Machine

/-! ## `pad` (R120) -/

theorem pad_unaligned {s : List Byte} {bs : Nat} (h : s.length % bs ≠ 0) :
    pad s bs = s ++ List.replicate (bs - s.length % bs) (BitVec.ofNat 8 (bs - s.length % bs)) :=
  if_neg h

/-- The padding byte stands for the number of padding bytes, since `bs` fits a byte (R120). -/
theorem padByte_toNat {n bs : Nat} (hbs : bs ≤ 255) : (BitVec.ofNat 8 (bs - n % bs)).toNat = bs - n % bs :=
  Nat.mod_eq_of_lt (by omega)

theorem getLast?_pad {s : List Byte} {bs : Nat} (hpos : 0 < bs) (h : s.length % bs ≠ 0) :
    (pad s bs).getLast? = some (BitVec.ofNat 8 (bs - s.length % bs)) := by
  have hrem : s.length % bs < bs := Nat.mod_lt _ hpos
  rw [pad_unaligned h, List.getLast?_append, List.getLast?_replicate, if_neg (by omega), Option.some_or]

/-- Settles O7: `p = bs - len(s) mod bs`, which lies between 1 and `bs - 1` as the remainder does. -/
theorem padAppendsPaddingBytes : Obligations.PadAppendsPaddingBytes := by
  intro s bs hpos _
  refine ⟨pad_aligned s bs, fun h => ?_, pad_length_mod s bs hpos⟩
  have hrem : s.length % bs < bs := Nat.mod_lt _ hpos
  have hlen : (pad s bs).length = s.length + (bs - s.length % bs) := (pad_length s bs).trans (if_neg h)
  exact ⟨_, rfl, by omega, by omega, pad_unaligned h, by omega⟩

/-- Padding an already padded sequence changes nothing (R128). -/
theorem pad_pad (s : List Byte) {bs : Nat} (hpos : 0 < bs) : pad (pad s bs) bs = pad s bs :=
  pad_aligned _ _ (pad_length_mod s bs hpos)

/-! ## `padded` (R121) -/

/-- The tail of a sequence holds one value exactly when each of its indices does. -/
theorem forall_mem_drop_eq_iff {α : Type} {s : List α} {k : Nat} {x : α} :
    (∀ y ∈ s.drop k, y = x) ↔ ∀ i, k ≤ i → i < s.length → s[i]? = some x := by
  constructor
  · intro h i hk hi
    rw [List.getElem?_eq_getElem hi, h s[i] (List.mem_drop_iff_getElem.2 ⟨i - k, by omega, by congr 1; omega⟩)]
  · intro h y hy
    obtain ⟨j, hj, rfl⟩ := List.mem_drop_iff_getElem.1 hy
    exact (List.getElem_eq_iff _).2 (h (k + j) (by omega) (by omega))

/-- Settles O8: the last `b` bytes are those at the last `b` indices. -/
theorem paddedIsValidPadding : Obligations.PaddedIsValidPadding := by
  intro s bs _ _
  rw [padded_iff]
  refine exists_congr fun b => and_congr_right fun _ => ?_
  rw [forall_mem_drop_eq_iff, ← Nat.one_le_iff_ne_zero]
  tauto

theorem getLast?_eq_some_get {s : List Byte} {get : Nat → Byte} (hget : ∀ i, i < s.length → s[i]? = some (get i))
    (hs : s.length ≠ 0) : s.getLast? = some (get (s.length - 1)) := by
  rw [List.getLast?_eq_getElem?, hget _ (by omega)]

/-- `padded` in the words of claims, for a sequence that `get` gives byte by byte. -/
theorem padded_iff_endsInPadding {s : List Byte} {get : Nat → Byte} (bs : Nat)
    (hget : ∀ i, i < s.length → s[i]? = some (get i)) : padded s bs = true ↔ EndsInPadding get s.length bs := by
  by_cases hlen : s.length = 0
  · have hempty : s = [] := List.length_eq_zero_iff.1 hlen
    exact iff_of_false (by simp [hempty, padded]) fun h => h.1 hlen
  · have htail : (∀ i, s.length - (get (s.length - 1)).toNat ≤ i → i < s.length → s[i]? = some (get (s.length - 1)))
        ↔ ∀ i, s.length - (get (s.length - 1)).toNat ≤ i → i < s.length → get i = get (s.length - 1) :=
      forall_congr' fun i => forall₂_congr fun _ hi => by rw [hget i hi, Option.some_inj]
    rw [padded_iff]
    simp only [getLast?_eq_some_get hget hlen, Option.some_inj, exists_eq_left', forall_mem_drop_eq_iff, htail]
    exact (and_iff_right hlen).symm

/-- What `pad` appends is valid padding (R128). -/
theorem padded_pad {s : List Byte} {bs : Nat} (hpos : 0 < bs) (hbs : bs ≤ 255) (h : s.length % bs ≠ 0) :
    padded (pad s bs) bs = true := by
  have hrem : s.length % bs < bs := Nat.mod_lt _ hpos
  have hs : s.length ≠ 0 := fun h0 => h (by rw [h0, Nat.zero_mod])
  refine (padded_iff _ _).2 ⟨_, getLast?_pad hpos h, ?_⟩
  rw [padByte_toNat hbs, pad_unaligned h, List.length_append, List.length_replicate, Nat.add_sub_cancel, List.drop_left]
  exact ⟨by omega, by omega, by omega, fun _ => List.eq_of_mem_replicate⟩

/-! ## `unpad` (R122) -/

theorem unpad_of_not_padded {s : List Byte} {bs : Nat} (h : padded s bs = false) : unpad s bs = s :=
  if_neg (by simp [h])

theorem unpad_of_padded {s : List Byte} {bs : Nat} {b : Byte} (h : padded s bs = true) (hb : s.getLast? = some b) :
    unpad s bs = s.take (s.length - b.toNat) := by
  rw [unpad, if_pos h, hb, Option.getD_some]

/-- Settles O9: the bounds are those on the last byte in `padded`. -/
theorem unpadRemovesValidPadding : Obligations.UnpadRemovesValidPadding := by
  intro s bs hpos hbs
  refine ⟨unpad_of_not_padded, fun h => ?_⟩
  obtain ⟨b, hlast, hone, hlt, hlen, -⟩ := (paddedIsValidPadding s bs hpos hbs).1 h
  have hunpad := unpad_of_padded h hlast
  refine ⟨b, hlast, hunpad, hone, by omega, ?_⟩
  rw [hunpad, List.length_take]
  omega

/-- `unpad` only ever removes bytes at the end. -/
theorem unpad_getElem? {s : List Byte} {bs i : Nat} (h : i < (unpad s bs).length) : (unpad s bs)[i]? = s[i]? := by
  rcases unpad_cases s bs with ⟨-, hunpad⟩ | ⟨n, -, -, -, -, hunpad⟩
  · rw [hunpad]
  · rw [hunpad, List.length_take] at h
    rw [hunpad, List.getElem?_take_of_lt (by omega)]

/-- Valid padding is never empty, so removing it changes the sequence. -/
theorem unpad_eq_self_iff {s : List Byte} {bs : Nat} : unpad s bs = s ↔ padded s bs = false := by
  rcases unpad_cases s bs with ⟨hfalse, h⟩ | ⟨n, htrue, hpos, -, hlen, h⟩
  · exact iff_of_true h hfalse
  · refine iff_of_false (fun hself => ?_) (by simp [htrue])
    have hlength := congrArg List.length (h.symm.trans hself)
    rw [List.length_take] at hlength
    omega

/-- The length of `unpad` in the words of claims. -/
theorem strippedLength_unpad {s : List Byte} {get : Nat → Byte} (bs : Nat)
    (hget : ∀ i, i < s.length → s[i]? = some (get i)) : StrippedLength get s.length bs (unpad s bs).length := by
  have hends := padded_iff_endsInPadding bs hget
  cases h : padded s bs with
  | false =>
    refine .inr ⟨fun hc => ?_, by rw [unpad_of_not_padded h]⟩
    exact Bool.false_ne_true (h.symm.trans (hends.2 hc))
  | true =>
    refine .inl ⟨hends.1 h, ?_⟩
    rw [unpad_of_padded h (getLast?_eq_some_get hget (hends.1 h).1), List.length_take]
    omega

/-- Unpadding undoes padding of an unaligned sequence (R128). -/
theorem unpad_pad_of_unaligned {s : List Byte} {bs : Nat} (hpos : 0 < bs) (hbs : bs ≤ 255) (h : s.length % bs ≠ 0) :
    unpad (pad s bs) bs = s := by
  rw [unpad_of_padded (padded_pad hpos hbs h) (getLast?_pad hpos h), padByte_toNat hbs, pad_unaligned h,
    List.length_append, List.length_replicate, Nat.add_sub_cancel, List.take_left]

/-- Settles O10: an aligned sequence is not padded, so there the question is whether `unpad` changes it. -/
theorem unpadUndoesPadExactly : Obligations.UnpadUndoesPadExactly := by
  intro s bs hpos hbs
  refine ⟨?_, padded_pad hpos hbs, pad_pad s hpos⟩
  by_cases h : s.length % bs = 0
  · rw [pad_aligned s bs h, unpad_eq_self_iff]
    exact (or_iff_right (not_not_intro h)).symm
  · exact iff_of_true (unpad_pad_of_unaligned hpos hbs h) (.inl h)

/-! ## The ends of a command in the words of claims (R97, R104, R236, R239) -/

/-- The word of a command of format A (R94). -/
theorem encode_toNat_of_format_A {i : Instr} (h : i.format = .A) :
    (encode i).toNat = i.opcode.toNat + 2 ^ 16 * i.immA.toNat := by
  have hflag : i.flag = false := Instr.flag_eq_false (by simp [h])
  have himmB : i.immB = 0 := Instr.immB_eq_zero (by simp [h])
  rw [encode_toNat, hflag, himmB]
  rfl

/-- No command of format A reads operand `B` (R26, R97). -/
theorem not_checksB_of_format_A {i : Instr} (h : i.format = .A) : ¬ checksB i = true := by
  rw [checksB_iff]
  rintro (rfl | rfl) <;> cases h

theorem exec_errorState_of_alen {i : Instr} {s : State} (h : Config.bufBytes < s.alen.toNat) :
    exec i s = .next (errorState 6 i.opcode.toNat s) := by
  rw [exec_capacityExceeded (.inl h), raise_eq_errorState]
  rfl

theorem exec_errorState {i : Instr} {s : State} {e : CmdError} (ha : s.alen.toNat ≤ Config.bufBytes)
    (hb : checksB i = true → s.blen.toNat ≤ Config.bufBytes) (h : commandBody i s = .error e) :
    exec i s = .next (errorState e.code.toNat i.opcode.toNat s) := by
  rw [exec_error ha hb h, raise_eq_errorState]

/-- What a rule yields is short enough for OLEN to hold its length (R29). -/
theorem out_length_lt {i : Instr} {s : State} {r : Result} (ha : s.alen.toNat ≤ Config.bufBytes)
    (h : commandBody i s = .ok r) : r.out.length < 2 ^ 32 :=
  ((commandBody_yields ha h).out_fits.trans Config.bufBytes_le).trans_lt (by decide)

/-- A command whose rule yields bytes: its end, its frame, and the bytes of OBUF. -/
theorem exec_bytes {i : Instr} {s : State} {out : List Byte} (ha : s.alen.toNat ≤ Config.bufBytes)
    (hb : checksB i = true → s.blen.toNat ≤ Config.bufBytes) (h : commandBody i s = .ok (Result.bytes s out)) :
    ∃ t, exec i s = .next t ∧ Completes i.opcode.toNat out.length s t ∧ Scalars t 0 0 0 ∧ MakesNoCall s t
      ∧ ∀ k x, out[k]? = some x → t.byte .obuf k = x :=
  ⟨_, exec_ok ha hb h, complete_completes _ _ _ (out_length_lt ha h), ⟨rfl, rfl, rfl⟩, List.append_nil _,
    fun _ _ hx => byte_complete_of_out hx⟩

/-- A command whose rule yields one number: its end and its frame; no byte of OBUF is written. -/
theorem exec_scalar {i : Instr} {s : State} {n : Nat} (ha : s.alen.toNat ≤ Config.bufBytes)
    (hb : checksB i = true → s.blen.toNat ≤ Config.bufBytes) (h : commandBody i s = .ok (Result.scalar s n))
    (hn : n < 2 ^ 32) :
    ∃ t, exec i s = .next t ∧ Completes i.opcode.toNat 0 s t ∧ MakesNoCall s t ∧ Scalars t n 0 0 :=
  ⟨_, exec_ok ha hb h, complete_completes _ _ _ (out_length_lt ha h), List.append_nil _,
    Nat.mod_eq_of_lt hn, rfl, rfl⟩

/-! ## PAD, UNPAD and PADDED (R125 to R127) -/

/-- Operand `A` is the sequence that the bytes of ABUF give (R25). -/
theorem operandA_get (s : State) : ∀ i, i < s.operandA.length → s.operandA[i]? = some (s.byte .abuf i) :=
  fun i hi => operandA_getElem? s i (by rwa [operandA_length] at hi)

/-- Bytes 0 to `ALEN - 1` of the padded operand are those of ABUF (R25, R120). -/
theorem pad_operandA_getElem?_of_lt (s : State) (bs : Nat) {i : Nat} (h : i < s.alen.toNat) :
    (pad s.operandA bs)[i]? = some (s.byte .abuf i) := by
  rw [pad_getElem?, operandA_length, if_pos h, operandA_getElem? s i h]

/-- The bytes from index `ALEN` up are padding (R120). -/
theorem pad_operandA_getElem?_of_le (s : State) (bs : Nat) {i : Nat} (h : s.alen.toNat ≤ i)
    (hi : i < (pad s.operandA bs).length) :
    (pad s.operandA bs)[i]? = some (BitVec.ofNat 8 (bs - s.alen.toNat % bs)) := by
  rw [pad_getElem?, operandA_length, if_neg (by omega), if_pos hi]

/-- What UNPAD leaves of operand `A` (R126). -/
theorem strippedLength_unpad_operandA (s : State) (bs : Nat) :
    StrippedLength (s.byte .abuf) s.alen.toNat bs (unpad s.operandA bs).length := by
  rw [← operandA_length]
  exact strippedLength_unpad bs (operandA_get s)

/-- PADDED answers 1 exactly when operand `A` ends in padding (R127). -/
theorem padded_operandA_iff (s : State) (bs : Nat) :
    padded s.operandA bs = true ↔ EndsInPadding (s.byte .abuf) s.alen.toNat bs := by
  rw [padded_iff_endsInPadding bs (operandA_get s), operandA_length]

/-- A block size of 0 is the one that R125 to R127 reject. -/
theorem exec_of_blockSize_zero {i : Instr} {s : State} (h : i = .pad 0 ∨ i = .unpad 0 ∨ i = .padded 0)
    (ha : s.alen.toNat ≤ Config.bufBytes) : exec i s = .next (errorState 1 i.opcode.toNat s) := by
  have hformat : i.format = .A := by rcases h with rfl | rfl | rfl <;> rfl
  have hbody : commandBody i s = .error .invalidInput := by rcases h with rfl | rfl | rfl <;> rfl
  exact exec_errorState ha (absurd · (not_checksB_of_format_A hformat)) hbody

/-- Settles O16: the rule yields the padded operand, whose length is the `n` of the statement. -/
theorem padCommandRule : Obligations.PadCommandRule := by
  intro bs s
  refine ⟨encode_toNat_of_format_A rfl, exec_errorState_of_alen, ?zero, ?nonzero⟩
  case zero =>
    rintro ha rfl
    exact exec_of_blockSize_zero (.inl rfl) ha
  case nonzero =>
    intro ha hbs n p hp hn
    have hbs' : bs.toNat ≠ 0 := BitVec.toNat_ne.1 hbs
    have hlen : (pad s.operandA bs.toNat).length = n := by rw [pad_length, operandA_length, hn, hp]
    have hbody : commandBody (.pad bs) s = if Config.bufBytes < n then .error .capacityExceeded
        else .ok (Result.bytes s (pad s.operandA bs.toNat)) := by
      rw [← hlen, ← Config.params_bufBytes]
      exact if_neg hbs'
    refine ⟨fun hover => ?overflow, fun hfits => ?fits⟩
    case overflow => exact exec_errorState ha (absurd · (not_checksB_of_format_A rfl)) (hbody.trans (if_pos hover))
    case fits =>
      obtain ⟨t, ht, hcompletes, hscalars, hcalls, hbytes⟩ :=
        exec_bytes ha (absurd · (not_checksB_of_format_A rfl)) (hbody.trans (if_neg (not_lt.2 hfits)))
      rw [hlen] at hcompletes
      refine ⟨t, ht, hcompletes, hscalars, hcalls, fun i hi => ?_, fun i hle hi => ?_⟩
      · exact hbytes i _ (pad_operandA_getElem?_of_lt s _ hi)
      · rw [hp]
        exact hbytes i _ (pad_operandA_getElem?_of_le s _ hle (by rwa [hlen]))

/-- Settles O17: the rule yields `unpad` of the operand, the first bytes of it. -/
theorem unpadCommandRule : Obligations.UnpadCommandRule := by
  intro bs s
  refine ⟨encode_toNat_of_format_A rfl, exec_errorState_of_alen, ?zero, ?nonzero⟩
  case zero =>
    rintro ha rfl
    exact exec_of_blockSize_zero (.inr (.inl rfl)) ha
  case nonzero =>
    intro ha hbs
    have hbs' : bs.toNat ≠ 0 := BitVec.toNat_ne.1 hbs
    have hbody : commandBody (.unpad bs) s = .ok (Result.bytes s (unpad s.operandA bs.toNat)) := if_neg hbs'
    obtain ⟨t, ht, hcompletes, hscalars, hcalls, hbytes⟩ := exec_bytes ha (absurd · (not_checksB_of_format_A rfl)) hbody
    refine ⟨t, _, ht, strippedLength_unpad_operandA s _, hcompletes, hscalars, hcalls, fun i hi => hbytes i _ ?_⟩
    rw [unpad_getElem? hi, operandA_get s i (hi.trans_le (unpad_length_le _ _))]

/-- Settles O18: the rule yields `padded` of the operand as a number. -/
theorem paddedCommandRule : Obligations.PaddedCommandRule := by
  intro bs s
  refine ⟨encode_toNat_of_format_A rfl, exec_errorState_of_alen, ?zero, ?nonzero⟩
  case zero =>
    rintro ha rfl
    exact exec_of_blockSize_zero (.inr (.inr rfl)) ha
  case nonzero =>
    intro ha hbs
    have hbs' : bs.toNat ≠ 0 := BitVec.toNat_ne.1 hbs
    have hbody : commandBody (.padded bs) s = .ok (Result.scalar s (padded s.operandA bs.toNat).toNat) := if_neg hbs'
    obtain ⟨t, ht, hcompletes, hcalls, hscalars⟩ :=
      exec_scalar ha (absurd · (not_checksB_of_format_A rfl)) hbody ((Bool.toNat_lt _).trans (by decide))
    refine ⟨t, ht, hcompletes, hcalls, fun hends => ?_, fun hends => ?_⟩
    · rwa [(padded_operandA_iff s _).2 hends] at hscalars
    · rwa [Bool.eq_false_iff.2 (mt (padded_operandA_iff s _).1 hends)] at hscalars

end Sys2Proof.Machine

/-! PROOFS. The XOR Primitives (R140 to R146): `xor_with_key`, `xor_rolling` and `xor_counter` as functions on byte
sequences, and the commands XORKEY, XORROLL and XORCTR. -/

namespace Sys2Proof.Machine

/-- A byte XORed twice with the same key byte is itself again: why each XOR primitive can be undone. -/
theorem xor_xor_self_right (x y : Byte) : x ^^^ y ^^^ y = x := by
  rw [BitVec.xor_assoc, BitVec.xor_self, BitVec.xor_zero]

/-! ## `xor_with_key` (R140) -/

theorem xorWithKey_getElem? {s k : List Byte} {i : Nat} {x y : Byte} (hx : s[i]? = some x)
    (hy : k[i % k.length]? = some y) : (xorWithKey s k)[i]? = some (x ^^^ y) := by
  obtain ⟨hi, rfl⟩ := List.getElem?_eq_some_iff.1 hx
  rw [List.getElem?_eq_getElem (by rwa [xorWithKey_length]), xorWithKey_getElem, List.getD_eq_getElem?_getD, hy,
    Option.getD_some]

/-- The key byte of an index depends on the index alone, so the second pass meets the key bytes of the first. -/
theorem xorWithKey_xorWithKey (s k : List Byte) : xorWithKey (xorWithKey s k) k = s := by
  apply List.ext_getElem
  · rw [xorWithKey_length, xorWithKey_length]
  · intro i _ _
    rw [xorWithKey_getElem, xorWithKey_getElem, xor_xor_self_right]

/-- Settles O11. -/
theorem xorWithKeyBytes : Obligations.XorWithKeyBytes :=
  fun s k _ => ⟨xorWithKey_length s k, fun _ _ _ => xorWithKey_getElem?, xorWithKey_xorWithKey s k⟩

/-! ## `xor_rolling` (R142) -/

/-- One recurrence for both modes: `p` and `q` stand before the input and the output, so index `i` of the extended
sequences is what precedes index `i`. -/
theorem xorRollingFrom_getElem? {mode : RollMode} {s : List Byte} {p q : Byte} {i : Nat} {x y z : Byte}
    (hy : s[i]? = some y) (hx : (p :: s)[i]? = some x) (hz : (q :: xorRollingFrom mode p q s)[i]? = some z) :
    (xorRollingFrom mode p q s)[i]? = some (y ^^^ if mode = .inputDifferential then x else z) := by
  induction s generalizing p q i with
  | nil => cases hy
  | cons w ws ih =>
    cases i with
    | zero =>
      cases hy
      cases hx
      cases hz
      cases mode <;> rfl
    | succ i => exact ih hy hx hz

theorem xorRolling_getElem?_zero (mode : RollMode) (s : List Byte) : (xorRolling mode s)[0]? = s[0]? := by
  cases s <;> rfl

theorem xorRolling_getElem?_succ {mode : RollMode} {s : List Byte} {i : Nat} {x y z : Byte} (hx : s[i]? = some x)
    (hy : s[i + 1]? = some y) (hz : (xorRolling mode s)[i]? = some z) :
    (xorRolling mode s)[i + 1]? = some (y ^^^ if mode = .inputDifferential then x else z) := by
  cases s with
  | nil => cases hx
  | cons w ws => exact xorRollingFrom_getElem? hy hx hz

/-- Decoding what output-differential mode wrote: its input byte before is the output byte before of the encoding. -/
theorem xorRollingFrom_input_output (s : List Byte) (p q r : Byte) :
    xorRollingFrom .inputDifferential q p (xorRollingFrom .outputDifferential r q s) = s := by
  induction s generalizing p q r with
  | nil => rfl
  | cons x xs ih => simp only [xorRollingFrom, xor_xor_self_right, ih]

/-- The other way round, the output byte before of the decoding is the input byte before of the encoding. -/
theorem xorRollingFrom_output_input (s : List Byte) (p q r : Byte) :
    xorRollingFrom .outputDifferential p q (xorRollingFrom .inputDifferential q r s) = s := by
  induction s generalizing p q r with
  | nil => rfl
  | cons x xs ih => simp only [xorRollingFrom, xor_xor_self_right, ih]

theorem xorRolling_input_output (s : List Byte) :
    xorRolling .inputDifferential (xorRolling .outputDifferential s) = s := by
  cases s with
  | nil => rfl
  | cons x xs => exact congrArg (x :: ·) (xorRollingFrom_input_output xs x x x)

theorem xorRolling_output_input (s : List Byte) :
    xorRolling .outputDifferential (xorRolling .inputDifferential s) = s := by
  cases s with
  | nil => rfl
  | cons x xs => exact congrArg (x :: ·) (xorRollingFrom_output_input xs x x x)

/-- Settles O12: each recurrence is the common one, whose other preceding byte exists and is not used. -/
theorem xorRollingRecurrence : Obligations.XorRollingRecurrence := by
  intro s
  refine ⟨fun mode => ⟨xorRolling_length mode s, xorRolling_getElem?_zero mode s⟩, ?input, ?output,
    xorRolling_input_output s, xorRolling_output_input s⟩
  case input =>
    intro i x y hx hy
    have hi : i < (xorRolling .inputDifferential s).length := by
      rw [xorRolling_length]
      exact (List.getElem?_eq_some_iff.1 hx).1
    exact xorRolling_getElem?_succ hx hy (List.getElem?_eq_getElem hi)
  case output =>
    intro i y z hy hz
    have hi : i < s.length := by
      rw [← xorRolling_length .outputDifferential s]
      exact (List.getElem?_eq_some_iff.1 hz).1
    exact xorRolling_getElem?_succ (List.getElem?_eq_getElem hi) hy hz

/-! ## `xor_counter` (R144, R146) -/

theorem xorCounter_getElem? {inc key : Byte} {s : List Byte} {i : Nat} {x : Byte} (hx : s[i]? = some x) :
    (xorCounter inc key s)[i]? = some (x ^^^ (key + BitVec.ofNat 8 i * inc)) := by
  induction s generalizing key i with
  | nil => cases hx
  | cons w ws ih =>
    cases i with
    | zero =>
      cases hx
      simp [xorCounter]
    | succ i =>
      have hkey : key + inc + BitVec.ofNat 8 i * inc = key + BitVec.ofNat 8 (i + 1) * inc := by
        rw [BitVec.ofNat_add, BitVec.add_mul, BitVec.one_mul, BitVec.add_assoc, BitVec.add_comm inc]
      rw [← hkey]
      exact ih hx

theorem xorCounter_xorCounter (inc key : Byte) (s : List Byte) : xorCounter inc key (xorCounter inc key s) = s := by
  induction s generalizing key with
  | nil => rfl
  | cons x xs ih => simp only [xorCounter, xor_xor_self_right, ih]

/-- An integer carried as a byte is its Euclidean residue (R146). -/
theorem ofInt_eq_ofNat_emod (n : Int) : BitVec.ofInt 8 n = BitVec.ofNat 8 (n % 256).toNat := by
  have hmod : (BitVec.ofInt 8 n).toNat = (n % 256).toNat := BitVec.toNat_ofInt n
  rw [← hmod, BitVec.ofNat_toNat, BitVec.setWidth_eq]

theorem ofInt_emod_256 (n : Int) : BitVec.ofInt 8 (n % 256) = BitVec.ofInt 8 n := by
  rw [ofInt_eq_ofNat_emod, Int.emod_emod, ← ofInt_eq_ofNat_emod]

/-- The key of byte `i` as a byte sum is R144's integer one, taken modulo 256. -/
theorem counterKey_eq_ofInt (start : Byte) (i : Nat) (inc : Int) :
    start + BitVec.ofNat 8 i * BitVec.ofInt 8 inc = BitVec.ofNat 8 ((start.toNat + i * inc) % 256).toNat := by
  calc start + BitVec.ofNat 8 i * BitVec.ofInt 8 inc
      = BitVec.ofInt 8 (start.toNat + i * inc) := by
        rw [BitVec.ofInt_add, BitVec.ofInt_mul, BitVec.ofInt_natCast, BitVec.ofInt_natCast, BitVec.ofNat_toNat,
          BitVec.setWidth_eq]
    _ = BitVec.ofNat 8 ((start.toNat + i * inc) % 256).toNat := ofInt_eq_ofNat_emod _

/-- Settles O13. -/
theorem xorCounterClosedForm : Obligations.XorCounterClosedForm := by
  intro s start inc
  refine ⟨xorCounter_length _ s start, fun i x hx => ?_, by rw [ofInt_emod_256], xorCounter_xorCounter _ start s⟩
  rw [xorCounter_getElem? hx, counterKey_eq_ofInt]

/-- The increment of a command word is a byte, so the key of byte `i` is a sum of natural numbers (R145). -/
theorem counterKey_eq_ofNat (start inc : Byte) (i : Nat) :
    start + BitVec.ofNat 8 i * inc = BitVec.ofNat 8 ((start.toNat + i * inc.toNat) % 256) := by
  have h := counterKey_eq_ofInt start i inc.toNat
  rw [BitVec.ofInt_natCast, BitVec.ofNat_toNat, BitVec.setWidth_eq] at h
  exact h

/-! ## XORKEY, XORROLL and XORCTR (R141, R143, R145) -/

theorem commandBody_xorkey (s : State) : commandBody .xorkey s =
    if s.blen.toNat = 0 then .error .invalidInput else .ok (Result.bytes s (xorWithKey s.operandA s.operandB)) :=
  rfl

/-- The byte of the key that R140 pairs with byte `i` (R26). -/
theorem operandB_getElem?_mod (s : State) (i : Nat) (h : s.blen.toNat ≠ 0) :
    s.operandB[i % s.operandB.length]? = some (s.byte .bbuf (i % s.blen.toNat)) := by
  rw [operandB_length]
  exact operandB_getElem? s _ (Nat.mod_lt i (Nat.pos_of_ne_zero h))

/-- Settles O19: the command frame checks both lengths before the rule can reject an empty key. -/
theorem xorkeyCommandRule : Obligations.XorkeyCommandRule := by
  refine ⟨encode_toNat _, fun s => ⟨fun hexceeds => ?exceeds, fun ha hb => ⟨fun hempty => ?empty, fun hkey => ?key⟩⟩⟩
  case exceeds =>
    rw [exec_capacityExceeded (hexceeds.imp_right fun hb => ⟨rfl, hb⟩), raise_eq_errorState]
    rfl
  case empty =>
    have hbody : commandBody .xorkey s = .error .invalidInput :=
      (commandBody_xorkey s).trans (if_pos (congrArg BitVec.toNat hempty))
    rw [exec_errorState ha (fun _ => hb) hbody]
    rfl
  case key =>
    have hkey' : s.blen.toNat ≠ 0 := BitVec.toNat_ne.1 hkey
    obtain ⟨t, ht, hcompletes, hscalars, hcalls, hbytes⟩ :=
      exec_bytes ha (fun _ => hb) ((commandBody_xorkey s).trans (if_neg hkey'))
    rw [xorWithKey_length, operandA_length] at hcompletes
    exact ⟨t, ht, hcompletes, hscalars, hcalls, fun i hi =>
      hbytes i _ (xorWithKey_getElem? (operandA_getElem? s i hi) (operandB_getElem?_mod s i hkey'))⟩

/-- A command that does not read `B` and always yields bytes, one for each of `A`: it completes whenever `ALEN` fits. -/
theorem exec_bytes_of_operandA {i : Instr} {s : State} {out : List Byte} (ha : s.alen.toNat ≤ Config.bufBytes)
    (hB : ¬ ReadsB i) (h : commandBody i s = .ok (Result.bytes s out)) (hlen : out.length = s.operandA.length) :
    ∃ t, exec i s = .next t ∧ Completes i.opcode.toNat s.alen.toNat s t ∧ Scalars t 0 0 0 ∧ MakesNoCall s t
      ∧ ∀ k x, out[k]? = some x → t.byte .obuf k = x := by
  rw [← operandA_length, ← hlen]
  exact exec_bytes ha (fun hb => absurd ((checksB_iff i).1 hb) hB) h

/-- Settles O20: byte `i` of the result stands in OBUF, so the recurrence on the result is one on OBUF. -/
theorem xorrollCommandRule : Obligations.XorrollCommandRule := by
  refine ⟨encode_toNat _, encode_toNat _, fun mode s => ⟨exec_errorState_of_alen, fun ha => ?_⟩⟩
  obtain ⟨t, ht, hcompletes, hscalars, hcalls, hbytes⟩ :=
    exec_bytes_of_operandA (i := .xorroll mode) ha (by simp [ReadsB]) rfl (xorRolling_length mode s.operandA)
  refine ⟨t, ht, hcompletes, hscalars, hcalls, fun hpos => hbytes 0 _ ?_, fun i hi => hbytes (i + 1) _ ?_⟩
  · rw [xorRolling_getElem?_zero, operandA_getElem? s 0 hpos]
  · have hlen : i < (xorRolling mode s.operandA).length := by
      rw [xorRolling_length, operandA_length]
      omega
    have hprev : (xorRolling mode s.operandA)[i]? = some (t.byte .obuf i) := by
      rw [hbytes i _ (List.getElem?_eq_getElem hlen), List.getElem?_eq_getElem hlen]
    exact xorRolling_getElem?_succ (operandA_getElem? s i (by omega)) (operandA_getElem? s (i + 1) hi) hprev

/-- Settles O21. -/
theorem xorctrCommandRule : Obligations.XorctrCommandRule := by
  intro start inc s
  refine ⟨encode_toNat _, exec_errorState_of_alen, fun ha => ?_⟩
  obtain ⟨t, ht, hcompletes, hscalars, hcalls, hbytes⟩ :=
    exec_bytes_of_operandA (i := .xorctr start inc) ha (by simp [ReadsB]) rfl
      (xorCounter_length inc s.operandA start)
  refine ⟨t, ht, hcompletes, hscalars, hcalls, fun i hi => ?_⟩
  rw [hbytes i _ (xorCounter_getElem? (operandA_getElem? s i hi)), counterKey_eq_ofNat]

end Sys2Proof.Machine

/-! PROOFS. The Block-Mode Engine (R160 to R171): the padding of the final block, messages with and without chaining,
the commands ECBENC, ECBDEC, CBCENC and CBCDEC, and their round trips. -/

namespace Sys2Proof.Machine

/-! ## The final block (R163) -/

theorem length_append_sub {α : Type} (a : List α) {b : List α} {n : Nat} (h : n ≤ b.length) :
    (a ++ b).length - n = a.length + (b.length - n) := by
  rw [List.length_append, Nat.add_sub_assoc h]

/-- Valid padding is shorter than a block, so it lies in the last block whatever stands before that. -/
theorem padded_append {a b : List Byte} {bs : Nat} (hpos : 0 < bs) (h : bs ≤ b.length) :
    padded (a ++ b) bs = padded b bs := by
  have hb : b ≠ [] := List.ne_nil_of_length_pos (hpos.trans_le h)
  rw [Bool.eq_iff_iff, padded_iff, padded_iff, List.getLast?_append_of_ne_nil _ hb]
  refine exists_congr fun x => and_congr_right fun _ => and_congr_right fun _ => ?_
  by_cases hx : x.toNat < bs
  · have hlt : x.toNat < b.length := hx.trans_le h
    have hlt' : x.toNat < (a ++ b).length := hlt.trans_le (by simp)
    rw [length_append_sub a hlt.le, List.drop_length_add_append]
    simp only [hlt, hlt']
  · simp only [hx, false_and, and_false]

theorem unpad_append {a b : List Byte} {bs : Nat} (hpos : 0 < bs) (h : bs ≤ b.length) :
    unpad (a ++ b) bs = a ++ unpad b bs := by
  have hab := padded_append (a := a) hpos h
  cases hp : padded b bs with
  | false => rw [unpad_of_not_padded hp, unpad_of_not_padded (hab.trans hp)]
  | true =>
    obtain ⟨x, hlast, -, hlen, -, -⟩ := (padded_iff b bs).1 hp
    have hb : b ≠ [] := List.ne_nil_of_length_pos (hpos.trans_le h)
    rw [unpad_of_padded hp hlast,
      unpad_of_padded (hab.trans hp) ((List.getLast?_append_of_ne_nil _ hb).trans hlast),
      length_append_sub a hlen.le, List.take_length_add_append]

/-- Stripping the final block strips the plaintext as a whole. -/
theorem stripFinal_eq_unpad {p : List Byte} (h : p.length % 16 = 0) : stripFinal p = unpad p 16 := by
  unfold stripFinal
  split
  · next hempty =>
    rw [List.length_eq_zero_iff.1 hempty]
    rfl
  · next hne =>
    rw [← unpad_append (by decide) (by rw [List.length_drop]; omega), List.take_append_drop]

theorem plaintextOut_true {p : List Byte} (h : p.length % 16 = 0) : plaintextOut true p = unpad p 16 :=
  stripFinal_eq_unpad h

/-- The length of what a decrypt command outputs, in the words of claims. -/
theorem plainLength_plaintextOut {p : List Byte} {get : Nat → Byte} (rp : Bool) (h : p.length % 16 = 0)
    (hget : ∀ i, i < p.length → p[i]? = some (get i)) : PlainLength rp get p.length (plaintextOut rp p).length := by
  cases rp with
  | false => exact rfl
  | true =>
    rw [plaintextOut_true h]
    exact strippedLength_unpad 16 hget

/-- A decrypt command outputs the first bytes of the plaintext. -/
theorem plaintextOut_getElem? {rp : Bool} {p : List Byte} (h : p.length % 16 = 0) {i : Nat}
    (hi : i < (plaintextOut rp p).length) : (plaintextOut rp p)[i]? = p[i]? := by
  cases rp with
  | false => rfl
  | true =>
    rw [plaintextOut_true h] at hi ⊢
    exact unpad_getElem? hi

/-! ## The blocks of operands and of results (R77, R162) -/

theorem blocksOf_operandA (s : State) :
    blocksOf s.operandA = (List.range (s.alen.toNat / 16)).map (blockAt (s.byte .abuf)) := by
  rw [blocksOf_eq_blockAt _ _ (operandA_get s), operandA_length]

theorem pad_operandA_get (s : State) {i : Nat} (hi : i < (pad s.operandA 16).length) :
    (pad s.operandA 16)[i]? = some (paddedByte s i) := by
  unfold paddedByte
  split
  · next h => exact pad_operandA_getElem?_of_lt s 16 h
  · next h => exact pad_operandA_getElem?_of_le s 16 (not_lt.1 h) hi

theorem blocksOf_pad_operandA (s : State) :
    blocksOf (pad s.operandA 16) = (List.range (paddedBlocks s)).map (blockAt (paddedByte s)) := by
  rw [← blocksOf_pad_length, blocksOf_length]
  exact blocksOf_eq_blockAt _ _ fun _ => pad_operandA_get s

/-- Blocks are read back from where their bytes stand. -/
theorem eq_map_blockAt {bs : List Block} {get : Nat → Byte}
    (h : ∀ k x, (bytesOfBlocks bs)[k]? = some x → get k = x) : bs = (List.range bs.length).map (blockAt get) := by
  have hget : ∀ k, k < (bytesOfBlocks bs).length → (bytesOfBlocks bs)[k]? = some (get k) := fun k hk => by
    rw [h k _ (List.getElem?_eq_getElem hk), List.getElem?_eq_getElem hk]
  have hblocks := blocksOf_eq_blockAt _ get hget
  rwa [blocksOf_bytesOfBlocks, bytesOfBlocks_length, Nat.mul_div_cancel_left _ (by decide)] at hblocks

theorem bytesOfBlocks_map_range_getElem? {f : Nat → Block} {n i : Nat} (h : i < 16 * n) :
    (bytesOfBlocks ((List.range n).map f))[i]? = some (blockByte (f (i / 16)) (i % 16)) := by
  rw [bytesOfBlocks_getElem?, List.getElem?_map, List.getElem?_range (by omega)]
  rfl

/-! ## Chaining (R166, R167, R169) -/

theorem ecbencMessage_out_length (c : Params) (s : State) : (ecbencMessage c s).out.length = paddedBlocks s := by
  rw [ecbencMessage, runMessage_out_length, blocksOf_pad_length]

theorem cbcencMessage_out_length (c : Params) (s : State) : (cbcencMessage c s).out.length = paddedBlocks s := by
  rw [cbcencMessage, runMessage_out_length, blocksOf_pad_length]

theorem runMessage_out_cons (each : Block → Block → BlockStep) (p x : Block) (xs : List Block) :
    (runMessage each p (x :: xs)).out = (each p x).out :: (runMessage each (each p x).prev xs).out := by
  rw [runMessage_out, runMessage_out, prevs, List.zipWith_cons_cons]

/-- Where each emitted block becomes `prev`, the values of `prev` are the seed and the emitted blocks (R166). -/
theorem prevs_of_output {each : Block → Block → BlockStep} (h : ∀ q x, (each q x).prev = (each q x).out)
    (p : Block) (xs : List Block) : prevs each p xs = p :: (runMessage each p xs).out := by
  induction xs generalizing p with
  | nil => rfl
  | cons x xs ih => rw [prevs, ih, runMessage_out_cons, h]

/-- Where each input block becomes `prev`, the values of `prev` are the seed and the input blocks (R167). -/
theorem prevs_of_input {each : Block → Block → BlockStep} (h : ∀ q x, (each q x).prev = x)
    (p : Block) (xs : List Block) : prevs each p xs = p :: xs := by
  induction xs generalizing p with
  | nil => rfl
  | cons x xs ih => rw [prevs, ih, h]

/-- Blocks paired with the ciphertext blocks before them, IV first. -/
theorem zipWith_cbcPrev {α : Type} (f : Block → Block → α) (s : State) (get : Nat → Byte) (g : Nat → Block) (n : Nat) :
    List.zipWith f (s.iv :: (List.range n).map (blockAt get)) ((List.range n).map g)
      = (List.range n).map fun j => f (cbcPrev s get j) (g j) := by
  apply List.ext_getElem
  · simp
  · intro j _ _
    cases j with
    | zero => simp [cbcPrev]
    | succ j => simp [cbcPrev]

/-- With the ciphertext standing in `get`, what CBCENC makes of each block and of its `prev` (R166). -/
theorem zipWith_cbcencMessage {α : Type} {c : Params} {s : State} {get : Nat → Byte} (f : Block → Block → α)
    (h : (cbcencMessage c s).out = (List.range (paddedBlocks s)).map (blockAt get)) :
    List.zipWith f (prevs (cbcEncBlock c s.key) s.iv (blocksOf (pad s.operandA 16))) (blocksOf (pad s.operandA 16))
      = (List.range (paddedBlocks s)).map fun j => f (cbcPrev s get j) (blockAt (paddedByte s) j) := by
  rw [prevs_of_output (fun _ _ => rfl), ← cbcencMessage, h, blocksOf_pad_operandA, zipWith_cbcPrev]

theorem cbcencMessage_out_eq {c : Params} {s : State} {get : Nat → Byte}
    (h : (cbcencMessage c s).out = (List.range (paddedBlocks s)).map (blockAt get)) {j : Nat}
    (hj : j < paddedBlocks s) : blockAt get j = c.enc (blockAt (paddedByte s) j ^^^ cbcPrev s get j) s.key := by
  have hout := (runMessage_out _ _ _).trans (zipWith_cbcencMessage (fun q x => (cbcEncBlock c s.key q x).out) h)
  exact List.map_inj_left.1 (h.symm.trans hout) j (List.mem_range.2 hj)

theorem cbcencMessage_calls {c : Params} {s : State} {get : Nat → Byte}
    (h : (cbcencMessage c s).out = (List.range (paddedBlocks s)).map (blockAt get)) :
    (cbcencMessage c s).calls = (List.range (paddedBlocks s)).map
      fun j => ⟨false, blockAt (paddedByte s) j ^^^ cbcPrev s get j, s.key⟩ :=
  (runMessage_calls _ _ _).trans (zipWith_cbcencMessage (fun q x => (cbcEncBlock c s.key q x).call) h)

theorem cbcdecMessage_out (c : Params) (s : State) :
    (cbcdecMessage c s).out = (List.range (s.alen.toNat / 16)).map
      fun j => c.dec (blockAt (s.byte .abuf) j) s.key ^^^ cbcPrev s (s.byte .abuf) j := by
  rw [cbcdecMessage, runMessage_out, prevs_of_input (fun _ _ => rfl), blocksOf_operandA, zipWith_cbcPrev]
  rfl

theorem cbcdecMessage_calls (c : Params) (s : State) :
    (cbcdecMessage c s).calls = (blocksOf s.operandA).map (fun x => ⟨true, x, s.key⟩) :=
  runMessage_calls_eq_map (each := cbcDecBlock c s.key) (fun _ _ => rfl) _ _

/-! ## The bodies and their checks (R161) -/

theorem ecbencBody_ok {s : State} (c : Params) (hk : s.klen = 16) :
    ecbencBody c s = .ok ((ecbencMessage c s).result s (bytesOfBlocks (ecbencMessage c s).out)) :=
  if_neg (not_not.2 hk)

theorem ecbdecBody_ok {s : State} (c : Params) (rp : Bool) (hk : s.klen = 16) (hA : s.alen.toNat % 16 = 0) :
    ecbdecBody c rp s
      = .ok ((ecbdecMessage c s).result s (plaintextOut rp (bytesOfBlocks (ecbdecMessage c s).out))) :=
  (if_neg (not_not.2 hk)).trans (if_neg (not_not.2 hA))

theorem ecbdecBody_unaligned {s : State} (c : Params) (rp : Bool) (hk : s.klen = 16) (hA : s.alen.toNat % 16 ≠ 0) :
    ecbdecBody c rp s = .error .invalidInput :=
  (if_neg (not_not.2 hk)).trans (if_pos hA)

theorem cbcencBody_ok {s : State} (c : Params) (hk : s.klen = 16) (hv : s.ivlen = 16) :
    cbcencBody c s = .ok ((cbcencMessage c s).result s (bytesOfBlocks (cbcencMessage c s).out)) :=
  (if_neg (not_not.2 hk)).trans (if_neg (not_not.2 hv))

theorem cbcdecBody_ok {s : State} (c : Params) (rp : Bool) (hk : s.klen = 16) (hv : s.ivlen = 16)
    (hA : s.alen.toNat % 16 = 0) : cbcdecBody c rp s
      = .ok ((cbcdecMessage c s).result s (plaintextOut rp (bytesOfBlocks (cbcdecMessage c s).out))) :=
  (if_neg (not_not.2 hk)).trans ((if_neg (not_not.2 hv)).trans (if_neg (not_not.2 hA)))

theorem cbcdecBody_unaligned {s : State} (c : Params) (rp : Bool) (hk : s.klen = 16) (hv : s.ivlen = 16)
    (hA : s.alen.toNat % 16 ≠ 0) : cbcdecBody c rp s = .error .invalidInput :=
  (if_neg (not_not.2 hk)).trans ((if_neg (not_not.2 hv)).trans (if_pos hA))

/-! ## ECBENC, ECBDEC, CBCENC and CBCDEC (R164 to R167) -/

theorem not_checksB_of_readsKey {i : Instr} (h : ReadsKey i) : ¬ checksB i = true :=
  fun hB => not_readsB_of_readsKey h ((checksB_iff i).1 hB)

/-- KLEN is the first check of every block-mode command after the capacity (R161). -/
theorem exec_invalidKeyLength {i : Instr} {s : State} (hi : ReadsKey i) (ha : s.alen.toNat ≤ Config.bufBytes)
    (hk : s.klen ≠ 16) : exec i s = .next (errorState 2 i.opcode.toNat s) := by
  have hbody : commandBody i s = .error .invalidKeyLength := by
    simp only [ReadsKey, List.mem_cons, List.not_mem_nil, or_false] at hi
    rcases hi with rfl | rfl | rfl | rfl | rfl | rfl <;> exact if_pos hk
  exact exec_errorState ha (absurd · (not_checksB_of_readsKey hi)) hbody

/-- IVLEN is the next check of the CBC commands (R161). -/
theorem exec_invalidIvLength {i : Instr} {s : State} (hi : ReadsIv i) (ha : s.alen.toNat ≤ Config.bufBytes)
    (hk : s.klen = 16) (hv : s.ivlen ≠ 16) : exec i s = .next (errorState 3 i.opcode.toNat s) := by
  have hbody : commandBody i s = .error .invalidIvLength := by
    simp only [ReadsIv, List.mem_cons, List.not_mem_nil, or_false] at hi
    rcases hi with rfl | rfl | rfl <;> exact (if_neg (not_not.2 hk)).trans (if_pos hv)
  exact exec_errorState ha (absurd · (not_checksB_of_readsKey (readsKey_of_readsIv hi))) hbody

/-- The decrypt commands reject a ciphertext that is not whole blocks (R161, R231). -/
theorem exec_invalidInput {i : Instr} {s : State} (hi : ReadsKey i) (ha : s.alen.toNat ≤ Config.bufBytes)
    (h : commandBody i s = .error .invalidInput) : exec i s = .next (errorState 1 i.opcode.toNat s) :=
  exec_errorState ha (absurd · (not_checksB_of_readsKey hi)) h

/-- A block-mode command whose message is processed: its end, its frame, its calls and the bytes of OBUF. -/
theorem exec_message {i : Instr} {s : State} {m : Message} {out : List Byte} (hi : ReadsKey i)
    (ha : s.alen.toNat ≤ Config.bufBytes) (h : commandBody i s = .ok (m.result s out)) :
    ∃ t, exec i s = .next t ∧ Completes i.opcode.toNat out.length s t ∧ Scalars t 0 0 0
      ∧ t.trace = s.trace ++ m.calls ∧ ∀ k x, out[k]? = some x → t.byte .obuf k = x :=
  ⟨_, exec_ok ha (absurd · (not_checksB_of_readsKey hi)) h, complete_completes _ _ _ (out_length_lt ha h),
    ⟨rfl, rfl, rfl⟩, rfl, fun _ _ hx => byte_complete_of_out hx⟩

/-- An encrypt command that completes: the blocks it emitted stand in OBUF (R164, R166). -/
theorem exec_encrypt {i : Instr} {s : State} {m : Message} (hi : ReadsKey i) (ha : s.alen.toNat ≤ Config.bufBytes)
    (h : commandBody i s = .ok (m.result s (bytesOfBlocks m.out))) (hlen : m.out.length = paddedBlocks s) :
    ∃ t, exec i s = .next t ∧ Completes i.opcode.toNat (16 * paddedBlocks s) s t ∧ Scalars t 0 0 0
      ∧ t.trace = s.trace ++ m.calls ∧ m.out = (List.range (paddedBlocks s)).map (blockAt (t.byte .obuf)) := by
  obtain ⟨t, ht, hcompletes, hscalars, htrace, hbytes⟩ := exec_message hi ha h
  have hout := eq_map_blockAt hbytes
  rw [bytesOfBlocks_length, hlen] at hcompletes
  rw [hlen] at hout
  exact ⟨t, ht, hcompletes, hscalars, htrace, hout⟩

/-- A decrypt command that completes, where `f j` is block `j` of the plaintext (R165, R167). -/
theorem exec_decrypt {i : Instr} {s : State} {m : Message} {rp : Bool} {f : Nat → Block} (hi : ReadsKey i)
    (ha : s.alen.toNat ≤ Config.bufBytes) (hA : s.alen.toNat % 16 = 0)
    (h : commandBody i s = .ok (m.result s (plaintextOut rp (bytesOfBlocks m.out))))
    (hout : m.out = (List.range (s.alen.toNat / 16)).map f) :
    ∃ t n, exec i s = .next t ∧ PlainLength rp (fun k => blockByte (f (k / 16)) (k % 16)) s.alen.toNat n
      ∧ Completes i.opcode.toNat n s t ∧ Scalars t 0 0 0
      ∧ (∀ k, k < n → t.byte .obuf k = blockByte (f (k / 16)) (k % 16)) ∧ t.trace = s.trace ++ m.calls := by
  obtain ⟨t, ht, hcompletes, hscalars, htrace, hbytes⟩ := exec_message hi ha h
  have hlen : (bytesOfBlocks m.out).length = s.alen.toNat := by
    rw [bytesOfBlocks_length, hout, List.length_map, List.length_range]
    omega
  have haligned : (bytesOfBlocks m.out).length % 16 = 0 := by rwa [hlen]
  have hget : ∀ k, k < (bytesOfBlocks m.out).length →
      (bytesOfBlocks m.out)[k]? = some (blockByte (f (k / 16)) (k % 16)) := fun k hk => by
    rw [hout, bytesOfBlocks_map_range_getElem? (by omega)]
  have hplain := plainLength_plaintextOut rp haligned hget
  rw [hlen] at hplain
  refine ⟨t, _, ht, hplain, hcompletes, hscalars, fun k hk => hbytes k _ ?_, htrace⟩
  rw [plaintextOut_getElem? haligned hk, hget k (hk.trans_le (plaintextOut_length_le rp _))]

/-- Settles O22: without chaining, block `j` of the result is `E` of block `j`. -/
theorem ecbencCommandRule : Obligations.EcbencCommandRule := by
  have hi : ReadsKey .ecbenc := .head _
  refine ⟨encode_toNat _, fun s => ⟨exec_errorState_of_alen, exec_invalidKeyLength hi, fun ha hk => ?_⟩⟩
  obtain ⟨t, ht, hcompletes, hscalars, htrace, hout⟩ :=
    exec_encrypt hi ha (ecbencBody_ok _ hk) (ecbencMessage_out_length _ s)
  rw [ecbencMessage_out, blocksOf_pad_operandA, List.map_map] at hout
  rw [ecbencMessage_calls, blocksOf_pad_operandA, List.map_map] at htrace
  exact ⟨t, ht, hcompletes, hscalars, fun j hj => (List.map_inj_left.1 hout j (List.mem_range.2 hj)).symm, htrace⟩

/-- Settles O23: without chaining, block `j` of the plaintext is `D` of block `j`. -/
theorem ecbdecCommandRule : Obligations.EcbdecCommandRule := by
  refine ⟨encode_toNat _, encode_toNat _, fun rp s => ?_⟩
  have hi := readsKey_ecbdec rp
  refine ⟨exec_errorState_of_alen, exec_invalidKeyLength hi,
    fun ha hk hA => exec_invalidInput hi ha (ecbdecBody_unaligned _ rp hk hA), fun ha hk hA => ?_⟩
  have hout := ecbdecMessage_out Config.params s
  have hcalls := ecbdecMessage_calls Config.params s
  rw [blocksOf_operandA, List.map_map] at hout hcalls
  obtain ⟨t, n, ht, hplain, hcompletes, hscalars, hbytes, htrace⟩ :=
    exec_decrypt hi ha hA (ecbdecBody_ok _ rp hk hA) hout
  rw [hcalls] at htrace
  exact ⟨t, n, ht, hplain, hcompletes, hscalars, hbytes, htrace⟩

/-- Settles O24: the blocks emitted stand in OBUF, so the recurrence on them is one on OBUF. -/
theorem cbcencCommandRule : Obligations.CbcencCommandRule := by
  have hI : ReadsIv .cbcenc := .head _
  have hi := readsKey_of_readsIv hI
  refine ⟨encode_toNat _, fun s => ⟨exec_errorState_of_alen, exec_invalidKeyLength hi, exec_invalidIvLength hI,
    fun ha hk hv => ?_⟩⟩
  obtain ⟨t, ht, hcompletes, hscalars, htrace, hout⟩ :=
    exec_encrypt hi ha (cbcencBody_ok _ hk hv) (cbcencMessage_out_length _ s)
  rw [cbcencMessage_calls hout] at htrace
  exact ⟨t, ht, hcompletes, hscalars, fun j hj => cbcencMessage_out_eq hout hj, htrace⟩

/-- Settles O25: the chain runs through the ciphertext, which stands in ABUF. -/
theorem cbcdecCommandRule : Obligations.CbcdecCommandRule := by
  refine ⟨encode_toNat _, encode_toNat _, fun rp s => ?_⟩
  have hI := readsIv_cbcdec rp
  have hi := readsKey_of_readsIv hI
  refine ⟨exec_errorState_of_alen, exec_invalidKeyLength hi, exec_invalidIvLength hI,
    fun ha hk hv hA => exec_invalidInput hi ha (cbcdecBody_unaligned _ rp hk hv hA), fun ha hk hv hA => ?_⟩
  obtain ⟨t, n, ht, hplain, hcompletes, hscalars, hbytes, htrace⟩ :=
    exec_decrypt hi ha hA (cbcdecBody_ok _ rp hk hv hA) (cbcdecMessage_out _ s)
  rw [cbcdecMessage_calls, blocksOf_operandA, List.map_map] at htrace
  exact ⟨t, n, ht, hplain, hcompletes, hscalars, hbytes, htrace⟩

/-! ## The host's copy of an output into the next input (R266) -/

theorem complete_olen_toNat (op : Byte) {r : Result} (s : State) (h : r.out.length < 2 ^ 32) :
    (complete op r s).olen.toNat = r.out.length :=
  Nat.mod_eq_of_lt h

theorem output_complete {op : Byte} {r : Result} {s : State} (h : r.out.length < 2 ^ 32) :
    (complete op r s).output = r.out := by
  apply List.ext_getElem
  · exact (bytes_length _ _ _).trans (complete_olen_toNat op s h)
  · intro k hk' hk
    calc (complete op r s).output[k] = (complete op r s).byte .obuf k := bytes_getElem _ _ _ k hk'
      _ = r.out[k] := by rw [byte_complete_obuf, dif_pos hk]

/-- Every byte copied is one that the command wrote, so the copy holds nothing unspecified (R44). -/
theorem operandA_outputAsInput {op : Byte} {r : Result} {s : State} (h : r.out.length < 2 ^ 32) :
    (outputAsInput (complete op r s)).operandA = r.out := by
  apply List.ext_getElem
  · exact (operandA_length _).trans (complete_olen_toNat op s h)
  · intro k _ hk
    rw [operandA_getElem]
    change ((s.obuf.fill r.out).find k).getD _ = _
    rw [Memory.find_fill, if_pos hk, List.getElem?_eq_getElem hk, Option.getD_some]

/-! ## Round trips (R171) -/

/-- A command that does not read `B`, on a machine of any capacity. -/
theorem runCommand_ok_of_operandA {c : Params} {op : Byte} {body : State → Except CmdError Result} {s : State}
    {r : Result} (ha : s.alen.toNat ≤ c.bufBytes) (h : body s = .ok r) :
    runCommand c op false body s = complete op r s :=
  runCommand_ok ha nofun h

/-- Padding to whole blocks stays within a capacity that R5 admits (R172), and OLEN can hold the length. -/
theorem paddedBlocks_bounds {c : Params} {s : State} (hc : c.Admissible) (ha : s.alen.toNat ≤ c.bufBytes) :
    16 * paddedBlocks s ≤ c.bufBytes ∧ 16 * paddedBlocks s < 2 ^ 32 := by
  obtain ⟨hmod, -, hmax⟩ := hc
  unfold paddedBlocks
  omega

/-- What the host's copy of an encrypted message gives the decrypt command: whole blocks that fit. -/
theorem outputAsInput_ciphertext {c : Params} {s t : State} {op : Byte} {m : Message} (hc : c.Admissible)
    (ha : s.alen.toNat ≤ c.bufBytes) (hlen : m.out.length = paddedBlocks s)
    (ht : t = complete op (m.result s (bytesOfBlocks m.out)) s) :
    (outputAsInput t).operandA = bytesOfBlocks m.out ∧ (outputAsInput t).alen.toNat ≤ c.bufBytes
      ∧ (outputAsInput t).alen.toNat % 16 = 0 := by
  obtain ⟨hfits, hlt⟩ := paddedBlocks_bounds hc ha
  have hbytes : (bytesOfBlocks m.out).length = 16 * paddedBlocks s := by rw [bytesOfBlocks_length, hlen]
  have hA : (outputAsInput t).operandA = bytesOfBlocks m.out := by
    rw [ht]
    exact operandA_outputAsInput (by rwa [messageResult_out, hbytes])
  have halen : (outputAsInput t).alen.toNat = 16 * paddedBlocks s := by rw [← operandA_length, hA, hbytes]
  exact ⟨hA, by omega, by omega⟩

/-- A decrypt command that recovers the blocks of the padded message ends the round trip: with `rp` set it answers what
`unpad` makes of the padded message, which `unpadUndoesPadExactly` compares with the message. -/
theorem roundTrip_of_recovered {c : Params} {s u : State} {op : Byte} {m : Message} {decrypted : Bool → State}
    (hc : c.Admissible) (ha : s.alen.toNat ≤ c.bufBytes) (hm : m.out = blocksOf (pad s.operandA 16))
    (h : ∀ rp, decrypted rp = complete op (m.result u (plaintextOut rp (bytesOfBlocks m.out))) u) :
    statusErrFlag (decrypted true).status = false
    ∧ ((decrypted true).output = s.operandA
        ↔ (s.alen.toNat % 16 ≠ 0 ∨ ¬ EndsInPadding (s.byte .abuf) s.alen.toNat 16))
    ∧ (decrypted false).output = pad s.operandA 16 := by
  have haligned : (pad s.operandA 16).length % 16 = 0 := pad_length_mod _ _ (by decide)
  have houtput : ∀ rp, (decrypted rp).output = plaintextOut rp (pad s.operandA 16) := by
    intro rp
    have hlen : (pad s.operandA 16).length < 2 ^ 32 := by
      rw [pad16_length, operandA_length]
      exact (paddedBlocks_bounds hc ha).2
    rw [h rp, hm, bytesOfBlocks_blocksOf _ haligned]
    exact output_complete ((plaintextOut_length_le rp _).trans_lt hlen)
  refine ⟨?status, ?stripped, houtput false⟩
  case status =>
    rw [h true]
    exact (statusOk_fields op).1
  case stripped =>
    rw [houtput true, plaintextOut_true haligned, (unpadUndoesPadExactly _ 16 (by decide) (by decide)).1,
      operandA_length, ← padded_operandA_iff, Bool.not_eq_true]

/-- Settles O37: `D` undoes `E` block by block, so ECBDEC recovers the blocks of the padded message. -/
theorem ecbRoundTripExactly : Obligations.EcbRoundTripExactly := by
  intro c s hc hinv hk ha
  have henc : ecbencCommand c s
      = complete 0x20 ((ecbencMessage c s).result s (bytesOfBlocks (ecbencMessage c s).out)) s :=
    runCommand_ok_of_operandA ha (ecbencBody_ok c hk)
  obtain ⟨hA, hfits, haligned⟩ := outputAsInput_ciphertext hc ha (ecbencMessage_out_length c s) henc
  have hklen : (outputAsInput (ecbencCommand c s)).klen = 16 := by rwa [henc]
  have hkey : (outputAsInput (ecbencCommand c s)).key = s.key := by rw [henc]; rfl
  have hm : (ecbdecMessage c (outputAsInput (ecbencCommand c s))).out = blocksOf (pad s.operandA 16) := by
    rw [ecbdecMessage_out, hA, blocksOf_bytesOfBlocks, hkey, ecbencMessage_out, List.map_map]
    exact List.map_id'' (fun x => hinv x s.key) _
  exact roundTrip_of_recovered (decrypted := fun rp => ecbdecCommand c rp _) hc ha hm
    fun rp => runCommand_ok_of_operandA hfits (ecbdecBody_ok c rp hklen haligned)

/-- CBCDEC's block step undoes CBCENC's under the same `prev` and leaves the same `prev`, so it undoes a message. -/
theorem cbcDec_cbcEnc {c : Params} (hinv : c.PrimInverse) (key p : Block) (xs : List Block) :
    (runMessage (cbcDecBlock c key) p (runMessage (cbcEncBlock c key) p xs).out).out = xs := by
  induction xs generalizing p with
  | nil => rfl
  | cons x xs ih =>
    have hx : (cbcDecBlock c key p (cbcEncBlock c key p x).out).out = x := by
      change c.dec (c.enc (x ^^^ p) key) key ^^^ p = x
      rw [hinv, BitVec.xor_assoc, BitVec.xor_self, BitVec.xor_zero]
    rw [runMessage_out_cons, runMessage_out_cons, hx]
    exact congrArg (x :: ·) (ih _)

/-- Settles O38: both commands start from IV, so CBCDEC recovers the blocks of the padded message. -/
theorem cbcRoundTripExactly : Obligations.CbcRoundTripExactly := by
  intro c s hc hinv hk hv ha
  have henc : cbcencCommand c s
      = complete 0x22 ((cbcencMessage c s).result s (bytesOfBlocks (cbcencMessage c s).out)) s :=
    runCommand_ok_of_operandA ha (cbcencBody_ok c hk hv)
  obtain ⟨hA, hfits, haligned⟩ := outputAsInput_ciphertext hc ha (cbcencMessage_out_length c s) henc
  have hklen : (outputAsInput (cbcencCommand c s)).klen = 16 := by rwa [henc]
  have hivlen : (outputAsInput (cbcencCommand c s)).ivlen = 16 := by rwa [henc]
  have hkey : (outputAsInput (cbcencCommand c s)).key = s.key := by rw [henc]; rfl
  have hiv : (outputAsInput (cbcencCommand c s)).iv = s.iv := by rw [henc]; rfl
  have hm : (cbcdecMessage c (outputAsInput (cbcencCommand c s))).out = blocksOf (pad s.operandA 16) := by
    rw [cbcdecMessage, hA, blocksOf_bytesOfBlocks, hkey, hiv]
    exact cbcDec_cbcEnc hinv s.key s.iv _
  exact roundTrip_of_recovered (decrypted := fun rp => cbcdecCommand c rp _) hc ha hm
    fun rp => runCommand_ok_of_operandA hfits (cbcdecBody_ok c rp hklen hivlen haligned)

end Sys2Proof.Machine

/-! PROOFS. The Cryptanalysis Engine (R190 to R200): the Hamming distance, the class table and the classifier, the
single-byte solver, the key size estimator, and the commands HAMMING, KEYSIZE, ENGLISH and SOLVE1. -/

namespace Sys2Proof.Machine

/-! ## `hamming_distance` (R13, R190) -/

/-- The 1 bits of `x XOR y` are the bits in which `x` and `y` differ (R13). -/
theorem popcount_xor (x y : Byte) : popcount (x ^^^ y) = bitDistance x y := by
  have hbit : ∀ k, (x ^^^ y).getLsbD k = decide (x.getLsbD k ≠ y.getLsbD k) := fun k => by
    rw [BitVec.getLsbD_xor]
    cases x.getLsbD k <;> cases y.getLsbD k <;> rfl
  simp only [popcount, hbit]
  rfl

theorem bitDistance_comm (x y : Byte) : bitDistance x y = bitDistance y x := by
  simp only [bitDistance, ne_comm]

theorem bitDistance_le (x y : Byte) : bitDistance x y ≤ 8 :=
  Finset.card_filter_le _ _

theorem hammingDistance_nil_left (t : List Byte) : hammingDistance [] t = 0 := rfl

theorem hammingDistance_nil_right (s : List Byte) : hammingDistance s [] = 0 := by
  simp [hammingDistance]

theorem hammingDistance_cons (x y : Byte) (s t : List Byte) :
    hammingDistance (x :: s) (y :: t) = bitDistance x y + hammingDistance s t := by
  simp [hammingDistance, popcount_xor]

theorem hammingDistance_eq_sum_getD (s t : List Byte) : hammingDistance s t =
    ∑ i ∈ Finset.range (min s.length t.length), bitDistance (s.getD i 0) (t.getD i 0) := by
  induction s generalizing t with
  | nil => simp [hammingDistance_nil_left]
  | cons x s ih =>
    cases t with
    | nil => simp [hammingDistance_nil_right]
    | cons y t =>
      rw [hammingDistance_cons, ih, List.length_cons, List.length_cons, Nat.add_min_add_right,
        Finset.sum_range_succ']
      exact Nat.add_comm _ _

/-- The distance of sequences that `f` and `g` give byte by byte over the common length. -/
theorem hammingDistance_eq_sum {s t : List Byte} {f g : Nat → Byte} {n : Nat} (hn : min s.length t.length = n)
    (hf : ∀ i, i < n → s[i]? = some (f i)) (hg : ∀ i, i < n → t[i]? = some (g i)) :
    hammingDistance s t = ∑ i ∈ Finset.range n, bitDistance (f i) (g i) := by
  rw [hammingDistance_eq_sum_getD, hn]
  refine Finset.sum_congr rfl fun i hi => ?_
  have hi' : i < n := Finset.mem_range.1 hi
  rw [List.getD_eq_getElem?_getD, List.getD_eq_getElem?_getD, hf i hi', hg i hi']
  rfl

theorem hammingDistance_comm (s t : List Byte) : hammingDistance s t = hammingDistance t s := by
  simp only [hammingDistance_eq_sum_getD, Nat.min_comm s.length, bitDistance_comm]

/-- No byte contributes more than its 8 bits (R190). -/
theorem sum_bitDistance_le (f g : Nat → Byte) (n : Nat) :
    ∑ i ∈ Finset.range n, bitDistance (f i) (g i) ≤ 8 * n := by
  have h := Finset.sum_le_card_nsmul (Finset.range n) _ 8 fun i _ => bitDistance_le (f i) (g i)
  rwa [Finset.card_range, smul_eq_mul, Nat.mul_comm] at h

/-- Settles O14: the common length is 0 when either sequence is empty, and each byte of it adds at most 8. -/
theorem hammingDistanceSum : Obligations.HammingDistanceSum := by
  intro s t
  refine ⟨hammingDistance_eq_sum_getD s t, hammingDistance_comm s t, ?empty, ?bound⟩
  case empty =>
    rintro (rfl | rfl)
    · exact hammingDistance_nil_left t
    · exact hammingDistance_nil_right s
  case bound =>
    rw [hammingDistance_eq_sum_getD]
    exact sum_bitDistance_le (s.getD · 0) (t.getD · 0) _

/-! ## HAMMING (R191) -/

theorem hammingDistance_operands (s : State) : hammingDistance s.operandA s.operandB =
    ∑ i ∈ Finset.range (min s.alen.toNat s.blen.toNat), bitDistance (s.byte .abuf i) (s.byte .bbuf i) :=
  hammingDistance_eq_sum (by rw [operandA_length, operandB_length])
    (fun i hi => operandA_getElem? s i (lt_of_lt_of_le hi (Nat.min_le_left _ _)))
    (fun i hi => operandB_getElem? s i (lt_of_lt_of_le hi (Nat.min_le_right _ _)))

/-- Settles O26: the common length is at most `ALEN`, which fits the buffer, so the distance fits RES0. -/
theorem hammingCommandRule : Obligations.HammingCommandRule := by
  refine ⟨encode_toNat _, fun s => ⟨fun hexceeds => ?exceeds, fun ha hb => ?fits⟩⟩
  case exceeds =>
    rw [exec_capacityExceeded (hexceeds.imp_right fun hb => ⟨rfl, hb⟩), raise_eq_errorState]
    rfl
  case fits =>
    have hbound : hammingDistance s.operandA s.operandB ≤ 8 * Config.bufBytes := by
      rw [hammingDistance_operands]
      exact (sum_bitDistance_le (s.byte .abuf) (s.byte .bbuf) _).trans
        (Nat.mul_le_mul_left 8 ((Nat.min_le_left _ _).trans ha))
    have hbuf := Config.bufBytes_le
    obtain ⟨t, ht, hcompletes, hcalls, hscalars⟩ := exec_scalar (i := .hamming) ha (fun _ => hb) rfl (by omega)
    exact ⟨t, _, ht, hammingDistance_operands s, hbound, hcompletes, hscalars, hcalls⟩

/-! ## The class table (R192) -/

theorem inRange_iff {lo hi : Nat} {x : Byte} : inRange lo hi x = true ↔ lo ≤ x.toNat ∧ x.toNat ≤ hi := by
  simp [inRange]

/-- Settles O15: the ranges of the rows are disjoint and cover 0 to 255. -/
theorem byteClassesOfTable : Obligations.ByteClassesOfTable := by
  intro x
  have hx : x.toNat < 256 := x.isLt
  simp only [isReject, isPunct, Bool.or_eq_true, inRange_iff]
  unfold classOf
  split_ifs <;> simp only [true_iff, false_iff] <;> omega

/-! ## `looks_like_english` (R193) -/

/-- The bytes of a class among those of a sequence. -/
def classCount (xs : List Byte) (c : ByteClass) : Nat := xs.countP (classOf · = c)

theorem classCount_cons (x : Byte) (xs : List Byte) (c : ByteClass) :
    classCount (x :: xs) c = classCount xs c + if classOf x = c then 1 else 0 := by
  simp [classCount, List.countP_cons]

/-- What the loop of R193 has counted from `n` on when it meets the end of `xs`. -/
def Counts.tally (n : Counts) (xs : List Byte) : Counts where
  spaces := n.spaces + classCount xs .space
  punct := n.punct + classCount xs .punct
  digits := n.digits + classCount xs .digit
  upper := n.upper + classCount xs .upper
  lower := n.lower + classCount xs .lower

theorem Counts.tally_nil (n : Counts) : n.tally [] = n := rfl

theorem Counts.tally_cons (n : Counts) (x : Byte) (xs : List Byte) :
    n.tally (x :: xs) = (n.count (classOf x)).tally xs := by
  simp only [Counts.tally, classCount_cons]
  cases classOf x <;> simp [Counts.count] <;> omega

theorem classify_cons_reject {x : Byte} (n : Counts) (xs : List Byte) (h : classOf x = .reject) :
    classify n (x :: xs) = (n, false) := by
  simp only [classify, h]

theorem classify_cons {x : Byte} (n : Counts) (xs : List Byte) (h : classOf x ≠ .reject) :
    classify n (x :: xs) = classify (n.count (classOf x)) xs := by
  cases hc : classOf x with
  | reject => exact absurd hc h
  | _ => simp only [classify, hc]

/-- The loop accepts exactly when it rejects no byte and its counts at the end meet the four comparisons (R193). -/
theorem classify_accepts_iff (n : Counts) (xs : List Byte) :
    (classify n xs).2 = true ↔ (∀ x ∈ xs, classOf x ≠ .reject) ∧ (n.tally xs).accepts = true := by
  induction xs generalizing n with
  | nil => simp [classify, Counts.tally_nil]
  | cons x xs ih =>
    rw [List.forall_mem_cons, Counts.tally_cons]
    by_cases h : classOf x = .reject
    · simp [classify_cons_reject n xs h, h]
    · rw [classify_cons n xs h, ih, and_assoc, and_iff_right h]

theorem Counts.accepts_iff (n : Counts) : n.accepts = true ↔
    n.punct ≤ n.spaces ∧ n.punct ≤ n.digits + (n.upper + n.lower) ∧ n.upper ≤ n.lower
      ∧ n.digits ≤ n.upper + n.lower := by
  simp [Counts.accepts, and_assoc]

/-- The sequence that `get` gives byte by byte, as a list. -/
theorem eq_map_get {s : List Byte} {get : Nat → Byte} (hget : ∀ i, i < s.length → s[i]? = some (get i)) :
    s = (List.range s.length).map get := by
  apply List.ext_getElem
  · simp
  · intro i h1 h2
    rw [List.getElem_map, List.getElem_range, List.getElem_eq_iff, hget i h1]

/-- How many bytes of such a sequence satisfy `p`. -/
theorem countP_eq_countBytes {s : List Byte} {get : Nat → Byte} (hget : ∀ i, i < s.length → s[i]? = some (get i))
    (p : Byte → Bool) : s.countP p = countBytes get s.length p := by
  have hs : s.countP p = ((List.range s.length).map get).countP p := congrArg (List.countP p) (eq_map_get hget)
  rw [hs, List.countP_map, List.countP_eq_length_filter]
  show _ = (List.filter (fun i => decide (p (get i) = true)) (List.range s.length)).length
  simp only [Bool.decide_eq_true, Function.comp_def]

/-- The count of a class is the count of its row (R192, R193). -/
theorem classCount_eq_countBytes {s : List Byte} {get : Nat → Byte}
    (hget : ∀ i, i < s.length → s[i]? = some (get i)) {c : ByteClass} {row : Byte → Bool}
    (hrow : ∀ x, classOf x = c ↔ row x = true) : classCount s c = countBytes get s.length row := by
  rw [← countP_eq_countBytes hget]
  exact List.countP_congr fun x _ => by rw [decide_eq_true_iff, hrow]

/-- The bytes of such a sequence are those that `get` gives. -/
theorem forall_mem_iff_get {s : List Byte} {get : Nat → Byte} (hget : ∀ i, i < s.length → s[i]? = some (get i))
    (p : Byte → Prop) : (∀ x ∈ s, p x) ↔ ∀ i, i < s.length → p (get i) := by
  have hs : (∀ x ∈ s, p x) ↔ ∀ x ∈ (List.range s.length).map get, p x := by rw [← eq_map_get hget]
  simp [hs]

/-- `looks_like_english` in the words of claims, for a sequence that `get` gives byte by byte. -/
theorem looksLikeEnglish_iff {s : List Byte} {get : Nat → Byte} (hget : ∀ i, i < s.length → s[i]? = some (get i)) :
    looksLikeEnglish s = true ↔ EnglishLike get s.length := by
  have hreject : ∀ x, classOf x ≠ .reject ↔ isReject x = false := fun x => by
    rw [← Bool.not_eq_true, Ne, (byteClassesOfTable x).1]
  have hspace := classCount_eq_countBytes hget fun x => (byteClassesOfTable x).2.2.1
  have hpunct := classCount_eq_countBytes hget fun x => (byteClassesOfTable x).2.2.2.1
  have hdigit := classCount_eq_countBytes hget fun x => (byteClassesOfTable x).2.2.2.2.1
  have hupper := classCount_eq_countBytes hget fun x => (byteClassesOfTable x).2.2.2.2.2.1
  have hlower := classCount_eq_countBytes hget fun x => (byteClassesOfTable x).2.2.2.2.2.2
  rw [looksLikeEnglish, classify_accepts_iff, Counts.accepts_iff, forall_mem_iff_get hget]
  simp only [hreject, Counts.tally, Counts.zero, Nat.zero_add, hspace, hpunct, hdigit, hupper, hlower]
  rfl

/-! ## The end of a command whose rule yields bytes and numbers (R104) -/

/-- A command whose rule yields a result with no call and with numbers that fit their registers: its end, its frame,
RES0 to RES2, and the bytes of OBUF. -/
theorem exec_completes {i : Instr} {s : State} {r : Result} (ha : s.alen.toNat ≤ Config.bufBytes)
    (hb : checksB i = true → s.blen.toNat ≤ Config.bufBytes) (h : commandBody i s = .ok r) (hcalls : r.calls = [])
    (h0 : r.res0 < 2 ^ 32) (h1 : r.res1 < 2 ^ 32) (h2 : r.res2 < 2 ^ 32) :
    ∃ t, exec i s = .next t ∧ Completes i.opcode.toNat r.out.length s t ∧ Scalars t r.res0 r.res1 r.res2
      ∧ MakesNoCall s t ∧ ∀ k x, r.out[k]? = some x → t.byte .obuf k = x :=
  ⟨_, exec_ok ha hb h, complete_completes _ _ _ (out_length_lt ha h),
    ⟨Nat.mod_eq_of_lt h0, Nat.mod_eq_of_lt h1, Nat.mod_eq_of_lt h2⟩,
    (congrArg (s.trace ++ ·) hcalls).trans (List.append_nil _), fun _ _ hx => byte_complete_of_out hx⟩

/-! ## ENGLISH and SOLVE1 (R194 to R196) -/

theorem looksLikeEnglish_operandA_iff (s : State) :
    looksLikeEnglish s.operandA = true ↔ EnglishLike (s.byte .abuf) s.alen.toNat := by
  rw [looksLikeEnglish_iff (operandA_get s), operandA_length]

/-- Settles O28: RES0 is the classifier's answer for the operand as a number. -/
theorem englishCommandRule : Obligations.EnglishCommandRule := by
  refine ⟨encode_toNat _, fun s => ⟨exec_errorState_of_alen, fun ha => ?_⟩⟩
  obtain ⟨t, ht, hcompletes, hscalars, hcalls, -⟩ := exec_completes (i := .english) ha nofun rfl rfl
    ((Bool.toNat_lt _).trans (by decide)) (Nat.two_pow_pos 32) (Nat.two_pow_pos 32)
  change Scalars t (looksLikeEnglish s.operandA).toNat 0 0 at hscalars
  refine ⟨t, ht, hcompletes, hcalls, fun henglish => ?_, fun henglish => ?_⟩
  · rwa [(looksLikeEnglish_operandA_iff s).2 henglish] at hscalars
  · rwa [Bool.eq_false_iff.2 (mt (looksLikeEnglish_operandA_iff s).1 henglish)] at hscalars

/-- The trial of R196 on the operand, in the words of claims. -/
theorem looksLikeEnglish_trial_iff (s : State) (k : Byte) :
    looksLikeEnglish (trial s.operandA k) = true ↔ EnglishLike (fun i => s.byte .abuf i ^^^ k) s.alen.toNat := by
  have hlen : (trial s.operandA k).length = s.alen.toNat := by rw [trial, List.length_map, operandA_length]
  have hget : ∀ i, i < (trial s.operandA k).length →
      (trial s.operandA k)[i]? = some (s.byte .abuf i ^^^ k) := fun i hi => by
    rw [trial, List.getElem?_map, operandA_getElem? s i (hlen ▸ hi), Option.map_some]
  rw [looksLikeEnglish_iff hget, hlen]

/-- The solver keeps the ascending order of the trial keys (R195). -/
theorem solveSingleByteXor_ascending (s : List Byte) :
    (solveSingleByteXor s).Pairwise fun x y => x.toNat < y.toNat := by
  refine List.Pairwise.filter _ (List.pairwise_map.2 (List.pairwise_lt_range.imp_of_mem fun ha hb hab => ?_))
  rw [List.mem_range] at ha hb
  rwa [BitVec.toNat_ofNat, BitVec.toNat_ofNat, Nat.mod_eq_of_lt ha, Nat.mod_eq_of_lt hb]

/-- Settles O29: OBUF holds the solver's list, ascending as the keys tried are, of the keys whose trial is accepted. -/
theorem solve1CommandRule : Obligations.Solve1CommandRule := by
  refine ⟨encode_toNat _, fun s => ⟨exec_errorState_of_alen, fun ha => ?_⟩⟩
  have hlen := solveSingleByteXor_length s.operandA
  obtain ⟨t, ht, hcompletes, hscalars, hcalls, hbytes⟩ := exec_completes (i := .solve1) ha nofun rfl rfl
    (hlen.trans_lt (by decide)) (Nat.two_pow_pos 32) (Nat.two_pow_pos 32)
  have hbyte : ∀ i (hi : i < (solveSingleByteXor s.operandA).length),
      t.byte .obuf i = (solveSingleByteXor s.operandA)[i] :=
    fun i hi => hbytes i _ (List.getElem?_eq_getElem hi)
  refine ⟨t, _, ht, hlen, hcompletes, hscalars, hcalls, fun i j hij hj => ?ascending, fun k => ?accepted⟩
  case ascending =>
    rw [hbyte i (hij.trans hj), hbyte j hj]
    exact List.pairwise_iff_getElem.1 (solveSingleByteXor_ascending _) i j _ hj hij
  case accepted =>
    rw [← looksLikeEnglish_trial_iff, ← solveSingleByteXor_mem, List.mem_iff_getElem]
    exact exists_congr fun i =>
      ⟨fun ⟨hi, h⟩ => ⟨hi, (hbyte i hi).symm.trans h⟩, fun ⟨hi, h⟩ => ⟨hi, (hbyte i hi).trans h⟩⟩

/-! ## `find_candidate_keysize` (R197 to R200) -/

/-- The candidate of a size, with its score (R198). -/
def candidate (s : List Byte) (k : Nat) : Candidate := ⟨k, pairSum s k, k * pairCount s k⟩

/-- The average of `a` is strictly lower than that of `b`, as R198 compares them. -/
def Candidate.Lower (a b : Candidate) : Prop := a.sum * b.den < b.sum * a.den

/-- `a < b` and `b ≤ c` give `a < c`, as averages. -/
theorem Candidate.lower_of_lower_of_not_lower {a b c : Candidate} (hc : 0 < c.den) (hab : a.Lower b)
    (hcb : ¬ c.Lower b) : a.Lower c := by
  unfold Candidate.Lower at *
  refine Nat.lt_of_mul_lt_mul_left (a := b.den) ?_
  calc b.den * (a.sum * c.den) = a.sum * b.den * c.den := by ring
    _ < b.sum * a.den * c.den := Nat.mul_lt_mul_of_pos_right hab hc
    _ = b.sum * c.den * a.den := by ring
    _ ≤ c.sum * b.den * a.den := Nat.mul_le_mul_right _ (not_lt.1 hcb)
    _ = b.den * (c.sum * a.den) := by ring

theorem Candidate.not_lower_self (a : Candidate) : ¬ a.Lower a := lt_irrefl _

theorem Candidate.not_lower_of_lower {a b : Candidate} (h : a.Lower b) : ¬ b.Lower a := lt_asymm h

theorem candidate_den_pos {s : List Byte} {k : Nat} (hk : 0 < k) (h : pairCount s k ≠ 0) : 0 < (candidate s k).den :=
  Nat.mul_pos hk (Nat.pos_of_ne_zero h)

theorem keysizeTurn_of_unsampled {s : List Byte} {k : Nat} (best : Option Candidate) (h : pairCount s k = 0) :
    keysizeTurn s best k = best := if_pos h

theorem keysizeTurn_none {s : List Byte} {k : Nat} (h : pairCount s k ≠ 0) :
    keysizeTurn s none k = some (candidate s k) := if_neg h

theorem keysizeTurn_of_lower {s : List Byte} {k : Nat} {best : Candidate} (h : pairCount s k ≠ 0)
    (hlower : (candidate s k).Lower best) : keysizeTurn s (some best) k = some (candidate s k) :=
  (if_neg h).trans (if_pos hlower)

theorem keysizeTurn_of_not_lower {s : List Byte} {k : Nat} {best : Candidate} (h : pairCount s k ≠ 0)
    (hlower : ¬ (candidate s k).Lower best) : keysizeTurn s (some best) k = some best :=
  (if_neg h).trans (if_neg hlower)

/-- `k` is the sampled size among `ks` of the lowest average, the smallest of equals (R199, R200). -/
structure BestSize (s : List Byte) (ks : List Nat) (k : Nat) : Prop where
  mem : k ∈ ks
  sampled : pairCount s k ≠ 0
  lowest : ∀ m ∈ ks, pairCount s m ≠ 0 → ¬ (candidate s m).Lower (candidate s k)
  smallest : ∀ m ∈ ks, pairCount s m ≠ 0 → m < k → (candidate s k).Lower (candidate s m)

/-- A further size that is larger, and has no pair or no lower average, leaves the best as it is. -/
theorem BestSize.append_of_not_lower {s : List Byte} {ks : List Nat} {k best : Nat} (h : BestSize s ks best)
    (hlt : best < k) (hk : pairCount s k ≠ 0 → ¬ (candidate s k).Lower (candidate s best)) :
    BestSize s (ks ++ [k]) best where
  mem := List.mem_append_left _ h.mem
  sampled := h.sampled
  lowest := List.forall_mem_append.2 ⟨h.lowest, List.forall_mem_singleton.2 hk⟩
  smallest := List.forall_mem_append.2
    ⟨h.smallest, List.forall_mem_singleton.2 fun _ hk' => absurd hlt (lt_asymm hk')⟩

/-- A further size whose average is lower than that of each sampled size before it is the best. -/
theorem BestSize.append_of_lower {s : List Byte} {ks : List Nat} {k : Nat} (hk : pairCount s k ≠ 0)
    (hlower : ∀ m ∈ ks, pairCount s m ≠ 0 → (candidate s k).Lower (candidate s m)) : BestSize s (ks ++ [k]) k where
  mem := List.mem_append_right _ (List.mem_singleton_self k)
  sampled := hk
  lowest := List.forall_mem_append.2 ⟨fun m hm hs => Candidate.not_lower_of_lower (hlower m hm hs),
    List.forall_mem_singleton.2 fun _ => Candidate.not_lower_self _⟩
  smallest := List.forall_mem_append.2 ⟨fun m hm hs _ => hlower m hm hs,
    List.forall_mem_singleton.2 fun _ hlt => absurd hlt (lt_irrefl k)⟩

/-- The loop of R200 over ascending sizes finds the best of them, or nothing when none is sampled. -/
theorem foldl_keysizeTurn (s : List Byte) {ks : List Nat} (hasc : ks.Pairwise (· < ·)) (hpos : ∀ k ∈ ks, 0 < k) :
    (ks.foldl (keysizeTurn s) none = none ∧ ∀ k ∈ ks, pairCount s k = 0)
    ∨ ∃ k, ks.foldl (keysizeTurn s) none = some (candidate s k) ∧ BestSize s ks k := by
  induction ks using List.reverseRecOn with
  | nil => exact .inl ⟨rfl, nofun⟩
  | append_singleton ks k ih =>
    obtain ⟨hasc', -, hlt⟩ := List.pairwise_append.1 hasc
    obtain ⟨hpos', -⟩ := List.forall_mem_append.1 hpos
    have hlast : ∀ m ∈ ks, m < k := fun m hm => hlt m hm k (List.mem_singleton_self k)
    rw [List.foldl_append, List.foldl_cons, List.foldl_nil]
    by_cases hk : pairCount s k = 0
    · rw [keysizeTurn_of_unsampled _ hk]
      rcases ih hasc' hpos' with ⟨hnone, hall⟩ | ⟨best, hsome, hbest⟩
      · exact .inl ⟨hnone, List.forall_mem_append.2 ⟨hall, List.forall_mem_singleton.2 hk⟩⟩
      · exact .inr ⟨best, hsome, hbest.append_of_not_lower (hlast best hbest.mem) (absurd hk)⟩
    · refine .inr ?_
      rcases ih hasc' hpos' with ⟨hnone, hall⟩ | ⟨best, hsome, hbest⟩
      · rw [hnone, keysizeTurn_none hk]
        exact ⟨k, rfl, .append_of_lower hk fun m hm hs => absurd (hall m hm) hs⟩
      · rw [hsome]
        by_cases hlower : (candidate s k).Lower (candidate s best)
        · rw [keysizeTurn_of_lower hk hlower]
          exact ⟨k, rfl, .append_of_lower hk fun m hm hs => Candidate.lower_of_lower_of_not_lower
            (candidate_den_pos (hpos' m hm) hs) hlower (hbest.lowest m hm hs)⟩
        · rw [keysizeTurn_of_not_lower hk hlower]
          exact ⟨best, rfl, hbest.append_of_not_lower (hlast best hbest.mem) fun _ => hlower⟩

theorem mem_sizes {min max k : Nat} : k ∈ sizes min max ↔ min ≤ k ∧ k ≤ max := by
  rw [sizes, List.mem_map]
  constructor
  · rintro ⟨i, hi, rfl⟩
    rw [List.mem_range] at hi
    omega
  · intro h
    exact ⟨k - min, List.mem_range.2 (by omega), by omega⟩

theorem sizes_ascending (min max : Nat) : (sizes min max).Pairwise (· < ·) :=
  List.pairwise_map.2 (List.pairwise_lt_range.imp fun h => Nat.add_lt_add_right h min)

/-- A size has a pair exactly when two chunks of it fit the sequence (R197, R199). -/
theorem pairCount_ne_zero_iff {s : List Byte} {k : Nat} (hk : 0 < k) : pairCount s k ≠ 0 ↔ 2 * k ≤ s.length := by
  rw [pairCount, Nat.div_ne_zero_iff]
  omega

/-- What the estimator answers: nothing when even `min` has no pair, else the best sampled size. -/
theorem findKeysize_cases (s : List Byte) {min max : Nat} (hmin : 0 < min) (hle : min ≤ max) :
    (findKeysize s min max = none ∧ s.length < 2 * min)
    ∨ ∃ k, findKeysize s min max = some (candidate s k) ∧ BestSize s (sizes min max) k := by
  have hpos : ∀ k ∈ sizes min max, 0 < k := fun k hk => hmin.trans_le (mem_sizes.1 hk).1
  refine (foldl_keysizeTurn s (sizes_ascending min max) hpos).imp_left fun ⟨hnone, hall⟩ => ⟨hnone, ?_⟩
  have hzero : pairCount s min = 0 := hall min (mem_sizes.2 ⟨le_rfl, hle⟩)
  exact not_le.1 fun h => (pairCount_ne_zero_iff hmin).2 h hzero

/-! ## KEYSIZE (R200) -/

theorem chunk_getElem? {s : List Byte} {start k i : Nat} (h : i < k) : (chunk s start k)[i]? = s[start + i]? := by
  rw [chunk, List.getElem?_take_of_lt h, List.getElem?_drop]

/-- The distance of two chunks of operand `A` (R197). -/
theorem hammingDistance_chunks (s : State) {a b k : Nat} (ha : a + k ≤ s.alen.toNat) (hb : b + k ≤ s.alen.toNat) :
    hammingDistance (chunk s.operandA a k) (chunk s.operandA b k) =
      ∑ i ∈ Finset.range k, bitDistance (s.byte .abuf (a + i)) (s.byte .abuf (b + i)) := by
  refine hammingDistance_eq_sum ?_ (fun i hi => ?_) fun i hi => ?_
  · rw [chunk_length _ _ _ (by rwa [operandA_length]), chunk_length _ _ _ (by rwa [operandA_length]), Nat.min_self]
  · rw [chunk_getElem? hi, operandA_getElem? s _ (by omega)]
  · rw [chunk_getElem? hi, operandA_getElem? s _ (by omega)]

/-- `S_k` of operand `A` in the words of claims: pair `j` ends at `2jk + 2k`, inside the operand. -/
theorem pairSum_operandA (s : State) (k : Nat) : pairSum s.operandA k = sampledDistance s k := by
  rw [pairSum, pairCount, operandA_length, sampledDistance, ← List.sum_toFinset _ List.nodup_range,
    List.toFinset_range]
  refine Finset.sum_congr rfl fun j hj => ?_
  have hend : (j + 1) * (2 * k) ≤ s.alen.toNat :=
    (Nat.mul_le_mul_right _ (Finset.mem_range.1 hj)).trans (Nat.div_mul_le_self _ _)
  have heq : (j + 1) * (2 * k) = 2 * j * k + k + k := by ring
  exact hammingDistance_chunks s (by omega) (by omega)

theorem candidate_operandA (s : State) (k : Nat) :
    candidate s.operandA k = ⟨k, sampledDistance s k, sampledDen s k⟩ := by
  rw [candidate, pairSum_operandA, pairCount, operandA_length, sampledDen]

theorem lower_candidate_operandA_iff (s : State) (k m : Nat) :
    (candidate s.operandA k).Lower (candidate s.operandA m) ↔
      sampledDistance s k * sampledDen s m < sampledDistance s m * sampledDen s k := by
  rw [candidate_operandA, candidate_operandA, Candidate.Lower]

theorem pairCount_operandA_ne_zero_iff {s : State} {k : Nat} (hk : 0 < k) :
    pairCount s.operandA k ≠ 0 ↔ 2 * k ≤ s.alen.toNat := by
  rw [pairCount_ne_zero_iff hk, operandA_length]

/-- Each of the `n_k` pairs adds at most 8 bits for each of its `k` bytes (R200). -/
theorem sampledDistance_le (s : State) (k : Nat) : sampledDistance s k ≤ 8 * sampledDen s k := by
  have h := Finset.sum_le_card_nsmul (Finset.range (s.alen.toNat / (2 * k))) _ (8 * k) fun j _ =>
    sum_bitDistance_le (fun i => s.byte .abuf (2 * j * k + i)) (fun i => s.byte .abuf (2 * j * k + k + i)) k
  rw [Finset.card_range, smul_eq_mul] at h
  calc sampledDistance s k ≤ s.alen.toNat / (2 * k) * (8 * k) := h
    _ = 8 * sampledDen s k := by rw [sampledDen]; ring

theorem le_sampledDen {s : State} {k : Nat} (hk : 0 < k) (h : 2 * k ≤ s.alen.toNat) : k ≤ sampledDen s k :=
  Nat.le_mul_of_pos_right k (Nat.div_pos h (by omega))

theorem sampledDen_le (s : State) (k : Nat) : sampledDen s k ≤ s.alen.toNat :=
  (Nat.mul_le_mul_right _ (Nat.le_mul_of_pos_left k two_pos)).trans (Nat.mul_div_le _ _)

theorem commandBody_keysize_none {min max : Byte} {s : State} (hmin : 2 ≤ min.toNat) (hle : min.toNat ≤ max.toNat)
    (h : findKeysize s.operandA min.toNat max.toNat = none) :
    commandBody (.keysize min max) s = .error .needMoreData := by
  show keysizeBody min max s = _
  rw [keysizeBody, if_neg (by omega), h]

theorem commandBody_keysize_some {min max : Byte} {s : State} {best : Candidate} (hmin : 2 ≤ min.toNat)
    (hle : min.toNat ≤ max.toNat) (h : findKeysize s.operandA min.toNat max.toNat = some best) :
    commandBody (.keysize min max) s =
      .ok { Result.scalar s best.size with res1 := best.sum, res2 := best.den } := by
  show keysizeBody min max s = _
  rw [keysizeBody, if_neg (by omega), h]

/-- Settles O27: the estimator answers nothing exactly when `ALEN` is below `2 min`, else the best sampled size. -/
theorem keysizeCommandRule : Obligations.KeysizeCommandRule := by
  intro min max s
  refine ⟨encode_toNat _, exec_errorState_of_alen, fun ha hrange => ?range, fun ha hmin hle hshort => ?short,
    fun ha hmin hle hlong => ?best⟩
  case range => exact exec_errorState (e := .invalidInput) ha nofun (if_pos hrange)
  case short =>
    refine exec_errorState (e := .needMoreData) ha nofun (commandBody_keysize_none hmin hle ?_)
    rcases findKeysize_cases s.operandA (zero_lt_two.trans_le hmin) hle with ⟨hnone, -⟩ | ⟨k, -, hbest⟩
    · exact hnone
    · have hk := mem_sizes.1 hbest.mem
      have hfits := (pairCount_operandA_ne_zero_iff (by omega)).1 hbest.sampled
      omega
  case best =>
    rcases findKeysize_cases s.operandA (zero_lt_two.trans_le hmin) hle with ⟨-, hshort⟩ | ⟨k, hfind, hbest⟩
    · rw [operandA_length] at hshort
      omega
    · obtain ⟨hmink, hkmax⟩ := mem_sizes.1 hbest.mem
      have hfits : 2 * k ≤ s.alen.toNat := (pairCount_operandA_ne_zero_iff (by omega)).1 hbest.sampled
      have hden : k ≤ sampledDen s k := le_sampledDen (by omega) hfits
      have hdist := sampledDistance_le s k
      have hdenA := sampledDen_le s k
      have hbuf := Config.bufBytes_le
      have hmax : max.toNat < 2 ^ 8 := max.isLt
      rw [candidate_operandA] at hfind
      obtain ⟨t, ht, hcompletes, hscalars, hcalls, -⟩ := exec_completes (i := .keysize min max) ha nofun
        (commandBody_keysize_some hmin hle hfind) rfl (show k < 2 ^ 32 by omega)
        (show sampledDistance s k < 2 ^ 32 by omega) (show sampledDen s k < 2 ^ 32 by omega)
      refine ⟨t, k, ht, hmink, hkmax, hfits, hcompletes, hcalls, hscalars, by omega, hdist,
        fun m hminm hmmax hm => ?_⟩
      have hmem : m ∈ sizes min.toNat max.toNat := mem_sizes.2 ⟨hminm, hmmax⟩
      have hsampled : pairCount s.operandA m ≠ 0 := (pairCount_operandA_ne_zero_iff (by omega)).2 hm
      simp only [← not_lt (a := sampledDistance s m * _), ← lower_candidate_operandA_iff]
      exact ⟨hbest.lowest m hmem hsampled, hbest.smallest m hmem hsampled⟩

end Sys2Proof.Machine

/-! PROOFS. Command errors (R230, R239, R240, R248): the ends of a CMD write by the opcode byte of its word, the exact
effect of one that errs, and that no event stops the machine. -/

namespace Sys2Proof.Machine

/-! ## The two ends of a CMD write (R103, R104, R239) -/

/-- LASTOP of a legal word is its bits 7:0 (R28, R91). -/
theorem opcode_of_decode {w : Word} {i : Instr} (h : decode w = .ok i) : i.opcode = opField w := by
  rw [← encode_op, legalWordIsItsEncoding w i h]

/-- Error entry or completion, with the word's bits 7:0 as LASTOP whether the word is legal or not. -/
theorem execCommand_raise_or_complete (w : Word) (s : State) :
    (∃ e, execCommand w s = .next (raise e (opField w) s))
    ∨ ∃ r, execCommand w s = .next (complete (opField w) r s) := by
  rcases execCommand_cases w s with ⟨-, -, he⟩ | ⟨i, e, hdecode, he⟩ | ⟨i, r, hdecode, -, -, he⟩
  · exact .inl ⟨_, he⟩
  · exact .inl ⟨e, opcode_of_decode hdecode ▸ he⟩
  · exact .inr ⟨r, opcode_of_decode hdecode ▸ he⟩

/-- STATUS.ERR tells the two ends apart (R28). -/
theorem eq_raise_of_statusErrFlag {w : Word} {s u : State} (hu : execCommand w s = .next u)
    (herr : statusErrFlag u.status = true) : ∃ e, u = raise e (opField w) s := by
  rcases execCommand_raise_or_complete w s with ⟨e, he⟩ | ⟨r, he⟩
  · cases he.symm.trans hu
    exact ⟨e, rfl⟩
  · cases he.symm.trans hu
    rw [complete_status, (statusOk_fields _).1] at herr
    cases herr

/-- Error entry neither reads nor changes what is presented and answered, so it commutes with taking the event. -/
theorem respond_raise_taking (e : CmdError) (op : Byte) (s : State) (rest : List HostEvent) (r : Response) :
    (raise e op (s.taking rest)).respond r = (errorState e.code.toNat op.toNat s).answered rest r := by
  rw [raise_eq_errorState]
  rfl

/-- Settles O31: of the two ends of a command only error entry sets STATUS.ERR. -/
theorem errorEntryIsExact : Obligations.ErrorEntryIsExact := by
  intro s t w rest hhost hstep herr
  obtain ⟨u, hu, -⟩ := execCommand_keepsWorld w (s.taking rest)
  rw [step_write_cmd hhost, hu] at hstep
  cases hstep
  obtain ⟨e, rfl⟩ := eq_raise_of_statusErrFlag hu herr
  obtain ⟨hlow, hhigh⟩ := e.code_bounds
  exact ⟨e.code.toNat, writeDone, hlow, hhigh, rfl, respond_raise_taking e (opField w) s rest writeDone⟩

/-! ## No event stops the machine (R105, R248) -/

/-- The step that takes an event, of whatever kind (R9). -/
theorem step_of_host_cons {s : State} {e : HostEvent} {rest : List HostEvent} (h : s.host = e :: rest) :
    step s = hostEvent e (s.taking rest) := by
  unfold step
  rw [h]
  rfl

/-- Every transaction is answered, an illegal one by a bus error (R62). -/
theorem transact_exists_next (tr : Transaction) (s : State) : ∃ t, transact tr s = .next t := by
  cases hloc : tr.loc with
  | none => exact ⟨_, transact_of_loc_none hloc s⟩
  | some l =>
    obtain ⟨u, r, hu, -⟩ := transact_of_loc_some hloc s
    exact ⟨_, hu⟩

theorem hostEvent_exists_next (e : HostEvent) (s : State) : ∃ t, hostEvent e s = .next t := by
  cases e with
  | transaction tr => exact transact_exists_next tr s
  | rst => exact ⟨resetEvent s, rfl⟩
  | rstDuring w => exact ⟨resetDuring w s, rfl⟩

/-- Settles O48: with nothing presented the machine idles, and every event has its outcome. -/
theorem stepNeverStops : Obligations.StepNeverStops := by
  intro s
  cases hhost : s.host with
  | nil => exact ⟨s, step_of_host_nil hhost⟩
  | cons e rest =>
    obtain ⟨t, ht⟩ := hostEvent_exists_next e (s.taking rest)
    exact ⟨t, (step_of_host_cons hhost).trans ht⟩

end Sys2Proof.Machine

/-! PROOFS. Resets (R44, R260, R262): the state after `rst`, between transactions and inside a command. -/

namespace Sys2Proof.Machine

/-! ## What a command adds to the trace (R78) -/

/-- Error entry adds no call and completion appends the result's, so a command forgets no earlier call. -/
theorem execCommand_trace_prefix {w : Word} {s t : State} (h : execCommand w s = .next t) :
    s.trace <+: t.trace := by
  rcases execCommand_raise_or_complete w s with ⟨e, he⟩ | ⟨r, he⟩
  · cases he.symm.trans h
    rw [raise_trace]
  · cases he.symm.trans h
    rw [complete_trace]
    exact List.prefix_append _ _

/-- `callsOf` is what the command appends to the trace when nothing interrupts it. -/
theorem trace_append_callsOf {w : Word} {s t : State} (h : execCommand w s = .next t) :
    s.trace ++ callsOf w s = t.trace := by
  have hcalls : callsOf w s = t.trace.drop s.trace.length := by rw [callsOf, h]
  rw [hcalls]
  exact List.prefix_iff_eq_append.1 (execCommand_trace_prefix h)

/-! ## The two reset events (R260, R262) -/

/-- Settles O51: the step that takes `rst` is the reset event. -/
theorem resetEventRestoresResetState : Obligations.ResetEventRestoresResetState := by
  intro s rest hhost
  exact step_of_host_cons hhost

/-- Settles O52: the calls of the uninterrupted command are split where the reset interrupts them. -/
theorem resetDuringCommandAbandonsIt : Obligations.ResetDuringCommandAbandonsIt := by
  intro s t w rest hhost hrun
  refine ⟨(callsOf w (s.taking rest)).take (Config.callsBeforeReset s.boots),
    (callsOf w (s.taking rest)).drop (Config.callsBeforeReset s.boots), ?trace, step_of_host_cons hhost⟩
  rw [List.append_assoc, List.take_append_drop]
  exact (trace_append_callsOf hrun).symm

end Sys2Proof.Machine
